-- ==== Sys2Proof/Word.lean ====
section
/-! DEFINITION. The words of NXPE: bytes of the link and the buffers, the 32-bit words of the register interface
(`20_memory.md` R61), and the 64-bit operand and result registers (`10_state.md` R21, R22). -/

namespace Sys2Proof

/-- A byte of the link, of TXBUF or of RXBUF. -/
abbrev Byte := BitVec 8

/-- A word of the register interface (`20_memory.md` R61). -/
abbrev Word32 := BitVec 32

/-- An operand or result register (`10_state.md` R21, R22). -/
abbrev Word64 := BitVec 64

end Sys2Proof
end

