-- ==== Sys2Proof/Config.lean ====
section
/-! DEFINITION. The implementation parameters of NXPE (`00_scope.md` R6): the fixed ones as constants, the OPEN ones as
a record that `State` carries, and the free values, which are constants without a body. -/

namespace Sys2Proof

/-- `ARITH` (`00_scope.md` R6, R11): how every `round(...)` of the source is evaluated. -/
inductive Arith where
  /-- The exact real value is rounded once, to the nearest integer, ties to even. -/
  | exact
  /-- Each operator is evaluated in binary64, left to right; the result is then rounded to an integer, ties to even. -/
  | binary64
deriving DecidableEq, Repr

/-- `RESP_LEN(cmd)` (`30_encoding.md` R103): the reply payload lengths that the source leaves open, one per command. -/
structure RespLen where
  sync : Byte
  getTrackingMode : Byte
  setTrackingMode : Byte
  getLocation : Byte
  setLocation : Byte
  getTime : Byte
  setTime : Byte
  getVersion : Byte
  getModel : Byte
deriving DecidableEq, Repr

/-- The OPEN parameters of `00_scope.md` R6. They are arguments of the model: `State` carries them and nothing writes
them. DESIGN CHOICE, log entry 1. -/
structure Params where
  arith : Arith
  respLen : RespLen
  slewRespLen : Byte
  devverRespLen : Byte
deriving DecidableEq, Repr

/-- The recommended defaults of `00_scope.md` R6 and `30_encoding.md` R103. -/
def Params.recommended : Params :=
  { arith := .exact
    respLen :=
      { sync := 0, getTrackingMode := 1, setTrackingMode := 0, getLocation := 8, setLocation := 0
        getTime := 8, setTime := 0, getVersion := 2, getModel := 1 }
    slewRespLen := 0
    devverRespLen := 2 }

namespace Config

/-- `TERM`: the terminator of every response (`00_scope.md` R6). -/
def term : Byte := 0x23

/-- `TXCAP`: bytes of TXBUF (`00_scope.md` R6, `10_state.md` R27). -/
def txCap : Nat := 32

/-- `RXCAP`: bytes of RXBUF (`00_scope.md` R6, `10_state.md` R29). -/
def rxCap : Nat := 256

/-- Register offset of TXBUF[0] (`20_memory.md` R62). -/
def txBase : Nat := 0x100

/-- Register offset of RXBUF[0] (`20_memory.md` R62). -/
def rxBase : Nat := 0x200

/-- The comma between two angle fields (`20_memory.md` R72). -/
def comma : Byte := 0x2C

/-- DeviceId AZM_RA_MOTOR (`00_scope.md` R13). -/
def azmRaMotor : Byte := 16

/-- DeviceId ALT_DEC_MOTOR (`00_scope.md` R13). -/
def altDecMotor : Byte := 17

/-- DeviceId GPS_DEVICE (`00_scope.md` R13). -/
def gpsDevice : Byte := 176

/-- DeviceId RTC_DEVICE (`00_scope.md` R13). -/
def rtcDevice : Byte := 178

/-- FREE VALUE. Whether a host read, while BUSY = 1, of the register at an offset that the link operation writes as it
goes returns the new value (else the old one), after `n` writes and engine steps (`20_memory.md` R74,
`93_implementation_defined.md` I16): with none of these between them, two reads of one offset return the same
(`20_memory.md` R65). Log entry 7. -/
opaque showsNew : Nat → BitVec 12 → Bool

/-- FREE VALUE. How many more bytes a receiver takes as the request that opens with an unlisted opcode byte: the spec
gives it no length (`30_encoding.md` R107, `93_implementation_defined.md` I7). Log entry 5. -/
opaque unlistedLeft : Byte → Nat

/-- FREE VALUE. The mode byte that DEC_TRK finds in a payload when RESP_LEN(GET_TRACKING_MODE) is not the default 1, so
that `30_encoding.md` R103 gives the payload no layout. Log entry 14. -/
opaque otherTracking : List Byte → Byte

/-- FREE VALUE. The eight location bytes, by index, that DEC_LOC finds in a payload when RESP_LEN(GET_LOCATION) is not
the default 8. Log entry 14. -/
opaque otherLocation : List Byte → Nat → Byte

/-- FREE VALUE. The eight time bytes, by index, that DEC_TIME finds in a payload when RESP_LEN(GET_TIME) is not the
default 8. Log entry 14. -/
opaque otherTime : List Byte → Nat → Byte

end Config

end Sys2Proof
end

