-- ==== Sys2Proof/Machine/Numeric.lean ====
section
/-! DEFINITION. The numeric primitives of `00_scope.md` R10 and R11: binary64 patterns and their exact values, rounding
to an integer and to a binary64 value, and the hex and decimal texts. A finite binary64 magnitude is held as a natural
number of units of 2^-1074, the smallest positive binary64 value: every finite magnitude is a whole number of them. -/

namespace Sys2Proof.Machine

/-- How many of the units make 1: 2^1074, as a power of a power, so that no exponent is too large to be evaluated. -/
def unitsPerOne : Nat := (2 ^ 179) ^ 6

/-- The exponent field of a binary64 pattern. -/
def expField (x : Word64) : Nat := (x.extractLsb' 52 11).toNat

/-- The fraction field of a binary64 pattern. -/
def fracField (x : Word64) : Nat := (x.extractLsb' 0 52).toNat

/-- The sign bit of a binary64 pattern. -/
def signBit (x : Word64) : Bool := x.getLsbD 63

/-- `finite(x)` (`00_scope.md` R10): neither an infinity nor a NaN. -/
def isFinite (x : Word64) : Bool := expField x != 2047

/-- |val(x)| in units of 2^-1074, for a finite x (`00_scope.md` R10). -/
def magUnits (x : Word64) : Nat :=
  if expField x = 0 then fracField x else (2 ^ 52 + fracField x) * 2 ^ (expField x - 1)

/-- val(x) < 0 (`00_scope.md` R10); −0.0 is not below 0. -/
def isNegative (x : Word64) : Bool := signBit x && magUnits x != 0

/-- finite(x) and 0 <= val(x) < 360: the precondition of the quantizer (`40_transform.md` R130). -/
def inCircle (x : Word64) : Bool := isFinite x && !isNegative x && decide (magUnits x < 360 * unitsPerOne)

/-- `RNE(num / den)` (`00_scope.md` R10): the nearest integer, ties to the even one. -/
def rne (num den : Nat) : Nat :=
  if 2 * (num % den) < den then num / den
  else if den < 2 * (num % den) then num / den + 1
  else num / den + (num / den) % 2

/-- `fl64(num / den)` (`00_scope.md` R10) in units of 2^-1074: 53 significant bits, ties to even, and never finer than
one unit. There is no upper bound on the exponent: log entry 13. -/
def fl64Units (num den : Nat) : Nat :=
  let sh := Nat.log2 (num * unitsPerOne / den) - 52
  rne (num * unitsPerOne) (den * 2 ^ sh) * 2 ^ sh

/-- The binary64 pattern of a magnitude of `u` units, for a `u` with at most 53 significant bits and a sign. -/
def patternOf (neg : Bool) (u : Nat) : Word64 :=
  let sh := Nat.log2 u - 52
  BitVec.ofNat 64 ((if neg then 2 ^ 63 else 0) + sh * 2 ^ 52 + u / 2 ^ sh)

/-- The ASCII character of a hex digit, uppercase (`00_scope.md` R10, HEX_CASE_OUT of R6). -/
def hexChar (d : Nat) : Byte := BitVec.ofNat 8 (if d < 10 then 0x30 + d else 0x37 + d)

/-- The `d` lowest digits of `v` in a base, most significant first. -/
def digitsN (base v : Nat) : Nat → List Nat
  | 0 => []
  | d + 1 => digitsN base (v / base) d ++ [v % base]

/-- `hexN(v, d)` (`00_scope.md` R10). -/
def hexN (v d : Nat) : List Byte := (digitsN 16 v d).map hexChar

/-- How many decimal digits the shortest text of `v` has, for a `v` below 10^(fuel+1). -/
def decDigitCount : Nat → Nat → Nat
  | 0, _ => 1
  | fuel + 1, v => if v < 10 then 1 else decDigitCount fuel (v / 10) + 1

/-- `decN(v, d)` (`00_scope.md` R10): for d = 0 the shortest text, of at most 20 digits since v < 2^64. -/
def decN (v d : Nat) : List Byte :=
  (digitsN 10 v (if d = 0 then decDigitCount 20 v else d)).map hexChar

/-- The value of one ASCII hex digit, of either case (`42_response_framer.md` R221). -/
def hexDigitVal (b : Byte) : Option Nat :=
  if 0x30 ≤ b.toNat ∧ b.toNat ≤ 0x39 then some (b.toNat - 0x30)
  else if 0x41 ≤ b.toNat ∧ b.toNat ≤ 0x46 then some (b.toNat - 0x37)
  else if 0x61 ≤ b.toNat ∧ b.toNat ≤ 0x66 then some (b.toNat - 0x57)
  else none

/-- `HexVal`, with `acc` the value of the digits already read. -/
def hexValFrom (acc : Nat) : List Byte → Option Nat
  | [] => some acc
  | b :: bs =>
    match hexDigitVal b with
    | none => none
    | some d => hexValFrom (acc * 16 + d) bs

/-- `HexVal(s)` (`42_response_framer.md` R221): `none` where a byte is no hex digit. -/
def hexVal (bs : List Byte) : Option Nat := hexValFrom 0 bs

/-- A binary integer of `w` bytes, most significant byte first (`20_memory.md` R71). -/
def bigEndian (v : Nat) : Nat → List Byte
  | 0 => []
  | w + 1 => bigEndian (v / 256) w ++ [BitVec.ofNat 8 v]

end Sys2Proof.Machine
end

