-- ==== Sys2Proof/Syntax.lean ====
section
/-! DEFINITION. The syntax of NXPE: one constructor of `Instr` per row of `spec/opcode_table.json`. Three formats: OPW
operations, which the host starts by a write of OPW (`30_encoding.md` R92); WIRE bytes, which open a request on the TX
stream (R100); PTSUB bytes, the sub-command code of a passthrough frame (R105). -/

namespace Sys2Proof

/-- PrecisionMode (`00_scope.md` R13), the P bit of OPW (`30_encoding.md` R90). -/
inductive Precision where
  /-- P = 0: 16-bit codes, 4 hex digits per axis. -/
  | standard
  /-- P = 1: 32-bit codes, 8 hex digits per axis. -/
  | high
deriving DecidableEq, Repr

/-- CoordinateMode (`00_scope.md` R13), the M bit of OPW (`30_encoding.md` R90). -/
inductive CoordMode where
  /-- M = 0. -/
  | raDec
  /-- M = 1. -/
  | azmAlt
deriving DecidableEq, Repr

/-- Why an operation word names no operation (`30_encoding.md` R93, `60_exceptions.md` R283). -/
inductive IllegalDetail where
  /-- FUNC is not in the map of R92. -/
  | rsvdFunc
  /-- OPW[15:10] is not 0. -/
  | rsvdBits
  /-- A field the operation does not use is not 0. -/
  | unusedField
deriving DecidableEq, Repr

/-- One constructor per row of `spec/opcode_table.json`. -/
inductive Instr where
  /-- QNT (FUNC 10H, `40_transform.md` R131): quantize degrees to a fixed-point angle code. -/
  | qnt (p : Precision)
  /-- DQNT (FUNC 11H, `40_transform.md` R133): dequantize a fixed-point angle code to degrees. -/
  | dqnt (p : Precision)
  /-- DMSENC (FUNC 20H, `40_transform.md` R136): encode signed seconds as a packed DMS word. -/
  | dmsenc
  /-- DMSDEC (FUNC 21H, `40_transform.md` R138): decode a packed DMS word to signed seconds. -/
  | dmsdec
  /-- DEG2SEC (FUNC 22H, `40_transform.md` R139): convert binary64 degrees to integer seconds. -/
  | deg2sec
  /-- SEC2DEG (FUNC 23H, `40_transform.md` R140): convert integer seconds to binary64 degrees. -/
  | sec2deg
  /-- FB_CLEAR (FUNC 30H, `41_command_builder.md` R161): start an empty frame. -/
  | fbClear
  /-- FB_BYTE (FUNC 31H, `41_command_builder.md` R162): append one raw byte. -/
  | fbByte (byte : Byte)
  /-- FB_UINT (FUNC 32H, `41_command_builder.md` R163): append a big-endian binary integer of `width` bytes. -/
  | fbUint (width : Byte)
  /-- FB_HEX (FUNC 33H, `41_command_builder.md` R164): append `digits` hex digits. -/
  | fbHex (digits : Byte)
  /-- FB_DEC (FUNC 34H, `41_command_builder.md` R165): append `digits` decimal digits, or the shortest form for 0. -/
  | fbDec (digits : Byte)
  /-- CB_GETPOS (FUNC 40H, `41_command_builder.md` R168): build a get-position request. -/
  | cbGetpos (p : Precision) (m : CoordMode)
  /-- CB_GOTO (FUNC 41H, `41_command_builder.md` R169): build a goto-position request. -/
  | cbGoto (p : Precision) (m : CoordMode)
  /-- CB_SYNC (FUNC 42H, `41_command_builder.md` R170): build a sync request. -/
  | cbSync (p : Precision)
  /-- CB_GETTRK (FUNC 43H, `41_command_builder.md` R171): build a get-tracking-mode request. -/
  | cbGettrk
  /-- CB_SETTRK (FUNC 44H, `41_command_builder.md` R172): build a set-tracking-mode request. -/
  | cbSettrk (mode : Byte)
  /-- CB_GETLOC (FUNC 45H, `41_command_builder.md` R173): build a get-location request. -/
  | cbGetloc
  /-- CB_SETLOC (FUNC 46H, `41_command_builder.md` R174): build a set-location request. -/
  | cbSetloc
  /-- CB_GETTIME (FUNC 47H, `41_command_builder.md` R175): build a get-time request. -/
  | cbGettime
  /-- CB_SETTIME (FUNC 48H, `41_command_builder.md` R176): build a set-time request. -/
  | cbSettime (dst : Byte)
  /-- CB_GETVER (FUNC 49H, `41_command_builder.md` R177): build a get-version request. -/
  | cbGetver
  /-- CB_GETMODEL (FUNC 4AH, `41_command_builder.md` R178): build a get-model request. -/
  | cbGetmodel
  /-- CB_ECHO (FUNC 4BH, `41_command_builder.md` R179): build an echo request. -/
  | cbEcho (byte : Byte)
  /-- CB_GETALIGN (FUNC 4CH, `41_command_builder.md` R180): build a get-alignment-complete request. -/
  | cbGetalign
  /-- CB_GETGOTO (FUNC 4DH, `41_command_builder.md` R181): build a get-goto-in-progress request. -/
  | cbGetgoto
  /-- CB_CANCEL (FUNC 4EH, `41_command_builder.md` R182): build a cancel-goto request. -/
  | cbCancel
  /-- PT_BUILD (FUNC 50H, `43_passthrough.md` R251): build a generic passthrough frame. -/
  | ptBuild (device : Byte) (count : Byte)
  /-- PT_SLEWFIX (FUNC 51H, `43_passthrough.md` R253): build a fixed-rate slew frame. -/
  | ptSlewfix (device : Byte)
  /-- PT_SLEWVAR (FUNC 52H, `43_passthrough.md` R254): build a variable-rate slew frame. -/
  | ptSlewvar (device : Byte)
  /-- PT_GETDEVVER (FUNC 53H, `43_passthrough.md` R255): build a get-device-version frame. -/
  | ptGetdevver (device : Byte)
  /-- SEND (FUNC 60H, `42_response_framer.md` R210): transmit the request frame. -/
  | send
  /-- RECV (FUNC 61H, `42_response_framer.md` R212): read and frame one response. -/
  | recv
  /-- PT_RECV (FUNC 62H, `43_passthrough.md` R256): read a passthrough reply, with one recovery byte. -/
  | ptRecv
  /-- DEC_POS (FUNC 70H, `42_response_framer.md` R222): decode a get-position reply. -/
  | decPos (p : Precision)
  /-- DEC_TRK (FUNC 71H, `42_response_framer.md` R223): decode a get-tracking-mode reply. -/
  | decTrk
  /-- DEC_LOC (FUNC 72H, `42_response_framer.md` R224): decode a get-location reply. -/
  | decLoc
  /-- DEC_TIME (FUNC 73H, `42_response_framer.md` R225): decode a get-time reply. -/
  | decTime
  /-- DEC_ECHO (FUNC 74H, `42_response_framer.md` R226): check an echo reply. -/
  | decEcho
  /-- DEC_ALIGN (FUNC 75H, `42_response_framer.md` R227): decode a get-alignment-complete reply. -/
  | decAlign
  /-- DEC_GOTO (FUNC 76H, `42_response_framer.md` R228): decode a get-goto-in-progress reply. -/
  | decGoto
  /-- WIRE.GET_POSITION_RA_DEC (byte 45H, ASCII E; `30_encoding.md` R100, `41_command_builder.md` R168): opens a request on the TX stream. -/
  | wireGetPositionRaDec
  /-- WIRE.GET_POSITION_RA_DEC_PRECISE (byte 65H, ASCII e; `30_encoding.md` R100, `41_command_builder.md` R168): opens a request on the TX stream. -/
  | wireGetPositionRaDecPrecise
  /-- WIRE.GET_POSITION_AZM_ALT (byte 5AH, ASCII Z; `30_encoding.md` R100, `41_command_builder.md` R168): opens a request on the TX stream. -/
  | wireGetPositionAzmAlt
  /-- WIRE.GET_POSITION_AZM_ALT_PRECISE (byte 7AH, ASCII z; `30_encoding.md` R100, `41_command_builder.md` R168): opens a request on the TX stream. -/
  | wireGetPositionAzmAltPrecise
  /-- WIRE.GOTO_POSITION_RA_DEC.STANDARD (byte 52H, ASCII R; `30_encoding.md` R100, `41_command_builder.md` R169): opens a request on the TX stream. -/
  | wireGotoPositionRaDec
  /-- WIRE.GOTO_POSITION_RA_DEC.PRECISE (byte 72H, ASCII r; `30_encoding.md` R100, `41_command_builder.md` R169): opens a request on the TX stream. -/
  | wireGotoPositionRaDecPrecise
  /-- WIRE.GOTO_POSITION_AZM_ALT.STANDARD (byte 42H, ASCII B; `30_encoding.md` R100, `41_command_builder.md` R169): opens a request on the TX stream. -/
  | wireGotoPositionAzmAlt
  /-- WIRE.GOTO_POSITION_AZM_ALT.PRECISE (byte 62H, ASCII b; `30_encoding.md` R100, `41_command_builder.md` R169): opens a request on the TX stream. -/
  | wireGotoPositionAzmAltPrecise
  /-- WIRE.SYNC.STANDARD (byte 53H, ASCII S; `30_encoding.md` R100, `41_command_builder.md` R170): opens a request on the TX stream. -/
  | wireSync
  /-- WIRE.SYNC.PRECISE (byte 73H, ASCII s; `30_encoding.md` R100, `41_command_builder.md` R170): opens a request on the TX stream. -/
  | wireSyncPrecise
  /-- WIRE.GET_TRACKING_MODE (byte 74H, ASCII t; `30_encoding.md` R100, `41_command_builder.md` R171): opens a request on the TX stream. -/
  | wireGetTrackingMode
  /-- WIRE.SET_TRACKING_MODE (byte 54H, ASCII T; `30_encoding.md` R100, `41_command_builder.md` R172): opens a request on the TX stream. -/
  | wireSetTrackingMode
  /-- WIRE.GET_LOCATION (byte 77H, ASCII w; `30_encoding.md` R100, `41_command_builder.md` R173): opens a request on the TX stream. -/
  | wireGetLocation
  /-- WIRE.SET_LOCATION (byte 57H, ASCII W; `30_encoding.md` R100, `41_command_builder.md` R174): opens a request on the TX stream. -/
  | wireSetLocation
  /-- WIRE.GET_TIME (byte 68H, ASCII h; `30_encoding.md` R100, `41_command_builder.md` R175): opens a request on the TX stream. -/
  | wireGetTime
  /-- WIRE.SET_TIME (byte 48H, ASCII H; `30_encoding.md` R100, `41_command_builder.md` R176): opens a request on the TX stream. -/
  | wireSetTime
  /-- WIRE.GET_VERSION (byte 56H, ASCII V; `30_encoding.md` R100, `41_command_builder.md` R177): opens a request on the TX stream. -/
  | wireGetVersion
  /-- WIRE.GET_MODEL (byte 6DH, ASCII m; `30_encoding.md` R100, `41_command_builder.md` R178): opens a request on the TX stream. -/
  | wireGetModel
  /-- WIRE.ECHO (byte 4BH, ASCII K; `30_encoding.md` R100, `41_command_builder.md` R179): opens a request on the TX stream. -/
  | wireEcho
  /-- WIRE.GET_ALIGNMENT_COMPLETE (byte 4AH, ASCII J; `30_encoding.md` R100, `41_command_builder.md` R180): opens a request on the TX stream. -/
  | wireGetAlignmentComplete
  /-- WIRE.GET_GOTO_IN_PROGRESS (byte 4CH, ASCII L; `30_encoding.md` R100, `41_command_builder.md` R181): opens a request on the TX stream. -/
  | wireGetGotoInProgress
  /-- WIRE.CANCEL_GOTO (byte 4DH, ASCII M; `30_encoding.md` R100, `41_command_builder.md` R182): opens a request on the TX stream. -/
  | wireCancelGoto
  /-- WIRE.PASSTHROUGH (byte 50H, ASCII P; `30_encoding.md` R100, `43_passthrough.md` R251): opens a request on the TX stream. -/
  | wirePassthrough
  /-- PTSUB.SLEW_VAR_POS (byte 06H; `30_encoding.md` R105, `43_passthrough.md` R254): byte 3 of a passthrough frame. -/
  | ptsubSlewVarPos
  /-- PTSUB.SLEW_VAR_NEG (byte 07H; `30_encoding.md` R105, `43_passthrough.md` R254): byte 3 of a passthrough frame. -/
  | ptsubSlewVarNeg
  /-- PTSUB.SLEW_FIX_POS (byte 24H; `30_encoding.md` R105, `43_passthrough.md` R253): byte 3 of a passthrough frame. -/
  | ptsubSlewFixPos
  /-- PTSUB.SLEW_FIX_NEG (byte 25H; `30_encoding.md` R105, `43_passthrough.md` R253): byte 3 of a passthrough frame. -/
  | ptsubSlewFixNeg
  /-- PTSUB.GET_DEVICE_VERSION (byte FEH; `30_encoding.md` R105, `43_passthrough.md` R255): byte 3 of a passthrough frame. -/
  | ptsubGetDeviceVersion
deriving DecidableEq, Repr

end Sys2Proof
end

