-- ==== Sys2Proof/Machine/Operands.lean ====
section
/-! DEFINITION. The operand forms of the operations (`10_state.md` R21): code widths, angle codes and texts, DMS
triples and words (R30), time words (R31), sub-command bytes, UTC offsets and slew rates. -/

namespace Sys2Proof.Machine

/-- n, the width of an angle code (`00_scope.md` R6). -/
def codeBits : Precision → Nat
  | .standard => 16
  | .high => 32

/-- d, the hex digits per axis (`00_scope.md` R6). -/
def hexDigits : Precision → Nat
  | .standard => 4
  | .high => 8

/-- `round_ARITH(val / 360 * 2^n)` for a magnitude of `u` units (`00_scope.md` R11, `40_transform.md` R130). -/
def roundAngle (ar : Arith) (n u : Nat) : Nat :=
  match ar with
  | .exact => rne (u * 2 ^ n) (360 * unitsPerOne)
  | .binary64 => rne (fl64Units (fl64Units u (360 * unitsPerOne) * 2 ^ n) unitsPerOne) unitsPerOne

/-- `Q_n(x)` (`40_transform.md` R130) for an x of the circle: the top half-step saturates to 2^n - 1. -/
def quantize (ar : Arith) (n : Nat) (x : Word64) : Nat :=
  if roundAngle ar n (magUnits x) = 2 ^ n then 2 ^ n - 1 else roundAngle ar n (magUnits x)

/-- `D_n(c)` (`40_transform.md` R132) as a binary64 pattern. -/
def dequantize (n c : Nat) : Word64 := patternOf false (fl64Units (360 * c) (2 ^ n))

/-- `AngleText(x, P)` (`41_command_builder.md` R167). -/
def angleText (ar : Arith) (x : Word64) (p : Precision) : List Byte := hexN (quantize ar (codeBits p) x) (hexDigits p)

/-- `AnglePair(x, y, P)` (`41_command_builder.md` R167). -/
def anglePair (ar : Arith) (x y : Word64) (p : Precision) : List Byte :=
  angleText ar x p ++ [Config.comma] ++ angleText ar y p

/-- `round_ARITH(|val| * 3600)` for a magnitude of `u` units (`40_transform.md` R139). -/
def roundSeconds (ar : Arith) (u : Nat) : Nat :=
  match ar with
  | .exact => rne (u * 3600) unitsPerOne
  | .binary64 => rne (fl64Units (u * 3600) unitsPerOne) unitsPerOne

/-- `round_ARITH(|val| * 3600 * 4)` for a magnitude of `u` units (`43_passthrough.md` R254). -/
def roundRate (ar : Arith) (u : Nat) : Nat :=
  match ar with
  | .exact => rne (u * 3600 * 4) unitsPerOne
  | .binary64 => rne (fl64Units (fl64Units (u * 3600) unitsPerOne * 4) unitsPerOne) unitsPerOne

/-- A sign and a degree, minute, second triple (`40_transform.md` R135). -/
structure Dms where
  /-- Negative. -/
  neg : Bool
  deg : Nat
  min : Nat
  sec : Nat
deriving DecidableEq, Repr

/-- `S2DMS(s)` (`40_transform.md` R135). -/
def secondsToDms (s : Int) : Dms :=
  { neg := decide (s < 0)
    deg := s.natAbs / 3600
    min := s.natAbs % 3600 / 60
    sec := s.natAbs % 3600 % 60 }

/-- `DMS2S` (`40_transform.md` R137). -/
def dmsToSeconds (d : Dms) : Int :=
  if d.neg then -((d.deg * 3600 + d.min * 60 + d.sec : Nat) : Int) else ((d.deg * 3600 + d.min * 60 + d.sec : Nat) : Int)

/-- The packed DMS word of a triple whose fields fit (`10_state.md` R30). -/
def packDms (d : Dms) : Word64 :=
  BitVec.ofNat 64 ((if d.neg then 2 ^ 24 else 0) + d.deg * 2 ^ 16 + d.min * 2 ^ 8 + d.sec)

/-- The triple of a packed DMS word: only bits 24, 23:16, 13:8 and 5:0 are read (`10_state.md` R30). -/
def unpackDms (w : Word64) : Dms :=
  { neg := w.getLsbD 24
    deg := (w.extractLsb' 16 8).toNat
    min := (w.extractLsb' 8 6).toNat
    sec := (w.extractLsb' 0 6).toNat }

/-- The minute and second of a DMS word are at most 59 (`41_command_builder.md` R174). -/
def dmsFieldsOk (w : Word64) : Bool := decide ((unpackDms w).min ≤ 59 ∧ (unpackDms w).sec ≤ 59)

/-- The four location bytes of a DMS word: degrees, minutes, seconds, sign (`41_command_builder.md` R174). -/
def locationBytes (w : Word64) : List Byte :=
  [w.extractLsb' 16 8, (w.extractLsb' 8 6).zeroExtend 8, (w.extractLsb' 0 6).zeroExtend 8, (w.extractLsb' 24 1).zeroExtend 8]

/-- Byte `i` of a 64-bit operand, bits 8i+7 to 8i. -/
def byteOf (v : Word64) (i : Nat) : Byte := v.extractLsb' (8 * i) 8

/-- The six bytes of a time word in wire order: hour, minute, second, month, day, year (`10_state.md` R31). -/
def timeBytes (w : Word64) : List Byte := [byteOf w 0, byteOf w 1, byteOf w 2, byteOf w 3, byteOf w 4, byteOf w 5]

/-- `MotorCheck` (`43_passthrough.md` R252). -/
def isMotor (dev : Byte) : Bool := dev == Config.azmRaMotor || dev == Config.altDecMotor

/-- `PTFrame(L, dev, body, R)` (`43_passthrough.md` R250, `30_encoding.md` R104): the body is zero-padded to 4 bytes. -/
def ptFrame (len : Nat) (dev : Byte) (body : List Byte) (r : Byte) : List Byte :=
  [0x50, BitVec.ofNat 8 len, dev, body.getD 0 0, body.getD 1 0, body.getD 2 0, body.getD 3 0, r]

/-- The first `len` sub-command bytes of OPA (`43_passthrough.md` R251). -/
def subBody (a : Word64) (len : Nat) : List Byte := [byteOf a 0, byteOf a 1, byteOf a 2, byteOf a 3].take len

end Sys2Proof.Machine
end

