-- ==== Sys2Proof/Machine/State.lean ====
section
/-! DEFINITION. The state of NXPE, every piece the spec gives it (`10_state.md` R20), with the parameters of
`00_scope.md` R6 and the agents' moves still to come; the reasons a step can stop; the state after reset. -/

namespace Sys2Proof.Machine

/-- The details of a USAGE error (`60_exceptions.md` R283). -/
inductive UsageDetail where
  | angleRange | codeRange | dmsRange | valueRange | badWidth | txOverflow | txEmpty | badDevice
  | badRate | badSublen | badMode | badOffset | noFrame | badDmsField | badFlag
deriving DecidableEq, Repr

/-- The details of a PROTOCOL error (`60_exceptions.md` R283). -/
inductive ProtocolDetail where
  | short | badTerm | echoMismatch | badPayload
deriving DecidableEq, Repr

/-- The error of an operation: a kind and a detail within it, exactly the pairs of `60_exceptions.md` R283. -/
inductive OpError where
  | usage (d : UsageDetail)
  | protocol (d : ProtocolDetail)
  /-- PASSTHROUGH(NO_ANSWER), the only PASSTHROUGH pair. -/
  | noAnswer
  | illegal (d : IllegalDetail)
deriving DecidableEq, Repr

/-- The two failure modes of the framing contract (`42_response_framer.md` R211). -/
inductive FrameFail where
  /-- Fewer than N+1 bytes arrived within the attempt. -/
  | short
  /-- N+1 bytes arrived and the last is not the terminator. -/
  | badTerm
deriving DecidableEq, Repr

/-- XFER (`10_state.md` R25): the lengths of the last framing read. -/
structure Xfer where
  expLen : BitVec 9
  actLen : BitVec 9
deriving DecidableEq, Repr

/-- XBYTE (`10_state.md` R26): the terminator diagnostics of the last framing read. -/
structure Xbyte where
  last : Byte
  recByte : Byte
  recGot : Bool
deriving DecidableEq, Repr

/-- The operands latched when an operation is accepted (`10_state.md` R40). -/
structure Latch where
  /-- OPA. -/
  a : Word64
  /-- OPB. -/
  b : Word64
  /-- EXPLEN[7:0]. -/
  e : Byte
  /-- TIMEOUT. -/
  t : Word32
deriving DecidableEq, Repr

/-- The latched link operation and how far it has come (`10_state.md` R40). A timer holds the milliseconds its attempt
started with (`60_exceptions.md` R300). -/
inductive Activity where
  /-- SEND, with the index of the next byte to emit. -/
  | send (i : Nat)
  /-- RECV, with the count of bytes received. -/
  | recv (k : Nat) (timer : Word32)
  /-- Phase 1 of PT_RECV, with the count of bytes received. -/
  | ptRecv (k : Nat) (timer : Word32)
  /-- The recovery read of PT_RECV, with the failure of phase 1 (`43_passthrough.md` R256). -/
  | ptRecovery (o1 : FrameFail) (timer : Word32)
deriving DecidableEq, Repr

/-- The engine's in-flight state, present only while STATUS.BUSY = 1 (`10_state.md` R40). -/
structure InFlight where
  latch : Latch
  activity : Activity
deriving DecidableEq, Repr

/-- A sub-command that the receiver has recognised: its code and its body's length L (`30_encoding.md` R105). -/
structure SubCommand where
  code : Byte
  len : Nat
deriving DecidableEq, Repr

/-- The TX sink (`10_state.md` R42) and, beside the bytes it has taken, what a receiver that finds request boundaries
from the opcode alone knows of them (`30_encoding.md` R106). The last four fields are the model's. Log entry 4. -/
structure TxSink where
  /-- The TX stream: every byte taken, the first one first (`20_memory.md` R70, R80). -/
  stream : List Byte
  /-- The bytes so far of the last request whose opcode byte was taken. -/
  request : List Byte
  /-- How many bytes of that request are still to come; 0 is a request boundary. -/
  left : Nat
  /-- The payload length of the reply that the request calls for, once it is known. -/
  reply : Option Byte
  /-- The sub-command of a passthrough request, once its code byte was taken. -/
  sub : Option SubCommand
deriving DecidableEq, Repr

/-- The width of a host access (`20_memory.md` R61). -/
inductive AccessSize where
  | byte | halfword | word
deriving DecidableEq, Repr

/-- One move of an agent (`00_scope.md` R7), or of the reset line. -/
inductive Event where
  /-- The host reads. -/
  | hostRead (size : AccessSize) (off : BitVec 12)
  /-- The host writes. -/
  | hostWrite (size : AccessSize) (off : BitVec 12) (v : Word32)
  /-- The engine takes its next step on the RX side. -/
  | engine
  /-- The TX sink takes the byte that SEND offers (`00_scope.md` R9, TX_emit). -/
  | txTake
  /-- The RX source appends bytes (`10_state.md` R41). -/
  | rxAppend (bytes : List Byte)
  /-- The timeout source ends the current attempt (`60_exceptions.md` R301). -/
  | timeout
  /-- Reset is asserted (`70_reset_and_hazards.md` R320). -/
  | reset
deriving DecidableEq, Repr

/-- The bytes of TXBUF and RXBUF, keyed by their register offset (`20_memory.md` R62): addresses strictly rising, no
entry equal to what an unlisted address reads as (0, their reset contents: `10_state.md` R27, R29). -/
abbrev Memory := List Host.Cell

/-- The registers that a link operation writes as it goes (`20_memory.md` R74), but for STATUS.BUSY, DONE, ERR, DETAIL
and RECOV, which change when BUSY does. -/
structure LinkRegs where
  /-- RXBUF, with TXBUF beside it. -/
  mem : Memory
  /-- RXLEN. -/
  rxlen : Byte
  /-- STATUS.RXVALID. -/
  rxvalid : Bool
  /-- XFER. -/
  xfer : Xfer
  /-- XBYTE. -/
  xbyte : Xbyte
deriving DecidableEq, Repr

/-- The state of NXPE. -/
structure State where
  /-- OPW (`10_state.md` R23): the last accepted operation word. -/
  opw : Word32
  /-- OPA (`10_state.md` R21). -/
  opa : Word64
  /-- OPB (`10_state.md` R21). -/
  opb : Word64
  /-- RES0 (`10_state.md` R22). -/
  res0 : Word64
  /-- RES1 (`10_state.md` R22). -/
  res1 : Word64
  /-- RES2 (`10_state.md` R22). -/
  res2 : Word64
  /-- RES3 (`10_state.md` R22). -/
  res3 : Word64
  /-- STATUS.DONE (`10_state.md` R24). -/
  done : Bool
  /-- STATUS.COLL (`10_state.md` R24). -/
  coll : Bool
  /-- STATUS.RXVALID (`10_state.md` R24, R33). -/
  rxvalid : Bool
  /-- STATUS.ERR and STATUS.DETAIL; `none` is NONE (`10_state.md` R24, `60_exceptions.md` R283). -/
  error : Option OpError
  /-- STATUS.RECOV (`10_state.md` R24). -/
  recov : Bool
  /-- XFER (`10_state.md` R25). -/
  xfer : Xfer
  /-- XBYTE (`10_state.md` R26). -/
  xbyte : Xbyte
  /-- TXLEN, its used bits 5:0 (`10_state.md` R27). -/
  txlen : BitVec 6
  /-- EXPLEN, its bits 7:0 (`10_state.md` R28). -/
  explen : Byte
  /-- RXLEN, its used bits 7:0 (`10_state.md` R29). -/
  rxlen : Byte
  /-- ECHOREF, its bits 7:0 (`10_state.md` R32). -/
  echoref : Byte
  /-- TIMEOUT, in milliseconds (`10_state.md` R34). -/
  timeout : Word32
  /-- TXBUF and RXBUF (`10_state.md` R27, R29). -/
  mem : Memory
  /-- The in-flight operation; present exactly while STATUS.BUSY = 1 (`10_state.md` R24, R40). Log entry 9. -/
  inflight : Option InFlight
  /-- The RX stream, its head first (`10_state.md` R41). -/
  rx : List Byte
  /-- The TX sink (`10_state.md` R42). -/
  sink : TxSink
  /-- The OPEN parameters (`00_scope.md` R6); nothing writes them. Log entry 1. -/
  params : Params
  /-- The agents' moves still to come, the next one first. Log entry 2. -/
  events : List Event
  /-- The word that the last host read returned (`20_memory.md` R61). Log entry 15. -/
  busData : Option Word32
  /-- The old values of a read while BUSY = 1: the registers that the link operation in flight writes, as they stood when
  it was accepted (`20_memory.md` R74). Meaningless while BUSY = 0. Log entry 7. -/
  before : LinkRegs
  /-- How many writes and engine steps there have been: the argument of the free choice of a read while BUSY = 1
  (`20_memory.md` R74). Log entry 7. -/
  freeCount : Nat
deriving DecidableEq, Repr

/-- Why the machine stops. NXPE has no trap (`60_exceptions.md` R285), so no instruction of a run from reset faults. -/
inductive Fault where
  /-- Raised by SEND when TXLEN is above 32, so that the byte it must emit is past TXBUF[31] and does not exist
  (`10_state.md` R27). No state that a run reaches raises it. Safe. Log entry 12. -/
  | noSuchByte
deriving DecidableEq, Repr

/-- What has no meaning. -/
inductive Refusal where
  /-- Raised by `exec` for an instruction that has no meaning yet. Safe. -/
  | notModelled (mnemonic : String)
  /-- Raised by a host access that is not an aligned 32-bit word: outside the interface, with no value and no effect
  (`20_memory.md` R61, `93_implementation_defined.md` I15). Safe. -/
  | outsideInterface
deriving DecidableEq, Repr

/-- The machine right after reset (`70_reset_and_hazards.md` R320, `10_state.md` R43). The streams, the parameters and
the pending moves are not NXPE's own: log entries 1, 2 and 16. -/
def State.reset : State :=
  { opw := 0, opa := 0, opb := 0, res0 := 0, res1 := 0, res2 := 0, res3 := 0
    done := false, coll := false, rxvalid := false, error := none, recov := false
    xfer := { expLen := 0, actLen := 0 }
    xbyte := { last := 0, recByte := 0, recGot := false }
    txlen := 0, explen := 0, rxlen := 0, echoref := 0, timeout := 1000
    mem := []
    inflight := none
    rx := []
    sink := { stream := [], request := [], left := 0, reply := none, sub := none }
    params := Params.recommended
    events := []
    busData := none
    before :=
      { mem := [], rxlen := 0, rxvalid := false, xfer := { expLen := 0, actLen := 0 }
        xbyte := { last := 0, recByte := 0, recGot := false } }
    freeCount := 0 }

end Sys2Proof.Machine
end

