-- ==== Sys2Proof/Machine/Ops.lean ====
section
/-! DEFINITION. The named operations over memory and registers: the bytes of the buffers, accepting an operation
(`30_encoding.md` R95), completing it, raising an error (`60_exceptions.md` R285, NXPE's closest thing to a trap), and
the two ways a frame enters TXBUF (`41_command_builder.md` R160, R166). -/

namespace Sys2Proof.Machine

/-- What a buffer byte that nothing has written reads as: the reset contents (`10_state.md` R27, R29). -/
def Memory.unlisted : Byte := 0

/-- One byte of the buffers, by register offset. -/
def Memory.read : Memory → Nat → Byte
  | [], _ => Memory.unlisted
  | (k, b) :: rest, a => if k = a then b else Memory.read rest a

/-- Write one byte and keep the canonical form: writing what an unlisted address reads as removes the entry. -/
def Memory.write : Memory → Nat → Byte → Memory
  | [], a, v => if v = Memory.unlisted then [] else [(a, v)]
  | (k, b) :: rest, a, v =>
    if a < k then (if v = Memory.unlisted then (k, b) :: rest else (a, v) :: (k, b) :: rest)
    else if a = k then (if v = Memory.unlisted then rest else (a, v) :: rest)
    else (k, b) :: Memory.write rest a v

/-- Write bytes at consecutive addresses, the first one at `a`. -/
def Memory.writeList (m : Memory) (a : Nat) : List Byte → Memory
  | [] => m
  | v :: vs => Memory.writeList (Memory.write m a v) (a + 1) vs

/-- The canonical form, with every address at least `lo`. -/
def Memory.wfFrom : Nat → Memory → Bool
  | _, [] => true
  | lo, (k, b) :: rest => decide (lo ≤ k) && (b != Memory.unlisted) && Memory.wfFrom (k + 1) rest

/-- The canonical form: addresses strictly rising, no entry equal to what an unlisted address reads as. -/
def Memory.wf (m : Memory) : Bool := Memory.wfFrom 0 m

/-- A register offset that belongs to TXBUF or RXBUF (`20_memory.md` R62). -/
def isBufferAddr (a : Nat) : Bool :=
  decide (Config.txBase ≤ a ∧ a < Config.txBase + Config.txCap) ||
    decide (Config.rxBase ≤ a ∧ a < Config.rxBase + Config.rxCap)

/-- Every byte the memory lists belongs to TXBUF or RXBUF. -/
def Memory.mapped (m : Memory) : Bool := m.all fun c => isBufferAddr c.1

/-- The register offset of TXBUF[i]. -/
def txAddr (i : Nat) : Nat := Config.txBase + i

/-- The register offset of RXBUF[i]. -/
def rxAddr (i : Nat) : Nat := Config.rxBase + i

/-- TXBUF[i]. -/
def State.txByte (s : State) (i : Nat) : Byte := s.mem.read (txAddr i)

/-- RXBUF[i]. -/
def State.rxByte (s : State) (i : Nat) : Byte := s.mem.read (rxAddr i)

/-- RXBUF[i .. i+n-1]. -/
def State.rxBytes (s : State) (i n : Nat) : List Byte := (List.range n).map fun j => s.rxByte (i + j)

/-- STATUS.BUSY (`10_state.md` R24): a link operation is in flight (R40). -/
def State.busy (s : State) : Bool := s.inflight.isSome

/-- `raise K(d)` (`60_exceptions.md` R285): the operation ends with an error. ERR, DETAIL and DONE are written, BUSY is
cleared; nothing is saved and control goes nowhere. -/
def raise (e : OpError) (s : State) : State :=
  { s with error := some e, inflight := none, done := true }

/-- Normal completion (`30_encoding.md` R95): BUSY <- 0, DONE <- 1, ERR stays as it is. -/
def complete (s : State) : State := { s with inflight := none, done := true }

/-- The end of an atomic operation (`30_encoding.md` R97): it completes with the state it made, or raises an error and
has written nothing else (`60_exceptions.md` R286). -/
def finish (s : State) (r : Except OpError State) : Host.Outcome State Fault Refusal :=
  match r with
  | .ok t => .next (complete t)
  | .error e => .next (raise e s)

/-- What acceptance clears and captures (`30_encoding.md` R95), and so all that a return from an error takes
(`60_exceptions.md` R289). RXVALID and COLL are not cleared. -/
def accept (w : Word32) (s : State) : State :=
  { s with
    opw := w, done := false, error := none, recov := false
    xfer := { expLen := 0, actLen := 0 }
    xbyte := { last := 0, recByte := 0, recGot := false } }

/-- The operands as they stand when an operation is accepted (`10_state.md` R40). -/
def State.latched (s : State) : Latch := { a := s.opa, b := s.opb, e := s.explen, t := s.timeout }

/-- The registers that a link operation writes as it goes (`20_memory.md` R74), as they stand. -/
def State.linkRegs (s : State) : LinkRegs :=
  { mem := s.mem, rxlen := s.rxlen, rxvalid := s.rxvalid, xfer := s.xfer, xbyte := s.xbyte }

/-- `Append(bs)` (`41_command_builder.md` R160): the check comes before the first write. -/
def append (bs : List Byte) (s : State) : Except OpError State :=
  if Config.txCap < s.txlen.toNat + bs.length then .error (.usage .txOverflow)
  else .ok
    { s with
      mem := s.mem.writeList (txAddr s.txlen.toNat) bs
      txlen := BitVec.ofNat 6 (s.txlen.toNat + bs.length) }

/-- `Emit(frame, N)` (`41_command_builder.md` R166): the frame replaces what TXBUF held, and EXPLEN takes the length of
its reply. -/
def emit (frame : List Byte) (n : Byte) (s : State) : State :=
  { s with
    mem := s.mem.writeList (txAddr 0) frame
    txlen := BitVec.ofNat 6 frame.length
    explen := n }

end Sys2Proof.Machine
end

