-- ==== Sys2Proof/Machine/CommandBuilder.lean ====
section
/-! DEFINITION. The command builders (`41_command_builder.md` R166 to R182): each makes the whole request frame of one
wire command and sets EXPLEN to its reply's payload length. -/

namespace Sys2Proof.Machine

/-- The opcode byte of a get-position request (`41_command_builder.md` R168). -/
def getposOpcode : Precision → CoordMode → Byte
  | .standard, .raDec => 0x45
  | .high, .raDec => 0x65
  | .standard, .azmAlt => 0x5A
  | .high, .azmAlt => 0x7A

/-- The payload length of a get-position reply (`41_command_builder.md` R168). -/
def posReplyLen : Precision → Byte
  | .standard => 9
  | .high => 17

/-- The opcode byte of a goto-position request (`41_command_builder.md` R169). -/
def gotoOpcode : Precision → CoordMode → Byte
  | .standard, .raDec => 0x52
  | .high, .raDec => 0x72
  | .standard, .azmAlt => 0x42
  | .high, .azmAlt => 0x62

/-- The opcode byte of a sync request (`41_command_builder.md` R170). -/
def syncOpcode : Precision → Byte
  | .standard => 0x53
  | .high => 0x73

/-- CB_GETPOS (`41_command_builder.md` R168). -/
def execCbGetpos (p : Precision) (m : CoordMode) (s : State) : Host.Outcome State Fault Refusal :=
  finish s (.ok (emit [getposOpcode p m] (posReplyLen p) s))

/-- CB_GOTO (`41_command_builder.md` R169): OPA is checked first, and both checks come before any write. -/
def execCbGoto (p : Precision) (m : CoordMode) (s : State) : Host.Outcome State Fault Refusal :=
  finish s <|
    if !inCircle s.opa then .error (.usage .angleRange)
    else if !inCircle s.opb then .error (.usage .angleRange)
    else .ok (emit ([gotoOpcode p m] ++ anglePair s.params.arith s.opa s.opb p) 0 s)

/-- CB_SYNC (`41_command_builder.md` R170): the opcode byte is always emitted (`90_conflicts.md` C3). -/
def execCbSync (p : Precision) (s : State) : Host.Outcome State Fault Refusal :=
  finish s <|
    if !inCircle s.opa then .error (.usage .angleRange)
    else if !inCircle s.opb then .error (.usage .angleRange)
    else .ok (emit ([syncOpcode p] ++ anglePair s.params.arith s.opa s.opb p) s.params.respLen.sync s)

/-- CB_GETTRK (`41_command_builder.md` R171). -/
def execCbGettrk (s : State) : Host.Outcome State Fault Refusal :=
  finish s (.ok (emit [0x74] s.params.respLen.getTrackingMode s))

/-- CB_SETTRK (`41_command_builder.md` R172). -/
def execCbSettrk (mode : Byte) (s : State) : Host.Outcome State Fault Refusal :=
  finish s <|
    if 3 < mode.toNat then .error (.usage .badMode)
    else .ok (emit [0x54, mode] s.params.respLen.setTrackingMode s)

/-- CB_GETLOC (`41_command_builder.md` R173). -/
def execCbGetloc (s : State) : Host.Outcome State Fault Refusal :=
  finish s (.ok (emit [0x77] s.params.respLen.getLocation s))

/-- CB_SETLOC (`41_command_builder.md` R174): OPA is checked first; degrees are not bounded. -/
def execCbSetloc (s : State) : Host.Outcome State Fault Refusal :=
  finish s <|
    if !dmsFieldsOk s.opa then .error (.usage .badDmsField)
    else if !dmsFieldsOk s.opb then .error (.usage .badDmsField)
    else .ok (emit ([0x57] ++ locationBytes s.opa ++ locationBytes s.opb) s.params.respLen.setLocation s)

/-- CB_GETTIME (`41_command_builder.md` R175). -/
def execCbGettime (s : State) : Host.Outcome State Fault Refusal :=
  finish s (.ok (emit [0x68] s.params.respLen.getTime s))

/-- CB_SETTIME (`41_command_builder.md` R176): the flag is checked before the offset; the offset byte is the low byte
of OPB, which is the offset modulo 256. -/
def execCbSettime (dst : Byte) (s : State) : Host.Outcome State Fault Refusal :=
  finish s <|
    if 1 < dst.toNat then .error (.usage .badFlag)
    else if s.opb.toInt < -128 ∨ 127 < s.opb.toInt then .error (.usage .badOffset)
    else .ok (emit ([0x48] ++ timeBytes s.opa ++ [byteOf s.opb 0, dst]) s.params.respLen.setTime s)

/-- CB_GETVER (`41_command_builder.md` R177). -/
def execCbGetver (s : State) : Host.Outcome State Fault Refusal :=
  finish s (.ok (emit [0x56] s.params.respLen.getVersion s))

/-- CB_GETMODEL (`41_command_builder.md` R178). -/
def execCbGetmodel (s : State) : Host.Outcome State Fault Refusal :=
  finish s (.ok (emit [0x6D] s.params.respLen.getModel s))

/-- CB_ECHO (`41_command_builder.md` R179). -/
def execCbEcho (byte : Byte) (s : State) : Host.Outcome State Fault Refusal :=
  finish s (.ok { emit [0x4B, byte] 1 s with echoref := byte })

/-- CB_GETALIGN (`41_command_builder.md` R180). -/
def execCbGetalign (s : State) : Host.Outcome State Fault Refusal := finish s (.ok (emit [0x4A] 1 s))

/-- CB_GETGOTO (`41_command_builder.md` R181). -/
def execCbGetgoto (s : State) : Host.Outcome State Fault Refusal := finish s (.ok (emit [0x4C] 1 s))

/-- CB_CANCEL (`41_command_builder.md` R182). -/
def execCbCancel (s : State) : Host.Outcome State Fault Refusal := finish s (.ok (emit [0x4D] 0 s))

end Sys2Proof.Machine
end

