-- ==== Sys2Proof/Machine/Decoders.lean ====
section
/-! DEFINITION. The response decoders (`42_response_framer.md` R220 to R228). A decoder writes only its result
registers, and only after every check has passed. -/

namespace Sys2Proof.Machine

/-- `DecoderPre(Nreq)` holds (`42_response_framer.md` R220). -/
def hasFrame (s : State) (nreq : Byte) : Bool := s.rxvalid && s.rxlen == nreq

/-- The payload RXBUF[0..RXLEN-1] (`10_state.md` R29). -/
def State.payload (s : State) : List Byte := s.rxBytes 0 s.rxlen.toNat

/-- DEC_POS (`42_response_framer.md` R222). -/
def execDecPos (p : Precision) (s : State) : Host.Outcome State Fault Refusal :=
  finish s <|
    if !hasFrame s (BitVec.ofNat 8 (2 * hexDigits p + 1)) then .error (.usage .noFrame)
    else if s.rxByte (hexDigits p) ≠ Config.comma then .error (.protocol .badPayload)
    else
      match hexVal (s.rxBytes 0 (hexDigits p)), hexVal (s.rxBytes (hexDigits p + 1) (hexDigits p)) with
      | some c1, some c2 =>
        .ok
          { s with
            res0 := dequantize (codeBits p) c1
            res1 := dequantize (codeBits p) c2
            res2 := BitVec.ofNat 64 c1
            res3 := BitVec.ofNat 64 c2 }
      | _, _ => .error (.protocol .badPayload)

/-- The tracking mode that a mode byte names (`42_response_framer.md` R223). -/
def decodeTracking (b : Byte) : Option Word64 := if 3 < b.toNat then none else some (b.zeroExtend 64)

/-- The mode byte of a tracking payload (`42_response_framer.md` R223). Where RESP_LEN(GET_TRACKING_MODE) is not the
default 1, `30_encoding.md` R103 gives the payload no layout, and which byte it carries is free (log entry 14). -/
def trackingByte (s : State) : Byte :=
  if s.params.respLen.getTrackingMode = 1 then s.rxByte 0 else Config.otherTracking s.payload

/-- DEC_TRK (`42_response_framer.md` R223). The required length is RESP_LEN(GET_TRACKING_MODE), as `30_encoding.md`
R103 asks. -/
def execDecTrk (s : State) : Host.Outcome State Fault Refusal :=
  finish s <|
    if !hasFrame s s.params.respLen.getTrackingMode then .error (.usage .noFrame)
    else
      match decodeTracking (trackingByte s) with
      | none => .error (.protocol .badPayload)
      | some v => .ok { s with res0 := v }

/-- The DMS word of four location bytes: degrees, minutes, seconds, sign (`42_response_framer.md` R224). -/
def locationWord (deg min sec sgn : Byte) : Option Word64 :=
  if 59 < min.toNat ∨ 59 < sec.toNat ∨ 1 < sgn.toNat then none else some (0#32 ++ sgn ++ deg ++ min ++ sec)

/-- The two DMS words of eight location bytes (`42_response_framer.md` R224). -/
def decodeLocation (f : Nat → Byte) : Option (Word64 × Word64) :=
  match locationWord (f 0) (f 1) (f 2) (f 3), locationWord (f 4) (f 5) (f 6) (f 7) with
  | some lat, some lon => some (lat, lon)
  | _, _ => none

/-- Byte `i` of the eight location bytes that a payload carries. For the length see `trackingByte` (log entry 14). -/
def locationByte (s : State) (i : Nat) : Byte :=
  if s.params.respLen.getLocation = 8 then s.rxByte i else Config.otherLocation s.payload i

/-- DEC_LOC (`42_response_framer.md` R224). -/
def execDecLoc (s : State) : Host.Outcome State Fault Refusal :=
  finish s <|
    if !hasFrame s s.params.respLen.getLocation then .error (.usage .noFrame)
    else
      match decodeLocation (locationByte s) with
      | none => .error (.protocol .badPayload)
      | some (lat, lon) => .ok { s with res0 := lat, res1 := lon }

/-- The time word, UTC offset and DST flag of eight time bytes (`42_response_framer.md` R225). -/
def decodeTime (f : Nat → Byte) : Option (Word64 × Word64 × Word64) :=
  if 1 < (f 7).toNat then none
  else some (0#16 ++ f 5 ++ f 4 ++ f 3 ++ f 2 ++ f 1 ++ f 0, (f 6).signExtend 64, (f 7).zeroExtend 64)

/-- Byte `i` of the eight time bytes that a payload carries. For the length see `trackingByte` (log entry 14). -/
def timeByte (s : State) (i : Nat) : Byte :=
  if s.params.respLen.getTime = 8 then s.rxByte i else Config.otherTime s.payload i

/-- DEC_TIME (`42_response_framer.md` R225). -/
def execDecTime (s : State) : Host.Outcome State Fault Refusal :=
  finish s <|
    if !hasFrame s s.params.respLen.getTime then .error (.usage .noFrame)
    else
      match decodeTime (timeByte s) with
      | none => .error (.protocol .badPayload)
      | some (t, off, dst) => .ok { s with res0 := t, res1 := off, res2 := dst }

/-- DEC_ECHO (`42_response_framer.md` R226). -/
def execDecEcho (s : State) : Host.Outcome State Fault Refusal :=
  finish s <|
    if !hasFrame s 1 then .error (.usage .noFrame)
    else if s.rxByte 0 ≠ s.echoref then .error (.protocol .echoMismatch)
    else .ok { s with res0 := (s.rxByte 0).zeroExtend 64 }

/-- DEC_ALIGN (`42_response_framer.md` R227): a raw 0/1 byte. -/
def execDecAlign (s : State) : Host.Outcome State Fault Refusal :=
  finish s <|
    if !hasFrame s 1 then .error (.usage .noFrame)
    else if s.rxByte 0 = 0x00 then .ok { s with res0 := 0 }
    else if s.rxByte 0 = 0x01 then .ok { s with res0 := 1 }
    else .error (.protocol .badPayload)

/-- DEC_GOTO (`42_response_framer.md` R228): an ASCII '0'/'1' character. -/
def execDecGoto (s : State) : Host.Outcome State Fault Refusal :=
  finish s <|
    if !hasFrame s 1 then .error (.usage .noFrame)
    else if s.rxByte 0 = 0x30 then .ok { s with res0 := 0 }
    else if s.rxByte 0 = 0x31 then .ok { s with res0 := 1 }
    else .error (.protocol .badPayload)

end Sys2Proof.Machine
end

