-- ==== Sys2Proof/Machine/FrameBuilder.lean ====
section
/-! DEFINITION. The generic frame builder (`41_command_builder.md` R160 to R165). The generic builders never write
EXPLEN (R160). -/

namespace Sys2Proof.Machine

/-- FB_CLEAR (`41_command_builder.md` R161): TXBUF is left as it was. -/
def execFbClear (s : State) : Host.Outcome State Fault Refusal := finish s (.ok { s with txlen := 0 })

/-- FB_BYTE (`41_command_builder.md` R162). -/
def execFbByte (byte : Byte) (s : State) : Host.Outcome State Fault Refusal := finish s (append [byte] s)

/-- FB_UINT (`41_command_builder.md` R163): width, then value, then overflow. -/
def execFbUint (width : Byte) (s : State) : Host.Outcome State Fault Refusal :=
  finish s <|
    if width.toNat < 1 ∨ 8 < width.toNat then .error (.usage .badWidth)
    else if 2 ^ (8 * width.toNat) ≤ s.opa.toNat then .error (.usage .valueRange)
    else append (bigEndian s.opa.toNat width.toNat) s

/-- FB_HEX (`41_command_builder.md` R164): digit count, then value, then overflow. -/
def execFbHex (digits : Byte) (s : State) : Host.Outcome State Fault Refusal :=
  finish s <|
    if digits.toNat < 1 ∨ 16 < digits.toNat then .error (.usage .badWidth)
    else if 16 ^ digits.toNat ≤ s.opa.toNat then .error (.usage .valueRange)
    else append (hexN s.opa.toNat digits.toNat) s

/-- FB_DEC (`41_command_builder.md` R165): digit count, then value, then overflow. -/
def execFbDec (digits : Byte) (s : State) : Host.Outcome State Fault Refusal :=
  finish s <|
    if 20 < digits.toNat then .error (.usage .badWidth)
    else if 1 ≤ digits.toNat ∧ 10 ^ digits.toNat ≤ s.opa.toNat then .error (.usage .valueRange)
    else append (decN s.opa.toNat digits.toNat) s

end Sys2Proof.Machine
end

