-- ==== Sys2Proof/Machine/Flags.lean ====
section
/-! DEFINITION. The words that STATUS, XFER and XBYTE read as (`10_state.md` R24, R25, R26) and the error codes
(`60_exceptions.md` R281, R283). -/

namespace Sys2Proof.Machine

/-- STATUS.ERR (`60_exceptions.md` R281). -/
def errCode : Option OpError → BitVec 4
  | none => 0
  | some (.usage _) => 1
  | some (.protocol _) => 2
  | some .noAnswer => 3
  | some (.illegal _) => 4

/-- The USAGE details (`60_exceptions.md` R283). -/
def usageCode : UsageDetail → Byte
  | .angleRange => 0x01
  | .codeRange => 0x02
  | .dmsRange => 0x03
  | .valueRange => 0x04
  | .badWidth => 0x05
  | .txOverflow => 0x06
  | .txEmpty => 0x07
  | .badDevice => 0x08
  | .badRate => 0x09
  | .badSublen => 0x0A
  | .badMode => 0x0B
  | .badOffset => 0x0C
  | .noFrame => 0x0D
  | .badDmsField => 0x0E
  | .badFlag => 0x0F

/-- The PROTOCOL details (`60_exceptions.md` R283). -/
def protocolCode : ProtocolDetail → Byte
  | .short => 0x01
  | .badTerm => 0x02
  | .echoMismatch => 0x03
  | .badPayload => 0x04

/-- The ILLEGAL details (`60_exceptions.md` R283). -/
def illegalCode : IllegalDetail → Byte
  | .rsvdFunc => 0x01
  | .rsvdBits => 0x02
  | .unusedField => 0x03

/-- STATUS.DETAIL (`60_exceptions.md` R283); 0 when ERR = NONE. -/
def detailCode : Option OpError → Byte
  | none => 0
  | some (.usage d) => usageCode d
  | some (.protocol d) => protocolCode d
  | some .noAnswer => 0x01
  | some (.illegal d) => illegalCode d

/-- STATUS as the host reads it (`10_state.md` R24). -/
def statusWord (s : State) : Word32 :=
  0#15 ++ BitVec.ofBool s.recov ++ detailCode s.error ++ errCode s.error ++ BitVec.ofBool s.rxvalid ++
    BitVec.ofBool s.coll ++ BitVec.ofBool s.done ++ BitVec.ofBool s.busy

/-- XFER as the host reads it (`10_state.md` R25). -/
def xferWord (x : Xfer) : Word32 := 0#7 ++ x.actLen ++ 0#7 ++ x.expLen

/-- XBYTE as the host reads it (`10_state.md` R26). -/
def xbyteWord (x : Xbyte) : Word32 := 0#15 ++ BitVec.ofBool x.recGot ++ x.recByte ++ x.last

/-- The PROTOCOL detail of a framing failure (`42_response_framer.md` R212). -/
def FrameFail.detail : FrameFail → ProtocolDetail
  | .short => .short
  | .badTerm => .badTerm

end Sys2Proof.Machine
end

