-- ==== Sys2Proof/Machine/Link.lean ====
section
/-! DEFINITION. The link operations (`42_response_framer.md` R210 to R214, `43_passthrough.md` R256): what their
acceptance does, and the engine's steps of a read in flight. -/

namespace Sys2Proof.Machine

/-- A link operation goes in flight with its operands latched (`30_encoding.md` R97, `10_state.md` R40). The registers
that it will write are kept as they stand, for the host's reads while BUSY = 1 (`20_memory.md` R74). -/
def startLink (act : Activity) (s : State) : State :=
  { s with inflight := some { latch := s.latched, activity := act }, before := s.linkRegs }

/-- SEND (`42_response_framer.md` R210): TX_EMPTY is checked before BUSY; a new round trip begins. -/
def execSend (s : State) : Host.Outcome State Fault Refusal :=
  if s.txlen = 0 then finish s (.error (.usage .txEmpty))
  else .next { startLink (.send 0) s with rxvalid := false, rxlen := 0 }

/-- RECV (`42_response_framer.md` R212): the framing read starts with no byte and a full timer (R211). -/
def execRecv (s : State) : Host.Outcome State Fault Refusal := .next (startLink (.recv 0 s.timeout) s)

/-- PT_RECV (`43_passthrough.md` R256): phase 1 starts as a framing read. -/
def execPtRecv (s : State) : Host.Outcome State Fault Refusal := .next (startLink (.ptRecv 0 s.timeout) s)

/-- The bytes a framing read asks for, N + 1 (`42_response_framer.md` R211). -/
def frameLen (n : Byte) : Nat := n.toNat + 1

/-- The outcome of a framing read that took `k` bytes for N = `n` (`42_response_framer.md` R211); `none` is OK. -/
def frameOutcome (n : Byte) (k : Nat) (s : State) : Option FrameFail :=
  if k < frameLen n then some .short
  else if s.rxByte n.toNat ≠ Config.term then some .badTerm
  else none

/-- The diagnostics of a framing read that took `k` bytes for N = `n` (`42_response_framer.md` R211). -/
def recordRead (n : Byte) (k : Nat) (s : State) : State :=
  { s with
    xfer := { expLen := BitVec.ofNat 9 (frameLen n), actLen := BitVec.ofNat 9 k }
    xbyte := { s.xbyte with last := if 0 < k then s.rxByte (k - 1) else 0 } }

/-- A framing read succeeded: the payload length and RXVALID (`42_response_framer.md` R212, `10_state.md` R33). -/
def acceptFrame (n : Byte) (s : State) : State := { s with rxlen := n, rxvalid := true }

/-- A framing read failed: no frame is held (`42_response_framer.md` R212, `10_state.md` R29). -/
def dropFrame (s : State) : State := { s with rxlen := 0, rxvalid := false }

/-- The end of RECV's attempt after `k` bytes (`42_response_framer.md` R212). -/
def endRecv (l : Latch) (k : Nat) (s : State) : State :=
  match frameOutcome l.e k s with
  | none => complete (acceptFrame l.e (recordRead l.e k s))
  | some o => raise (.protocol o.detail) (dropFrame (recordRead l.e k s))

/-- The end of PT_RECV's phase 1 after `k` bytes (`43_passthrough.md` R256): a failure starts the recovery read with a
fresh timer. -/
def endPtPhase1 (l : Latch) (k : Nat) (s : State) : State :=
  match frameOutcome l.e k s with
  | none => complete (acceptFrame l.e (recordRead l.e k s))
  | some o =>
    { dropFrame (recordRead l.e k s) with inflight := some { latch := l, activity := .ptRecovery o l.t } }

/-- The original error, chained with the failed recovery (`43_passthrough.md` R256). -/
def recoveryFailed (o1 : FrameFail) (s : State) : State := raise (.protocol o1.detail) { s with recov := true }

/-- The recovery read received the byte `x` (`43_passthrough.md` R256): it never goes to RXBUF. -/
def recoveryByte (o1 : FrameFail) (x : Byte) (s : State) : State :=
  let t := { s with xbyte := { s.xbyte with recGot := true, recByte := x } }
  if x = Config.term then raise .noAnswer t else recoveryFailed o1 t

/-- A framing read takes the byte `b` into RXBUF[k] (`42_response_framer.md` R211). -/
def storeRx (k : Nat) (b : Byte) (rest : List Byte) (s : State) : State :=
  { s with mem := s.mem.write (rxAddr k) b, rx := rest }

/-- The attempt in flight ends by a timeout (`60_exceptions.md` R300, R301). Outside an attempt there is no timer. -/
def expireAttempt (f : InFlight) (s : State) : State :=
  match f.activity with
  | .send _ => s
  | .recv k _ => endRecv f.latch k s
  | .ptRecv k _ => endPtPhase1 f.latch k s
  | .ptRecovery o1 _ => recoveryFailed o1 s

/-- RX_take with no byte waiting (`00_scope.md` R9): the engine waits, but a timer of 0 ends the attempt at once
(`10_state.md` R34). -/
def waitRx (f : InFlight) (timer : Word32) (s : State) : State := if timer = 0 then expireAttempt f s else s

/-- One engine step of a read in flight (`30_encoding.md` R97): the byte at the head of the RX stream is taken. -/
def engineStep (f : InFlight) (s : State) : State :=
  match f.activity with
  | .send _ => s
  | .recv k timer =>
    if k < frameLen f.latch.e then
      match s.rx with
      | [] => waitRx f timer s
      | b :: rest =>
        if k + 1 < frameLen f.latch.e then
          { storeRx k b rest s with inflight := some { f with activity := .recv (k + 1) timer } }
        else endRecv f.latch (k + 1) (storeRx k b rest s)
    else endRecv f.latch k s
  | .ptRecv k timer =>
    if k < frameLen f.latch.e then
      match s.rx with
      | [] => waitRx f timer s
      | b :: rest =>
        if k + 1 < frameLen f.latch.e then
          { storeRx k b rest s with inflight := some { f with activity := .ptRecv (k + 1) timer } }
        else endPtPhase1 f.latch (k + 1) (storeRx k b rest s)
    else endPtPhase1 f.latch k s
  | .ptRecovery o1 timer =>
    match s.rx with
    | [] => waitRx f timer s
    | x :: rest => recoveryByte o1 x { s with rx := rest }

end Sys2Proof.Machine
end

