-- ==== Sys2Proof/Machine/Passthrough.lean ====
section
/-! DEFINITION. The passthrough frame builders (`43_passthrough.md` R250 to R255). -/

namespace Sys2Proof.Machine

/-- PT_BUILD (`43_passthrough.md` R251): any device byte is accepted; body bytes at or beyond L are sent as 0. -/
def execPtBuild (device count : Byte) (s : State) : Host.Outcome State Fault Refusal :=
  finish s <|
    if s.opb.toNat < 1 ∨ 4 < s.opb.toNat then .error (.usage .badSublen)
    else .ok (emit (ptFrame s.opb.toNat device (subBody s.opa s.opb.toNat) count) count s)

/-- PT_SLEWFIX (`43_passthrough.md` R253): the device is checked before the rate; rate 0 takes the positive code. -/
def execPtSlewfix (device : Byte) (s : State) : Host.Outcome State Fault Refusal :=
  finish s <|
    if !isMotor device then .error (.usage .badDevice)
    else if s.opa.toInt < -9 ∨ 9 < s.opa.toInt then .error (.usage .badRate)
    else .ok <|
      emit (ptFrame 2 device [if s.opa.toInt < 0 then 37 else 36, BitVec.ofNat 8 s.opa.toInt.natAbs] s.params.slewRespLen)
        s.params.slewRespLen s

/-- PT_SLEWVAR (`43_passthrough.md` R254): a negative rate keeps code 7 even when its magnitude rounds to 0. -/
def execPtSlewvar (device : Byte) (s : State) : Host.Outcome State Fault Refusal :=
  finish s <|
    if !isMotor device then .error (.usage .badDevice)
    else if !isFinite s.opa then .error (.usage .badRate)
    else if 65535 < roundRate s.params.arith (magUnits s.opa) then .error (.usage .badRate)
    else .ok <|
      emit (ptFrame 3 device ([if isNegative s.opa then 7 else 6] ++ bigEndian (roundRate s.params.arith (magUnits s.opa)) 2)
        s.params.slewRespLen) s.params.slewRespLen s

/-- PT_GETDEVVER (`43_passthrough.md` R255): any device byte is accepted. -/
def execPtGetdevver (device : Byte) (s : State) : Host.Outcome State Fault Refusal :=
  finish s (.ok (emit (ptFrame 1 device [254] s.params.devverRespLen) s.params.devverRespLen s))

end Sys2Proof.Machine
end

