-- ==== Sys2Proof/Machine/Transform.lean ====
section
/-! DEFINITION. The transform family (`40_transform.md`): the fixed-point angle quantizer and the DMS encoder and
decoder. All atomic: acceptance and execution are one step (`30_encoding.md` R97), so the latched operand `a` is OPA as
it stands (R95, `10_state.md` R40). -/

namespace Sys2Proof.Machine

/-- QNT (`40_transform.md` R131). -/
def execQnt (p : Precision) (s : State) : Host.Outcome State Fault Refusal :=
  finish s <|
    if inCircle s.opa then .ok { s with res0 := BitVec.ofNat 64 (quantize s.params.arith (codeBits p) s.opa) }
    else .error (.usage .angleRange)

/-- DQNT (`40_transform.md` R133). -/
def execDqnt (p : Precision) (s : State) : Host.Outcome State Fault Refusal :=
  finish s <|
    if 2 ^ codeBits p ≤ s.opa.toNat then .error (.usage .codeRange)
    else .ok { s with res0 := dequantize (codeBits p) s.opa.toNat }

/-- DMSENC (`40_transform.md` R136). -/
def execDmsenc (s : State) : Host.Outcome State Fault Refusal :=
  finish s <|
    if 255 < (secondsToDms s.opa.toInt).deg then .error (.usage .dmsRange)
    else .ok { s with res0 := packDms (secondsToDms s.opa.toInt) }

/-- DMSDEC (`40_transform.md` R138). -/
def execDmsdec (s : State) : Host.Outcome State Fault Refusal :=
  finish s (.ok { s with res0 := BitVec.ofInt 64 (dmsToSeconds (unpackDms s.opa)) })

/-- The signed seconds of a finite angle (`40_transform.md` R139): RNE is symmetric in sign. -/
def degreesToSeconds (ar : Arith) (x : Word64) : Int :=
  if isNegative x then -(roundSeconds ar (magUnits x) : Int) else (roundSeconds ar (magUnits x) : Int)

/-- DEG2SEC (`40_transform.md` R139). -/
def execDeg2sec (s : State) : Host.Outcome State Fault Refusal :=
  finish s <|
    if !isFinite s.opa then .error (.usage .valueRange)
    else if -(2 ^ 63 : Int) ≤ degreesToSeconds s.params.arith s.opa ∧ degreesToSeconds s.params.arith s.opa < 2 ^ 63 then
      .ok { s with res0 := BitVec.ofInt 64 (degreesToSeconds s.params.arith s.opa) }
    else .error (.usage .valueRange)

/-- SEC2DEG (`40_transform.md` R140): one correctly rounded division; 0 gives +0.0. -/
def execSec2deg (s : State) : Host.Outcome State Fault Refusal :=
  finish s (.ok { s with res0 := patternOf (decide (s.opa.toInt < 0)) (fl64Units s.opa.toInt.natAbs 3600) })

end Sys2Proof.Machine
end

