-- ==== Sys2Proof/Decode.lean ====
section
/-! DEFINITION. The decoder of NXPE's three encodings and, after it, the encoder: the operation word (`30_encoding.md`
R90 to R94), the wire opcode byte (R100) and the passthrough sub-command code (R105). -/

namespace Sys2Proof

/-- An encoded instruction, in one of the three formats of `spec/opcode_table.json`. -/
inductive Code where
  /-- An operation word, as the host writes it to OPW. -/
  | opw (w : Word32)
  /-- A byte that opens a request on the TX stream. -/
  | wire (b : Byte)
  /-- Byte 3 of a passthrough frame. -/
  | sub (b : Byte)
deriving DecidableEq, Repr

/-- What decoding answers. -/
inductive Decoded where
  /-- An instruction. -/
  | op (i : Instr)
  /-- An operation word that names no operation (`30_encoding.md` R93). -/
  | illegal (d : IllegalDetail)
  /-- A byte that is no wire opcode of R100, or no sub-command code of R105. -/
  | unlisted (b : Byte)
deriving DecidableEq, Repr

/-- The fields of an operation word that an operation uses (the "uses" columns of `30_encoding.md` R92). -/
structure Uses where
  p : Bool
  m : Bool
  imm8 : Bool
  imm8b : Bool
deriving DecidableEq, Repr

/-- The P bit (`30_encoding.md` R90). -/
def Precision.bit : Precision → BitVec 1
  | .standard => 0
  | .high => 1

/-- The precision that the P bit selects (`30_encoding.md` R90). -/
def Precision.ofBit (b : BitVec 1) : Precision := if b = 1 then .high else .standard

/-- The M bit (`30_encoding.md` R90). -/
def CoordMode.bit : CoordMode → BitVec 1
  | .raDec => 0
  | .azmAlt => 1

/-- The coordinate mode that the M bit selects (`30_encoding.md` R90). -/
def CoordMode.ofBit (b : BitVec 1) : CoordMode := if b = 1 then .azmAlt else .raDec

/-- FUNC, OPW[7:0] (`30_encoding.md` R90). -/
def opwFunc (w : Word32) : Byte := w.extractLsb' 0 8

/-- P, OPW[8]. -/
def opwP (w : Word32) : BitVec 1 := w.extractLsb' 8 1

/-- M, OPW[9]. -/
def opwM (w : Word32) : BitVec 1 := w.extractLsb' 9 1

/-- RSV, OPW[15:10]. -/
def opwRsv (w : Word32) : BitVec 6 := w.extractLsb' 10 6

/-- IMM8, OPW[23:16]. -/
def opwImm8 (w : Word32) : Byte := w.extractLsb' 16 8

/-- IMM8B, OPW[31:24]. -/
def opwImm8b (w : Word32) : Byte := w.extractLsb' 24 8

/-- FUNC_MAP (`30_encoding.md` R92): the fields that a FUNC uses, and its operation with the fields given; `none` is a
reserved FUNC (R93). -/
def funcMap (f : Byte) (p : Precision) (m : CoordMode) (x y : Byte) : Option (Uses × Instr) :=
  match f with
  | 0x10 => some (⟨true, false, false, false⟩, .qnt p)
  | 0x11 => some (⟨true, false, false, false⟩, .dqnt p)
  | 0x20 => some (⟨false, false, false, false⟩, .dmsenc)
  | 0x21 => some (⟨false, false, false, false⟩, .dmsdec)
  | 0x22 => some (⟨false, false, false, false⟩, .deg2sec)
  | 0x23 => some (⟨false, false, false, false⟩, .sec2deg)
  | 0x30 => some (⟨false, false, false, false⟩, .fbClear)
  | 0x31 => some (⟨false, false, true, false⟩, .fbByte x)
  | 0x32 => some (⟨false, false, true, false⟩, .fbUint x)
  | 0x33 => some (⟨false, false, true, false⟩, .fbHex x)
  | 0x34 => some (⟨false, false, true, false⟩, .fbDec x)
  | 0x40 => some (⟨true, true, false, false⟩, .cbGetpos p m)
  | 0x41 => some (⟨true, true, false, false⟩, .cbGoto p m)
  | 0x42 => some (⟨true, false, false, false⟩, .cbSync p)
  | 0x43 => some (⟨false, false, false, false⟩, .cbGettrk)
  | 0x44 => some (⟨false, false, true, false⟩, .cbSettrk x)
  | 0x45 => some (⟨false, false, false, false⟩, .cbGetloc)
  | 0x46 => some (⟨false, false, false, false⟩, .cbSetloc)
  | 0x47 => some (⟨false, false, false, false⟩, .cbGettime)
  | 0x48 => some (⟨false, false, true, false⟩, .cbSettime x)
  | 0x49 => some (⟨false, false, false, false⟩, .cbGetver)
  | 0x4A => some (⟨false, false, false, false⟩, .cbGetmodel)
  | 0x4B => some (⟨false, false, true, false⟩, .cbEcho x)
  | 0x4C => some (⟨false, false, false, false⟩, .cbGetalign)
  | 0x4D => some (⟨false, false, false, false⟩, .cbGetgoto)
  | 0x4E => some (⟨false, false, false, false⟩, .cbCancel)
  | 0x50 => some (⟨false, false, true, true⟩, .ptBuild x y)
  | 0x51 => some (⟨false, false, true, false⟩, .ptSlewfix x)
  | 0x52 => some (⟨false, false, true, false⟩, .ptSlewvar x)
  | 0x53 => some (⟨false, false, true, false⟩, .ptGetdevver x)
  | 0x60 => some (⟨false, false, false, false⟩, .send)
  | 0x61 => some (⟨false, false, false, false⟩, .recv)
  | 0x62 => some (⟨false, false, false, false⟩, .ptRecv)
  | 0x70 => some (⟨true, false, false, false⟩, .decPos p)
  | 0x71 => some (⟨false, false, false, false⟩, .decTrk)
  | 0x72 => some (⟨false, false, false, false⟩, .decLoc)
  | 0x73 => some (⟨false, false, false, false⟩, .decTime)
  | 0x74 => some (⟨false, false, false, false⟩, .decEcho)
  | 0x75 => some (⟨false, false, false, false⟩, .decAlign)
  | 0x76 => some (⟨false, false, false, false⟩, .decGoto)
  | _ => none

/-- A field that the operation does not use is not 0 (`30_encoding.md` R93 case 3). -/
def unusedFieldSet (u : Uses) (w : Word32) : Bool :=
  (opwP w != 0 && !u.p) || (opwM w != 0 && !u.m) || (opwImm8 w != 0 && !u.imm8) || (opwImm8b w != 0 && !u.imm8b)

/-- Decoding an operation word, total on every 32-bit word (`30_encoding.md` R94). -/
def decode (w : Word32) : Decoded :=
  match funcMap (opwFunc w) (Precision.ofBit (opwP w)) (CoordMode.ofBit (opwM w)) (opwImm8 w) (opwImm8b w) with
  | none => .illegal .rsvdFunc
  | some (u, i) =>
    if opwRsv w ≠ 0 then .illegal .rsvdBits
    else if unusedFieldSet u w then .illegal .unusedField
    else .op i

/-- The wire opcode table (`30_encoding.md` R100). -/
def wireOpcode (b : Byte) : Option Instr :=
  match b with
  | 0x45 => some .wireGetPositionRaDec
  | 0x65 => some .wireGetPositionRaDecPrecise
  | 0x5A => some .wireGetPositionAzmAlt
  | 0x7A => some .wireGetPositionAzmAltPrecise
  | 0x52 => some .wireGotoPositionRaDec
  | 0x72 => some .wireGotoPositionRaDecPrecise
  | 0x42 => some .wireGotoPositionAzmAlt
  | 0x62 => some .wireGotoPositionAzmAltPrecise
  | 0x53 => some .wireSync
  | 0x73 => some .wireSyncPrecise
  | 0x74 => some .wireGetTrackingMode
  | 0x54 => some .wireSetTrackingMode
  | 0x77 => some .wireGetLocation
  | 0x57 => some .wireSetLocation
  | 0x68 => some .wireGetTime
  | 0x48 => some .wireSetTime
  | 0x56 => some .wireGetVersion
  | 0x6D => some .wireGetModel
  | 0x4B => some .wireEcho
  | 0x4A => some .wireGetAlignmentComplete
  | 0x4C => some .wireGetGotoInProgress
  | 0x4D => some .wireCancelGoto
  | 0x50 => some .wirePassthrough
  | _ => none

/-- The passthrough sub-command codes (`30_encoding.md` R105). -/
def subCommand (b : Byte) : Option Instr :=
  match b with
  | 0x06 => some .ptsubSlewVarPos
  | 0x07 => some .ptsubSlewVarNeg
  | 0x24 => some .ptsubSlewFixPos
  | 0x25 => some .ptsubSlewFixNeg
  | 0xFE => some .ptsubGetDeviceVersion
  | _ => none

/-- Decoding an encoded instruction of any format. -/
def decodeCode : Code → Decoded
  | .opw w => decode w
  | .wire b => (wireOpcode b).elim (.unlisted b) .op
  | .sub b => (subCommand b).elim (.unlisted b) .op

/-- An operation word from its fields, RSV = 0 (`30_encoding.md` R90, R108: `FUNC | P<<8 | M<<9 | imm8<<16 |
imm8b<<24`). -/
def opWord (f : Byte) (p : Precision) (m : CoordMode) (x y : Byte) : Word32 :=
  y ++ x ++ 0#6 ++ m.bit ++ p.bit ++ f

/-- The encoding of an instruction (`30_encoding.md` R92, R100, R105). -/
def encode : Instr → Code
  | .qnt p => .opw (opWord 0x10 p .raDec 0 0)
  | .dqnt p => .opw (opWord 0x11 p .raDec 0 0)
  | .dmsenc => .opw (opWord 0x20 .standard .raDec 0 0)
  | .dmsdec => .opw (opWord 0x21 .standard .raDec 0 0)
  | .deg2sec => .opw (opWord 0x22 .standard .raDec 0 0)
  | .sec2deg => .opw (opWord 0x23 .standard .raDec 0 0)
  | .fbClear => .opw (opWord 0x30 .standard .raDec 0 0)
  | .fbByte byte => .opw (opWord 0x31 .standard .raDec byte 0)
  | .fbUint width => .opw (opWord 0x32 .standard .raDec width 0)
  | .fbHex digits => .opw (opWord 0x33 .standard .raDec digits 0)
  | .fbDec digits => .opw (opWord 0x34 .standard .raDec digits 0)
  | .cbGetpos p m => .opw (opWord 0x40 p m 0 0)
  | .cbGoto p m => .opw (opWord 0x41 p m 0 0)
  | .cbSync p => .opw (opWord 0x42 p .raDec 0 0)
  | .cbGettrk => .opw (opWord 0x43 .standard .raDec 0 0)
  | .cbSettrk mode => .opw (opWord 0x44 .standard .raDec mode 0)
  | .cbGetloc => .opw (opWord 0x45 .standard .raDec 0 0)
  | .cbSetloc => .opw (opWord 0x46 .standard .raDec 0 0)
  | .cbGettime => .opw (opWord 0x47 .standard .raDec 0 0)
  | .cbSettime dst => .opw (opWord 0x48 .standard .raDec dst 0)
  | .cbGetver => .opw (opWord 0x49 .standard .raDec 0 0)
  | .cbGetmodel => .opw (opWord 0x4A .standard .raDec 0 0)
  | .cbEcho byte => .opw (opWord 0x4B .standard .raDec byte 0)
  | .cbGetalign => .opw (opWord 0x4C .standard .raDec 0 0)
  | .cbGetgoto => .opw (opWord 0x4D .standard .raDec 0 0)
  | .cbCancel => .opw (opWord 0x4E .standard .raDec 0 0)
  | .ptBuild device count => .opw (opWord 0x50 .standard .raDec device count)
  | .ptSlewfix device => .opw (opWord 0x51 .standard .raDec device 0)
  | .ptSlewvar device => .opw (opWord 0x52 .standard .raDec device 0)
  | .ptGetdevver device => .opw (opWord 0x53 .standard .raDec device 0)
  | .send => .opw (opWord 0x60 .standard .raDec 0 0)
  | .recv => .opw (opWord 0x61 .standard .raDec 0 0)
  | .ptRecv => .opw (opWord 0x62 .standard .raDec 0 0)
  | .decPos p => .opw (opWord 0x70 p .raDec 0 0)
  | .decTrk => .opw (opWord 0x71 .standard .raDec 0 0)
  | .decLoc => .opw (opWord 0x72 .standard .raDec 0 0)
  | .decTime => .opw (opWord 0x73 .standard .raDec 0 0)
  | .decEcho => .opw (opWord 0x74 .standard .raDec 0 0)
  | .decAlign => .opw (opWord 0x75 .standard .raDec 0 0)
  | .decGoto => .opw (opWord 0x76 .standard .raDec 0 0)
  | .wireGetPositionRaDec => .wire 0x45
  | .wireGetPositionRaDecPrecise => .wire 0x65
  | .wireGetPositionAzmAlt => .wire 0x5A
  | .wireGetPositionAzmAltPrecise => .wire 0x7A
  | .wireGotoPositionRaDec => .wire 0x52
  | .wireGotoPositionRaDecPrecise => .wire 0x72
  | .wireGotoPositionAzmAlt => .wire 0x42
  | .wireGotoPositionAzmAltPrecise => .wire 0x62
  | .wireSync => .wire 0x53
  | .wireSyncPrecise => .wire 0x73
  | .wireGetTrackingMode => .wire 0x74
  | .wireSetTrackingMode => .wire 0x54
  | .wireGetLocation => .wire 0x77
  | .wireSetLocation => .wire 0x57
  | .wireGetTime => .wire 0x68
  | .wireSetTime => .wire 0x48
  | .wireGetVersion => .wire 0x56
  | .wireGetModel => .wire 0x6D
  | .wireEcho => .wire 0x4B
  | .wireGetAlignmentComplete => .wire 0x4A
  | .wireGetGotoInProgress => .wire 0x4C
  | .wireCancelGoto => .wire 0x4D
  | .wirePassthrough => .wire 0x50
  | .ptsubSlewVarPos => .sub 0x06
  | .ptsubSlewVarNeg => .sub 0x07
  | .ptsubSlewFixPos => .sub 0x24
  | .ptsubSlewFixNeg => .sub 0x25
  | .ptsubGetDeviceVersion => .sub 0xFE

/-- The instruction of a decoding, if it is one. -/
def Decoded.instr? : Decoded → Option Instr
  | .op i => some i
  | .illegal _ => none
  | .unlisted _ => none

/-- The instruction this decoder reads from a row of `spec/opcode_table.json` whose bits are `w`: a 32-bit row is an
operation word; an 8-bit row is a wire opcode or, where the byte is none, a sub-command code (the two tables of R100
and R105 share no byte). -/
def decodeTableWord (nbits w : Nat) : Option Instr :=
  if nbits = 32 then (decodeCode (.opw (BitVec.ofNat 32 w))).instr?
  else if nbits = 8 then
    (decodeCode (.wire (BitVec.ofNat 8 w))).instr?.or (decodeCode (.sub (BitVec.ofNat 8 w))).instr?
  else none

end Sys2Proof
end

