-- ==== Sys2Proof/Machine/Wire.lean ====
section
/-! DEFINITION. The wire side of SEND: what the TX sink makes of the bytes it takes. "The device determines request
boundaries from the opcode alone" (`30_encoding.md` R106): a byte taken at a request boundary is a wire opcode (R100),
which fixes the request's length (R101, R106) and, but for a passthrough, its reply's payload length (R102, R103); byte
3 of a passthrough frame is a sub-command code (R104, R105). Log entry 4. -/

namespace Sys2Proof.Machine

/-- The sink takes `op` as the opcode byte of a request of `len` bytes that calls for a reply of the given payload
length (`30_encoding.md` R100 to R103, R106). -/
def openRequest (op : Byte) (len : Nat) (reply : Option Byte) (s : State) : State :=
  { s with
    sink :=
      { stream := s.sink.stream ++ [op], request := [op], left := len - 1, reply := reply, sub := none } }

/-- The sink takes `code` as the sub-command code of the passthrough frame it is receiving; the sub-command's body has
`len` bytes (`30_encoding.md` R104, R105). -/
def takeSubCommand (code : Byte) (len : Nat) (s : State) : State :=
  { s with
    sink :=
      { s.sink with
        stream := s.sink.stream ++ [code], request := s.sink.request ++ [code], left := s.sink.left - 1
        sub := some { code := code, len := len } } }

/-- The sink is taking a passthrough frame and `i` of its bytes have come (`30_encoding.md` R104). -/
def TxSink.inPassthrough (k : TxSink) (i : Nat) : Bool :=
  k.left != 0 && k.request.head? == some 0x50 && k.request.length == i

/-- The instruction that the next byte on the TX stream is, if it is one: a wire opcode at a request boundary, a
sub-command code at byte 3 of a passthrough frame. -/
def sinkInstr (k : TxSink) (b : Byte) : Option Instr :=
  if k.left = 0 then wireOpcode b else if k.inPassthrough 3 then subCommand b else none

/-- The sink takes a byte that is no instruction. At a request boundary it is an opcode byte the spec does not list, and
how many bytes follow it is a free value (`30_encoding.md` R107; log entry 5). Inside a request it is an operand byte;
byte 7 of a passthrough frame is the reply's payload length (R104). -/
def takePlain (b : Byte) (s : State) : State :=
  { s with
    sink :=
      if s.sink.left = 0 then
        { stream := s.sink.stream ++ [b], request := [b], left := Config.unlistedLeft b, reply := none, sub := none }
      else
        { s.sink with
          stream := s.sink.stream ++ [b], request := s.sink.request ++ [b], left := s.sink.left - 1
          reply := if s.sink.inPassthrough 7 then some b else s.sink.reply } }

/-- WIRE.GET_POSITION_RA_DEC: 'E' is the whole request (`30_encoding.md` R100, R101, R106), with the reply length of R102. -/
def execWireGetPositionRaDec (s : State) : Host.Outcome State Fault Refusal := .next (openRequest 0x45 1 (some 9) s)

/-- WIRE.GET_POSITION_RA_DEC_PRECISE: 'e' is the whole request (`30_encoding.md` R100, R101, R106), with the reply length of R102. -/
def execWireGetPositionRaDecPrecise (s : State) : Host.Outcome State Fault Refusal := .next (openRequest 0x65 1 (some 17) s)

/-- WIRE.GET_POSITION_AZM_ALT: 'Z' is the whole request (`30_encoding.md` R100, R101, R106), with the reply length of R102. -/
def execWireGetPositionAzmAlt (s : State) : Host.Outcome State Fault Refusal := .next (openRequest 0x5A 1 (some 9) s)

/-- WIRE.GET_POSITION_AZM_ALT_PRECISE: 'z' is the whole request (`30_encoding.md` R100, R101, R106), with the reply length of R102. -/
def execWireGetPositionAzmAltPrecise (s : State) : Host.Outcome State Fault Refusal := .next (openRequest 0x7A 1 (some 17) s)

/-- WIRE.GOTO_POSITION_RA_DEC.STANDARD: 'R' opens a request of 10 bytes (`30_encoding.md` R100, R101, R106), with the reply length of R102. -/
def execWireGotoPositionRaDec (s : State) : Host.Outcome State Fault Refusal := .next (openRequest 0x52 10 (some 0) s)

/-- WIRE.GOTO_POSITION_RA_DEC.PRECISE: 'r' opens a request of 18 bytes (`30_encoding.md` R100, R101, R106), with the reply length of R102. -/
def execWireGotoPositionRaDecPrecise (s : State) : Host.Outcome State Fault Refusal := .next (openRequest 0x72 18 (some 0) s)

/-- WIRE.GOTO_POSITION_AZM_ALT.STANDARD: 'B' opens a request of 10 bytes (`30_encoding.md` R100, R101, R106), with the reply length of R102. -/
def execWireGotoPositionAzmAlt (s : State) : Host.Outcome State Fault Refusal := .next (openRequest 0x42 10 (some 0) s)

/-- WIRE.GOTO_POSITION_AZM_ALT.PRECISE: 'b' opens a request of 18 bytes (`30_encoding.md` R100, R101, R106), with the reply length of R102. -/
def execWireGotoPositionAzmAltPrecise (s : State) : Host.Outcome State Fault Refusal := .next (openRequest 0x62 18 (some 0) s)

/-- WIRE.SYNC.STANDARD: 'S' opens a request of 10 bytes (`30_encoding.md` R100, R101, R106), with the reply length of R103. -/
def execWireSync (s : State) : Host.Outcome State Fault Refusal := .next (openRequest 0x53 10 (some s.params.respLen.sync) s)

/-- WIRE.SYNC.PRECISE: 's' opens a request of 18 bytes (`30_encoding.md` R100, R101, R106), with the reply length of R103. -/
def execWireSyncPrecise (s : State) : Host.Outcome State Fault Refusal := .next (openRequest 0x73 18 (some s.params.respLen.sync) s)

/-- WIRE.GET_TRACKING_MODE: 't' is the whole request (`30_encoding.md` R100, R101, R106), with the reply length of R103. -/
def execWireGetTrackingMode (s : State) : Host.Outcome State Fault Refusal := .next (openRequest 0x74 1 (some s.params.respLen.getTrackingMode) s)

/-- WIRE.SET_TRACKING_MODE: 'T' opens a request of 2 bytes (`30_encoding.md` R100, R101, R106), with the reply length of R103. -/
def execWireSetTrackingMode (s : State) : Host.Outcome State Fault Refusal := .next (openRequest 0x54 2 (some s.params.respLen.setTrackingMode) s)

/-- WIRE.GET_LOCATION: 'w' is the whole request (`30_encoding.md` R100, R101, R106), with the reply length of R103. -/
def execWireGetLocation (s : State) : Host.Outcome State Fault Refusal := .next (openRequest 0x77 1 (some s.params.respLen.getLocation) s)

/-- WIRE.SET_LOCATION: 'W' opens a request of 9 bytes (`30_encoding.md` R100, R101, R106), with the reply length of R103. -/
def execWireSetLocation (s : State) : Host.Outcome State Fault Refusal := .next (openRequest 0x57 9 (some s.params.respLen.setLocation) s)

/-- WIRE.GET_TIME: 'h' is the whole request (`30_encoding.md` R100, R101, R106), with the reply length of R103. -/
def execWireGetTime (s : State) : Host.Outcome State Fault Refusal := .next (openRequest 0x68 1 (some s.params.respLen.getTime) s)

/-- WIRE.SET_TIME: 'H' opens a request of 9 bytes (`30_encoding.md` R100, R101, R106), with the reply length of R103. -/
def execWireSetTime (s : State) : Host.Outcome State Fault Refusal := .next (openRequest 0x48 9 (some s.params.respLen.setTime) s)

/-- WIRE.GET_VERSION: 'V' is the whole request (`30_encoding.md` R100, R101, R106), with the reply length of R103. -/
def execWireGetVersion (s : State) : Host.Outcome State Fault Refusal := .next (openRequest 0x56 1 (some s.params.respLen.getVersion) s)

/-- WIRE.GET_MODEL: 'm' is the whole request (`30_encoding.md` R100, R101, R106), with the reply length of R103. -/
def execWireGetModel (s : State) : Host.Outcome State Fault Refusal := .next (openRequest 0x6D 1 (some s.params.respLen.getModel) s)

/-- WIRE.ECHO: 'K' opens a request of 2 bytes (`30_encoding.md` R100, R101, R106), with the reply length of R102. -/
def execWireEcho (s : State) : Host.Outcome State Fault Refusal := .next (openRequest 0x4B 2 (some 1) s)

/-- WIRE.GET_ALIGNMENT_COMPLETE: 'J' is the whole request (`30_encoding.md` R100, R101, R106), with the reply length of R102. -/
def execWireGetAlignmentComplete (s : State) : Host.Outcome State Fault Refusal := .next (openRequest 0x4A 1 (some 1) s)

/-- WIRE.GET_GOTO_IN_PROGRESS: 'L' is the whole request (`30_encoding.md` R100, R101, R106), with the reply length of R102. -/
def execWireGetGotoInProgress (s : State) : Host.Outcome State Fault Refusal := .next (openRequest 0x4C 1 (some 1) s)

/-- WIRE.CANCEL_GOTO: 'M' is the whole request (`30_encoding.md` R100, R101, R106), with the reply length of R102. -/
def execWireCancelGoto (s : State) : Host.Outcome State Fault Refusal := .next (openRequest 0x4D 1 (some 0) s)

/-- WIRE.PASSTHROUGH: 'P' opens a request of 8 bytes (`30_encoding.md` R100, R101, R106), whose byte 7 gives the reply length (R104). -/
def execWirePassthrough (s : State) : Host.Outcome State Fault Refusal := .next (openRequest 0x50 8 none s)

/-- PTSUB.SLEW_VAR_POS: the body is [6, mag_hi, mag_lo], L = 3 (`30_encoding.md` R105, `43_passthrough.md` R254). -/
def execPtsubSlewVarPos (s : State) : Host.Outcome State Fault Refusal := .next (takeSubCommand 0x06 3 s)

/-- PTSUB.SLEW_VAR_NEG: the body is [7, mag_hi, mag_lo], L = 3 (`30_encoding.md` R105, `43_passthrough.md` R254). -/
def execPtsubSlewVarNeg (s : State) : Host.Outcome State Fault Refusal := .next (takeSubCommand 0x07 3 s)

/-- PTSUB.SLEW_FIX_POS: the body is [36, rate], L = 2 (`30_encoding.md` R105, `43_passthrough.md` R253). -/
def execPtsubSlewFixPos (s : State) : Host.Outcome State Fault Refusal := .next (takeSubCommand 0x24 2 s)

/-- PTSUB.SLEW_FIX_NEG: the body is [37, rate], L = 2 (`30_encoding.md` R105, `43_passthrough.md` R253). -/
def execPtsubSlewFixNeg (s : State) : Host.Outcome State Fault Refusal := .next (takeSubCommand 0x25 2 s)

/-- PTSUB.GET_DEVICE_VERSION: the body is [254], L = 1 (`30_encoding.md` R105, `43_passthrough.md` R255). -/
def execPtsubGetDeviceVersion (s : State) : Host.Outcome State Fault Refusal := .next (takeSubCommand 0xFE 1 s)

end Sys2Proof.Machine
end

