-- ==== Sys2Proof/Machine/Dispatch.lean ====
section
/-! DEFINITION. The meaning of every instruction: one arm per constructor of `Instr`. -/

namespace Sys2Proof.Machine

def exec (i : Instr) (s : State) : Host.Outcome State Fault Refusal :=
  match i with
  | .qnt p => Sys2Proof.Machine.execQnt p s
  | .dqnt p => Sys2Proof.Machine.execDqnt p s
  | .dmsenc => Sys2Proof.Machine.execDmsenc s
  | .dmsdec => Sys2Proof.Machine.execDmsdec s
  | .deg2sec => Sys2Proof.Machine.execDeg2sec s
  | .sec2deg => Sys2Proof.Machine.execSec2deg s
  | .fbClear => Sys2Proof.Machine.execFbClear s
  | .fbByte byte => Sys2Proof.Machine.execFbByte byte s
  | .fbUint width => Sys2Proof.Machine.execFbUint width s
  | .fbHex digits => Sys2Proof.Machine.execFbHex digits s
  | .fbDec digits => Sys2Proof.Machine.execFbDec digits s
  | .cbGetpos p m => Sys2Proof.Machine.execCbGetpos p m s
  | .cbGoto p m => Sys2Proof.Machine.execCbGoto p m s
  | .cbSync p => Sys2Proof.Machine.execCbSync p s
  | .cbGettrk => Sys2Proof.Machine.execCbGettrk s
  | .cbSettrk mode => Sys2Proof.Machine.execCbSettrk mode s
  | .cbGetloc => Sys2Proof.Machine.execCbGetloc s
  | .cbSetloc => Sys2Proof.Machine.execCbSetloc s
  | .cbGettime => Sys2Proof.Machine.execCbGettime s
  | .cbSettime dst => Sys2Proof.Machine.execCbSettime dst s
  | .cbGetver => Sys2Proof.Machine.execCbGetver s
  | .cbGetmodel => Sys2Proof.Machine.execCbGetmodel s
  | .cbEcho byte => Sys2Proof.Machine.execCbEcho byte s
  | .cbGetalign => Sys2Proof.Machine.execCbGetalign s
  | .cbGetgoto => Sys2Proof.Machine.execCbGetgoto s
  | .cbCancel => Sys2Proof.Machine.execCbCancel s
  | .ptBuild device count => Sys2Proof.Machine.execPtBuild device count s
  | .ptSlewfix device => Sys2Proof.Machine.execPtSlewfix device s
  | .ptSlewvar device => Sys2Proof.Machine.execPtSlewvar device s
  | .ptGetdevver device => Sys2Proof.Machine.execPtGetdevver device s
  | .send => Sys2Proof.Machine.execSend s
  | .recv => Sys2Proof.Machine.execRecv s
  | .ptRecv => Sys2Proof.Machine.execPtRecv s
  | .decPos p => Sys2Proof.Machine.execDecPos p s
  | .decTrk => Sys2Proof.Machine.execDecTrk s
  | .decLoc => Sys2Proof.Machine.execDecLoc s
  | .decTime => Sys2Proof.Machine.execDecTime s
  | .decEcho => Sys2Proof.Machine.execDecEcho s
  | .decAlign => Sys2Proof.Machine.execDecAlign s
  | .decGoto => Sys2Proof.Machine.execDecGoto s
  | .wireGetPositionRaDec => Sys2Proof.Machine.execWireGetPositionRaDec s
  | .wireGetPositionRaDecPrecise => Sys2Proof.Machine.execWireGetPositionRaDecPrecise s
  | .wireGetPositionAzmAlt => Sys2Proof.Machine.execWireGetPositionAzmAlt s
  | .wireGetPositionAzmAltPrecise => Sys2Proof.Machine.execWireGetPositionAzmAltPrecise s
  | .wireGotoPositionRaDec => Sys2Proof.Machine.execWireGotoPositionRaDec s
  | .wireGotoPositionRaDecPrecise => Sys2Proof.Machine.execWireGotoPositionRaDecPrecise s
  | .wireGotoPositionAzmAlt => Sys2Proof.Machine.execWireGotoPositionAzmAlt s
  | .wireGotoPositionAzmAltPrecise => Sys2Proof.Machine.execWireGotoPositionAzmAltPrecise s
  | .wireSync => Sys2Proof.Machine.execWireSync s
  | .wireSyncPrecise => Sys2Proof.Machine.execWireSyncPrecise s
  | .wireGetTrackingMode => Sys2Proof.Machine.execWireGetTrackingMode s
  | .wireSetTrackingMode => Sys2Proof.Machine.execWireSetTrackingMode s
  | .wireGetLocation => Sys2Proof.Machine.execWireGetLocation s
  | .wireSetLocation => Sys2Proof.Machine.execWireSetLocation s
  | .wireGetTime => Sys2Proof.Machine.execWireGetTime s
  | .wireSetTime => Sys2Proof.Machine.execWireSetTime s
  | .wireGetVersion => Sys2Proof.Machine.execWireGetVersion s
  | .wireGetModel => Sys2Proof.Machine.execWireGetModel s
  | .wireEcho => Sys2Proof.Machine.execWireEcho s
  | .wireGetAlignmentComplete => Sys2Proof.Machine.execWireGetAlignmentComplete s
  | .wireGetGotoInProgress => Sys2Proof.Machine.execWireGetGotoInProgress s
  | .wireCancelGoto => Sys2Proof.Machine.execWireCancelGoto s
  | .wirePassthrough => Sys2Proof.Machine.execWirePassthrough s
  | .ptsubSlewVarPos => Sys2Proof.Machine.execPtsubSlewVarPos s
  | .ptsubSlewVarNeg => Sys2Proof.Machine.execPtsubSlewVarNeg s
  | .ptsubSlewFixPos => Sys2Proof.Machine.execPtsubSlewFixPos s
  | .ptsubSlewFixNeg => Sys2Proof.Machine.execPtsubSlewFixNeg s
  | .ptsubGetDeviceVersion => Sys2Proof.Machine.execPtsubGetDeviceVersion s

end Sys2Proof.Machine
end

