-- ==== Sys2Proof/Machine/HostBus.lean ====
section
/-! DEFINITION. The register space as the host reaches it (`20_memory.md` R60 to R65), but for a write of OPW, which
starts an operation (`Machine/Lifecycle.lean`). -/

namespace Sys2Proof.Machine

/-- An access that the interface has: a 32-bit word at a multiple of 4 (`20_memory.md` R61). -/
def accessOk (size : AccessSize) (off : BitVec 12) : Bool := size == .word && off.toNat % 4 == 0

/-- Four buffer bytes as a word, the first one in bits 7:0 (`20_memory.md` R64). -/
def bufferWord (m : Memory) (o : Nat) : Word32 := m.read (o + 3) ++ m.read (o + 2) ++ m.read (o + 1) ++ m.read o

/-- The registers that a link operation writes as it goes, as a read at the offset shows them (`20_memory.md` R74): while
BUSY = 1 the old ones or the new ones, and the same ones until the next write or engine step (R65). Log entry 7. -/
def State.shownRegs (s : State) (off : BitVec 12) : LinkRegs :=
  if s.busy && !Config.showsNew s.freeCount off then s.before else s.linkRegs

/-- LO, bits 31:0 of a 64-bit register (`20_memory.md` R63). -/
def loWord (v : Word64) : Word32 := v.extractLsb' 0 32

/-- HI, bits 63:32 of a 64-bit register (`20_memory.md` R63). -/
def hiWord (v : Word64) : Word32 := v.extractLsb' 32 32

/-- What a read of the register at a word offset returns (`20_memory.md` R62, R74). A reserved offset reads 0. -/
def readRegister (s : State) (off : BitVec 12) : Word32 :=
  match off with
  | 0x000 => s.opw
  | 0x004 => statusWord { s with rxvalid := (s.shownRegs 0x004).rxvalid }
  | 0x008 => xferWord (s.shownRegs 0x008).xfer
  | 0x00C => xbyteWord (s.shownRegs 0x00C).xbyte
  | 0x010 => loWord s.opa
  | 0x014 => hiWord s.opa
  | 0x018 => loWord s.opb
  | 0x01C => hiWord s.opb
  | 0x020 => loWord s.res0
  | 0x024 => hiWord s.res0
  | 0x028 => loWord s.res1
  | 0x02C => hiWord s.res1
  | 0x030 => loWord s.res2
  | 0x034 => hiWord s.res2
  | 0x038 => loWord s.res3
  | 0x03C => hiWord s.res3
  | 0x040 => s.txlen.zeroExtend 32
  | 0x044 => s.explen.zeroExtend 32
  | 0x048 => (s.shownRegs 0x048).rxlen.zeroExtend 32
  | 0x04C => s.echoref.zeroExtend 32
  | 0x050 => s.timeout
  | _ =>
    if isBufferAddr off.toNat then
      bufferWord (if off.toNat < Config.rxBase then s.mem else (s.shownRegs off).mem) off.toNat
    else 0

/-- `HostRead(off)` of an aligned word (`20_memory.md` R61, R65): no register changes, and `busData` takes the word. -/
def hostRead (off : BitVec 12) (s : State) : State := { s with busData := some (readRegister s off) }

/-- `HostWrite(off, v)` of an aligned word other than OPW (`20_memory.md` R62, R63, R65): a read-only or reserved offset
ignores it, and STATUS takes a 1 in bit 2 as 'clear COLL'. -/
def writeRegister (off : BitVec 12) (v : Word32) (s : State) : State :=
  match off with
  | 0x004 => if v.getLsbD 2 then { s with coll := false } else s
  | 0x010 => { s with opa := hiWord s.opa ++ v }
  | 0x014 => { s with opa := v ++ loWord s.opa }
  | 0x018 => { s with opb := hiWord s.opb ++ v }
  | 0x01C => { s with opb := v ++ loWord s.opb }
  | 0x044 => { s with explen := v.extractLsb' 0 8 }
  | 0x050 => { s with timeout := v }
  | _ => s

end Sys2Proof.Machine
end

