-- ==== Sys2Proof/Machine/Lifecycle.lean ====
section
/-! DEFINITION. The lifecycle of an operation (`30_encoding.md` R95 to R97) and the moves of the agents
(`00_scope.md` R7): the OPW write, SEND's steps with the TX sink, the engine, the timeout source, reset. -/

namespace Sys2Proof.Machine

/-- A write of OPW (`30_encoding.md` R95, R96): while BUSY = 1 the word is dropped and COLL set; else it is accepted,
decoded, and executed or refused as ILLEGAL. -/
def writeOpw (w : Word32) (s : State) : Host.Outcome State Fault Refusal :=
  if s.busy then .next { s with coll := true }
  else
    match decode w with
    | .op i => exec i (accept w s)
    | .illegal d => finish (accept w s) (.error (.illegal d))
    | .unlisted _ => finish (accept w s) (.error (.illegal .rsvdFunc))

/-- SEND goes on to the next byte, or completes after the last one (`42_response_framer.md` R210). -/
def advanceSend (l : Latch) (i : Nat) (s : State) : State :=
  if i + 1 < s.txlen.toNat then { s with inflight := some { latch := l, activity := .send (i + 1) } } else complete s

/-- What follows an outcome's next state. -/
def thenNext (o : Host.Outcome State Fault Refusal) (f : State → State) : Host.Outcome State Fault Refusal :=
  match o with
  | .next t => .next (f t)
  | .fault r => .fault r
  | .refused r => .refused r

/-- `TX_emit(TXBUF[i])` (`00_scope.md` R9, `42_response_framer.md` R210): the TX sink takes the byte, as the
instruction it is at its place on the TX stream or as a plain byte, and SEND goes on. -/
def emitByte (l : Latch) (i : Nat) (s : State) : Host.Outcome State Fault Refusal :=
  if s.txlen.toNat ≤ i then .next (complete s)
  else if Config.txCap ≤ i then .fault .noSuchByte
  else
    match sinkInstr s.sink (s.txByte i) with
    | some j => thenNext (exec j s) (advanceSend l i)
    | none => .next (advanceSend l i (takePlain (s.txByte i) s))

/-- The TX sink's turn: it takes the byte that SEND offers, if SEND is in flight. -/
def sinkStep (s : State) : Host.Outcome State Fault Refusal :=
  match s.inflight with
  | some f =>
    match f.activity with
    | .send i => emitByte f.latch i s
    | .recv _ _ => .next s
    | .ptRecv _ _ => .next s
    | .ptRecovery _ _ => .next s
  | none => .next s

/-- The engine's turn on the RX side, if a read is in flight. -/
def engineTurn (s : State) : State :=
  match s.inflight with
  | some f => engineStep f s
  | none => s

/-- The timeout source's turn, if an attempt is in flight (`60_exceptions.md` R301). -/
def timeoutTurn (s : State) : State :=
  match s.inflight with
  | some f => expireAttempt f s
  | none => s

/-- Reset is asserted (`70_reset_and_hazards.md` R320): any in-flight operation is abandoned and every register takes its
reset value. The RX stream, the TX sink, the parameters and what is not NXPE's stay. -/
def resetMachine (s : State) : State :=
  { State.reset with
    rx := s.rx, sink := s.sink, params := s.params, events := s.events, busData := s.busData, freeCount := s.freeCount }

/-- A write or an engine step is being made: reads before it and after it need not agree while BUSY = 1
(`20_memory.md` R65, R74). Log entry 7. -/
def tick (s : State) : State := { s with freeCount := s.freeCount + 1 }

/-- One agent's move. -/
def agentMove (e : Event) (s : State) : Host.Outcome State Fault Refusal :=
  match e with
  | .hostRead size off => if accessOk size off then .next (hostRead off s) else .refused .outsideInterface
  | .hostWrite size off v =>
    if accessOk size off then (if off = 0x000 then writeOpw v (tick s) else .next (writeRegister off v (tick s)))
    else .refused .outsideInterface
  | .engine => .next (engineTurn (tick s))
  | .txTake => sinkStep (tick s)
  | .rxAppend bytes => .next { s with rx := s.rx ++ bytes }
  | .timeout => .next (timeoutTurn (tick s))
  | .reset => .next (resetMachine (tick s))

/-- An attempt in flight with no agent's move pending. `60_exceptions.md` R301: every attempt ends, because it takes its
bytes or because the timeout source fires; so the engine takes the byte that is waiting, and where none is waiting, none
is on its way either, and the timeout source fires. -/
def attemptGoesOn (f : InFlight) (s : State) : State :=
  match s.rx with
  | [] => expireAttempt f s
  | _ :: _ => engineStep f s

/-- What happens when no agent has a pending move: a link operation in flight goes on by itself to its end, by the two
fairness premises (a SEND because the TX sink takes every byte in the end, `10_state.md` R42; a read because every attempt
ends, `60_exceptions.md` R301), and an idle NXPE stays as it is (R305). A list of moves is finite, so every operation of
every run completes. Log entries 2 and 6. -/
def unattended (s : State) : Host.Outcome State Fault Refusal :=
  match s.inflight with
  | some f =>
    match f.activity with
    | .send i => emitByte f.latch i (tick s)
    | .recv _ _ => .next (attemptGoesOn f (tick s))
    | .ptRecv _ _ => .next (attemptGoesOn f (tick s))
    | .ptRecovery _ _ => .next (attemptGoesOn f (tick s))
  | none => .next s

/-- Where a 32-bit row's word comes to execution: the host's next move writes it to OPW of an idle NXPE. -/
def placeOperation (w : Word32) (s : State) : State :=
  { s with inflight := none, events := .hostWrite .word 0x000 w :: s.events }

/-- Where a wire opcode comes to execution: SEND is about to emit it as byte 0 of a request, with zeros after it in
TXBUF, and the TX sink, at a request boundary, takes it next. -/
def placeWireOpcode (b : Byte) (s : State) : State :=
  { startLink (.send 0) { s with mem := s.mem.writeList (txAddr 0) (b :: List.replicate 17 0), txlen := 1 } with
    sink := { s.sink with left := 0 }
    events := .txTake :: s.events }

/-- Where a sub-command code comes to execution: SEND is about to emit it as byte 3 of a passthrough frame of which the
TX sink has taken three bytes, with zeros after it, and the TX sink takes it next. -/
def placeSubCommand (b : Byte) (s : State) : State :=
  { startLink (.send 3) { s with mem := s.mem.writeList (txAddr 0) [0x50, 1, 0, b, 0, 0, 0, 0], txlen := 8 } with
    sink := { s.sink with request := [0x50, 1, 0], left := 5, reply := none, sub := none }
    events := .txTake :: s.events }

/-- A row of `spec/opcode_table.json` with the bits `w`, placed where the next step fetches it: an operation word for
32 bits, a wire opcode or else a sub-command code for 8 bits. Log entry 3. -/
def placeWord (s : State) (nbits w : Nat) : State :=
  if nbits = 32 then placeOperation (BitVec.ofNat 32 w) s
  else if (wireOpcode (BitVec.ofNat 8 w)).isSome then placeWireOpcode (BitVec.ofNat 8 w) s
  else placeSubCommand (BitVec.ofNat 8 w) s

end Sys2Proof.Machine
end

