-- ==== Sys2Proof/Machine/Step.lean ====
section
/-! DEFINITION. One step of NXPE and its environment: the next pending move, or what goes on by itself. -/

namespace Sys2Proof.Machine

/-- One step (`00_scope.md` R7): the first pending move is taken off and made; with none pending, the link operation in
flight goes on. Log entry 2. -/
def step (s : State) : Host.Outcome State Fault Refusal :=
  match s.events with
  | [] => unattended s
  | e :: rest => agentMove e { s with events := rest }

/-- The state in which the very next step fetches and runs the table row with these bits. Log entry 3. -/
def State.withFetchWord (s : State) (nbits w : Nat) : State := placeWord s nbits w

end Sys2Proof.Machine
end

