-- ==== Sys2Proof/Machine/HostProgram.lean ====
section
/-! DEFINITION. The host syntax and its pseudo-operations (`30_encoding.md` R108): statements, the agents' moves that a
statement stands for, and the expansion of the client operations. The host's own control flow (polling until BUSY = 0,
stopping at an error) is outside NXPE (R98, `00_scope.md` R4). -/

namespace Sys2Proof.Machine

/-- The registers that `wr` and `rd` name (`20_memory.md` R62). -/
inductive HostReg where
  | status | xfer | xbyte | opa | opb | res0 | res1 | res2 | res3 | txlen | explen | rxlen | echoref | timeout
deriving DecidableEq, Repr

/-- The offset of a register, of its LO half where it has 64 bits (`20_memory.md` R62). -/
def HostReg.offset : HostReg → BitVec 12
  | .status => 0x004
  | .xfer => 0x008
  | .xbyte => 0x00C
  | .opa => 0x010
  | .opb => 0x018
  | .res0 => 0x020
  | .res1 => 0x028
  | .res2 => 0x030
  | .res3 => 0x038
  | .txlen => 0x040
  | .explen => 0x044
  | .rxlen => 0x048
  | .echoref => 0x04C
  | .timeout => 0x050

/-- The register has a LO and a HI half (`20_memory.md` R63). -/
def HostReg.isWide : HostReg → Bool
  | .opa | .opb | .res0 | .res1 | .res2 | .res3 => true
  | .status | .xfer | .xbyte | .txlen | .explen | .rxlen | .echoref | .timeout => false

/-- A value in a host program: a literal, or one that the host kept. -/
inductive HostVal where
  | lit (v : Word64)
  | kept (n : Nat)
deriving DecidableEq, Repr

/-- A host statement (`30_encoding.md` R108). -/
inductive HostStmt where
  /-- `wr <REG>, <value>`. -/
  | wr (r : HostReg) (v : HostVal)
  /-- `rd <REG>`; the host keeps the value read under a number. -/
  | rd (r : HostReg) (n : Nat)
  /-- `op <MNEMONIC>...`. -/
  | op (i : Instr)
  /-- `wait`: the host repeats `rd STATUS` until BUSY = 0. -/
  | wait
  /-- `rx <bytes>`. -/
  | rx (bytes : List Byte)
  /-- `tmo`. -/
  | tmo
deriving DecidableEq, Repr

/-- The word that `op` writes (`30_encoding.md` R108); a WIRE or PTSUB byte is no host operation. -/
def hostWord : Code → Option Word32
  | .opw w => some w
  | .wire _ => none
  | .sub _ => none

/-- The value of a host operand, with the values the host has kept. -/
def HostVal.value (kept : List Word64) : HostVal → Word64
  | .lit v => v
  | .kept n => kept.getD n 0

/-- The moves a statement stands for (`30_encoding.md` R108). `wait` is one round of its poll. -/
def HostStmt.moves (kept : List Word64) : HostStmt → List Event
  | .wr r v =>
    if r.isWide then
      [.hostWrite .word r.offset ((v.value kept).extractLsb' 0 32),
       .hostWrite .word (r.offset + 4) ((v.value kept).extractLsb' 32 32)]
    else [.hostWrite .word r.offset ((v.value kept).extractLsb' 0 32)]
  | .rd r _ =>
    if r.isWide then [.hostRead .word r.offset, .hostRead .word (r.offset + 4)] else [.hostRead .word r.offset]
  | .op i => (hostWord (encode i)).toList.map fun w => .hostWrite .word 0x000 w
  | .wait => [.hostRead .word HostReg.status.offset]
  | .rx bytes => [.rxAppend bytes]
  | .tmo => [.timeout]

/-- The pseudo-operations of `30_encoding.md` R108. -/
inductive Pseudo where
  | xact
  | ptxact
  | getPosition (p : Precision) (m : CoordMode)
  | gotoPosition (p : Precision) (m : CoordMode) (x y : HostVal)
  | sync (p : Precision) (x y : HostVal)
  | getTrackingMode
  | setTrackingMode (mode : Byte)
  | getLocation
  | setLocation (x y : HostVal)
  | getTime
  | setTime (w off : HostVal) (dst : Byte)
  | echo (b : Byte)
  | getAlignmentComplete
  | getGotoInProgress
  | cancelGoto
  | getVersion
  | getModel
  | slewFixed (dev : Byte) (r : HostVal)
  | slewVariable (dev : Byte) (r : HostVal)
  | getDeviceVersion (dev : Byte)
deriving DecidableEq, Repr

/-- `xact` (`30_encoding.md` R108). -/
def xactStmts : List HostStmt := [.op .send, .wait, .op .recv, .wait]

/-- `ptxact` (`30_encoding.md` R108). -/
def ptxactStmts : List HostStmt := [.op .send, .wait, .op .ptRecv, .wait]

/-- One DMS word of RES0 to degrees, as `getLocation` does for each axis: the host keeps the degrees under `n`. -/
def dmsToDegreesStmts (word n : Nat) : List HostStmt :=
  [.wr .opa (.kept word), .op .dmsdec, .rd .res0 n, .wr .opa (.kept n), .op .sec2deg, .rd .res0 n]

/-- One angle in degrees to a DMS word, as `setLocation` does for each axis: the host keeps the word under `n`. -/
def degreesToDmsStmts (x : HostVal) (n : Nat) : List HostStmt :=
  [.wr .opa x, .op .deg2sec, .rd .res0 n, .wr .opa (.kept n), .op .dmsenc, .rd .res0 n]

/-- The expansion of a pseudo-operation (`30_encoding.md` R108). -/
def Pseudo.expand : Pseudo → List HostStmt
  | .xact => xactStmts
  | .ptxact => ptxactStmts
  | .getPosition p m => [.op (.cbGetpos p m)] ++ xactStmts ++ [.op (.decPos p)]
  | .gotoPosition p m x y => [.wr .opa x, .wr .opb y, .op (.cbGoto p m)] ++ xactStmts
  | .sync p x y => [.wr .opa x, .wr .opb y, .op (.cbSync p)] ++ xactStmts
  | .getTrackingMode => [.op .cbGettrk] ++ xactStmts ++ [.op .decTrk]
  | .setTrackingMode mode => [.op (.cbSettrk mode)] ++ xactStmts
  | .getLocation =>
    [.op .cbGetloc] ++ xactStmts ++ [.op .decLoc, .rd .res0 0, .rd .res1 1] ++ dmsToDegreesStmts 0 2 ++ dmsToDegreesStmts 1 3
  | .setLocation x y =>
    degreesToDmsStmts x 0 ++ degreesToDmsStmts y 1 ++ [.wr .opa (.kept 0), .wr .opb (.kept 1), .op .cbSetloc] ++ xactStmts
  | .getTime => [.op .cbGettime] ++ xactStmts ++ [.op .decTime]
  | .setTime w off dst => [.wr .opa w, .wr .opb off, .op (.cbSettime dst)] ++ xactStmts
  | .echo b => [.op (.cbEcho b)] ++ xactStmts ++ [.op .decEcho]
  | .getAlignmentComplete => [.op .cbGetalign] ++ xactStmts ++ [.op .decAlign]
  | .getGotoInProgress => [.op .cbGetgoto] ++ xactStmts ++ [.op .decGoto]
  | .cancelGoto => [.op .cbCancel] ++ xactStmts
  | .getVersion => [.op .cbGetver] ++ xactStmts
  | .getModel => [.op .cbGetmodel] ++ xactStmts
  | .slewFixed dev r => [.wr .opa r, .op (.ptSlewfix dev)] ++ ptxactStmts
  | .slewVariable dev r => [.wr .opa r, .op (.ptSlewvar dev)] ++ ptxactStmts
  | .getDeviceVersion dev => [.op (.ptGetdevver dev)] ++ ptxactStmts

end Sys2Proof.Machine
end

