-- ==== Sys2Proof/Safety.lean ====
section
/-! DEFINITION. What counts as a safe state, and the terms the claims are stated in: what a meaning does to the state
and to the buffers, the exact value of a binary64 pattern, and rounding, each said without the model's own functions. -/

namespace Sys2Proof.Machine

/-- Every byte outside the `n` bytes from `a` on reads as before. -/
def KeptOutside (m m' : Memory) (a n : Nat) : Prop :=
  ∀ x, x < a ∨ a + n ≤ x → m'.read x = m.read x

/-! ### Safe states -/

/-- A framing read is under way, so that RXBUF is being filled. -/
def filling (s : State) : Bool :=
  match s.inflight with
  | some { activity := .recv _ _, .. } => true
  | some { activity := .ptRecv _ _, .. } => true
  | some { activity := .send _, .. } => false
  | some { activity := .ptRecovery _ _, .. } => false
  | none => false

/-- A framing read in flight has stored `k` bytes and written nothing else yet (`42_response_framer.md` R211). -/
def readingOk (s : State) (l : Latch) (k : Nat) (timer : Word32) : Prop :=
  k < frameLen l.e ∧ timer = l.t ∧ s.xfer = { expLen := 0, actLen := 0 } ∧
    s.xbyte = { last := 0, recByte := 0, recGot := false } ∧
    s.before = { s.linkRegs with mem := s.before.mem } ∧ KeptOutside s.before.mem s.mem (rxAddr 0) k

/-- The rest of the state agrees with the operation in flight (`10_state.md` R33, R40, `43_passthrough.md` R256), and the
old values of a read while BUSY = 1 differ only where the operation has written (`20_memory.md` R74). -/
def activityOk (s : State) (f : InFlight) : Prop :=
  match f.activity with
  | .send i =>
    i < s.txlen.toNat ∧ s.rxvalid = false ∧ s.rxlen = 0 ∧
      s.before = { s.linkRegs with rxlen := s.before.rxlen, rxvalid := s.before.rxvalid }
  | .recv k timer => readingOk s f.latch k timer
  | .ptRecv k timer => readingOk s f.latch k timer
  | .ptRecovery o1 timer =>
    timer = f.latch.t ∧ s.rxvalid = false ∧ s.rxlen = 0 ∧ s.xfer.expLen.toNat = frameLen f.latch.e ∧
      (o1 = .short ↔ s.xfer.actLen.toNat < frameLen f.latch.e) ∧ s.xbyte.recGot = false ∧
      KeptOutside s.before.mem s.mem (rxAddr 0) s.xfer.actLen.toNat

/-- The invariant of NXPE. -/
structure Sound (s : State) : Prop where
  /-- The buffers' bytes are in canonical form. -/
  memWf : s.mem.wf = true
  /-- Every listed byte belongs to TXBUF or RXBUF (`20_memory.md` R62). -/
  memMapped : s.mem.mapped = true
  /-- TXLEN is 0..32 (`10_state.md` R27). -/
  txlenLe : s.txlen.toNat ≤ Config.txCap
  /-- A frame that passed the framing contract ends with the terminator (`10_state.md` R24, R29, R33). -/
  frameHeld : s.rxvalid = true → filling s = false → s.rxByte s.rxlen.toNat = Config.term
  /-- The operation in flight agrees with the registers. -/
  activity : ∀ f, s.inflight = some f → activityOk s f
  /-- BUSY and DONE are never both 1 (`10_state.md` R24, `30_encoding.md` R95). -/
  busyNotDone : s.busy = true → s.done = false
  /-- An error is reported only with DONE (`60_exceptions.md` R285). -/
  errorDone : s.done = false → s.error = none ∧ s.recov = false
  /-- RECOV stands only with a framing error (`10_state.md` R24). -/
  recovCause : s.recov = true → s.error = some (.protocol .short) ∨ s.error = some (.protocol .badTerm)
  /-- XFER's lengths: at most N+1 bytes arrived of the N+1 asked for, N+1 at most 256 (`10_state.md` R25). -/
  xferLe : s.xfer.actLen.toNat ≤ s.xfer.expLen.toNat ∧ s.xfer.expLen.toNat ≤ Config.rxCap
  /-- REC_BYTE is 0 unless a recovery byte was received (`10_state.md` R26). -/
  recByte : s.xbyte.recGot = false → s.xbyte.recByte = 0
  /-- The old bytes of a read while BUSY = 1 are in canonical form too, and in the buffers. -/
  beforeMem : s.before.mem.wf = true ∧ s.before.mem.mapped = true

/-- A pending host access is one that the interface has (`20_memory.md` R61). -/
def eventOk : Event → Bool
  | .hostRead size off => accessOk size off
  | .hostWrite size off _ => accessOk size off
  | .engine => true
  | .txTake => true
  | .rxAppend _ => true
  | .timeout => true
  | .reset => true

/-! ### What a meaning does -/

/-- `bs` stands in the buffers from the register offset `a` on. -/
def Stored (m : Memory) (a : Nat) (bs : List Byte) : Prop :=
  ∀ i, ∀ h : i < bs.length, m.read (a + i) = bs[i]

/-- The meaning completes with RES0 written and nothing else but DONE and BUSY. -/
def Answers (i : Instr) (s : State) (v : Word64) : Prop :=
  exec i s = .next { s with res0 := v, done := true, inflight := none }

/-- The meaning raises an error and writes nothing besides STATUS. -/
def Raises (i : Instr) (s : State) (e : OpError) : Prop :=
  exec i s = .next { s with error := some e, done := true, inflight := none }

/-- The meaning puts a request frame into TXBUF from its start, with TXLEN its length and EXPLEN its reply's length
(`41_command_builder.md` R166); every other register is unchanged, and so is every other buffer byte. -/
def Builds (i : Instr) (s : State) (frame : List Byte) (n : Byte) : Prop :=
  ∃ m : Memory,
    exec i s =
        .next { s with mem := m, txlen := BitVec.ofNat 6 frame.length, explen := n, done := true, inflight := none } ∧
      Stored m (txAddr 0) frame ∧ KeptOutside s.mem m (txAddr 0) frame.length

/-- The meaning appends bytes to the frame (`41_command_builder.md` R160); every other register is unchanged, EXPLEN
among them, and so is every other buffer byte. -/
def Appends (i : Instr) (s : State) (bs : List Byte) : Prop :=
  ∃ m : Memory,
    exec i s =
        .next { s with mem := m, txlen := BitVec.ofNat 6 (s.txlen.toNat + bs.length), done := true, inflight := none } ∧
      Stored m (txAddr s.txlen.toNat) bs ∧ KeptOutside s.mem m (txAddr s.txlen.toNat) bs.length

/-- The state after the OPW write of `w` was accepted (`30_encoding.md` R95), said field by field. -/
def accepted (w : Word32) (s : State) : State :=
  { s with
    opw := w, done := false, error := none, recov := false
    xfer := { expLen := 0, actLen := 0 }, xbyte := { last := 0, recByte := 0, recGot := false } }

/-! ### Values -/

/-- The binary64 pattern is neither an infinity nor a NaN (`00_scope.md` R10). -/
def f64Finite (x : Word64) : Prop := x.toNat / 2 ^ 52 % 2 ^ 11 ≠ 2047

/-- `val(x)` (`00_scope.md` R10): the exact real value of a finite binary64 pattern. -/
def f64Val (x : Word64) : ℚ :=
  (if x.toNat < 2 ^ 63 then 1 else -1) *
    ((if x.toNat / 2 ^ 52 % 2 ^ 11 = 0 then x.toNat % 2 ^ 52 else 2 ^ 52 + x.toNat % 2 ^ 52 : ℕ) : ℚ) *
    2 ^ ((max (x.toNat / 2 ^ 52 % 2 ^ 11) 1 : ℕ) - 1075 : ℤ)

/-- `RNE(r) = q` (`00_scope.md` R10): the nearest integer, the even one at a tie. -/
def IsRne (r : ℚ) (q : ℤ) : Prop := |r - q| ≤ 1 / 2 ∧ (|r - q| = 1 / 2 → Even q)

/-- A magnitude that binary64 has, but for the upper bound of its exponent (log entry 13): `m * 2^e`. -/
def F64Mag (m : ℕ) (e : ℤ) : Prop := m < 2 ^ 53 ∧ -1074 ≤ e

/-- `fl64(r) = v` (`00_scope.md` R10) for a magnitude `r`: no binary64 magnitude is nearer, and where another is as near,
the significand of `v` is even. -/
def IsFl64 (r v : ℚ) : Prop :=
  ∃ (m : ℕ) (e : ℤ), F64Mag m e ∧ (2 ^ 52 ≤ m ∨ e = -1074) ∧ v = m * 2 ^ e ∧
    ∀ (m' : ℕ) (e' : ℤ), F64Mag m' e' →
      |r - v| ≤ |r - m' * 2 ^ e'| ∧ (|r - m' * 2 ^ e'| = |r - v| → (m' : ℚ) * 2 ^ e' ≠ v → Even m)

/-- `round_ARITH(x / 360 * 2^n) = q` (`00_scope.md` R11). -/
def RoundsAngle (ar : Arith) (n : ℕ) (x : ℚ) (q : ℤ) : Prop :=
  match ar with
  | .exact => IsRne (x / 360 * 2 ^ n) q
  | .binary64 => ∃ v1 v2 : ℚ, IsFl64 (x / 360) v1 ∧ IsFl64 (v1 * 2 ^ n) v2 ∧ IsRne v2 q

/-- `round_ARITH(x * 3600) = q` for a magnitude `x` (`00_scope.md` R11, `40_transform.md` R139). -/
def RoundsSeconds (ar : Arith) (x : ℚ) (q : ℤ) : Prop :=
  match ar with
  | .exact => IsRne (x * 3600) q
  | .binary64 => ∃ v : ℚ, IsFl64 (x * 3600) v ∧ IsRne v q

/-- `round_ARITH(x * 3600 * 4) = q` for a magnitude `x` (`00_scope.md` R11, `43_passthrough.md` R254). -/
def RoundsRate (ar : Arith) (x : ℚ) (q : ℤ) : Prop :=
  match ar with
  | .exact => IsRne (x * 3600 * 4) q
  | .binary64 => ∃ v1 v2 : ℚ, IsFl64 (x * 3600) v1 ∧ IsFl64 (v1 * 4) v2 ∧ IsRne v2 q

/-- `Q_n(x) = c` (`40_transform.md` R130): the rounded code, saturated at the top half-step. -/
def Quantizes (ar : Arith) (n : ℕ) (x : ℚ) (c : ℕ) : Prop :=
  c < 2 ^ n ∧ (RoundsAngle ar n x c ∨ (c = 2 ^ n - 1 ∧ RoundsAngle ar n x (2 ^ n)))

/-- The angle is one the quantizer takes: finite, 0 <= val < 360 (`40_transform.md` R130). -/
def InCircle (x : Word64) : Prop := f64Finite x ∧ 0 ≤ f64Val x ∧ f64Val x < 360

/-- The value of a text of digit characters in a base, most significant first; letters A to F are 10 to 15. -/
def textValue (base : ℕ) (bs : List Byte) : ℕ :=
  bs.foldl (fun acc b => acc * base + (if b.toNat < 0x41 then b.toNat - 0x30 else b.toNat - 0x37)) 0

/-- Every byte is an uppercase digit character of the base (`00_scope.md` R10). -/
def DigitText (base : ℕ) (bs : List Byte) : Prop :=
  ∀ b ∈ bs, (0x30 ≤ b.toNat ∧ b.toNat ≤ 0x39 ∧ b.toNat - 0x30 < base) ∨ (0x41 ≤ b.toNat ∧ b.toNat - 0x37 < base)

/-- `hexN(c, d)` (`00_scope.md` R10): d uppercase hex characters whose value is c. -/
def IsHexText (c d : ℕ) (bs : List Byte) : Prop := bs.length = d ∧ DigitText 16 bs ∧ textValue 16 bs = c

/-- `AngleText(x, P)` (`41_command_builder.md` R167). -/
def IsAngleText (ar : Arith) (p : Precision) (x : Word64) (bs : List Byte) : Prop :=
  ∃ c : ℕ, Quantizes ar (codeBits p) (f64Val x) c ∧ IsHexText c (hexDigits p) bs

/-- One hex digit character of either case and its value (`42_response_framer.md` R221). -/
def IsHexDigit (b : Byte) (v : ℕ) : Prop :=
  (0x30 ≤ b.toNat ∧ b.toNat ≤ 0x39 ∧ v = b.toNat - 0x30) ∨ (0x41 ≤ b.toNat ∧ b.toNat ≤ 0x46 ∧ v = b.toNat - 0x41 + 10) ∨
    (0x61 ≤ b.toNat ∧ b.toNat ≤ 0x66 ∧ v = b.toNat - 0x61 + 10)

/-- `HexVal(s) = c` (`42_response_framer.md` R221): every byte is a hex digit, and the digits, most significant first,
have the value c. -/
def HexReads (bs : List Byte) (c : ℕ) : Prop :=
  ∃ ds : List ℕ, List.Forall₂ IsHexDigit bs ds ∧ ds.foldl (fun acc d => acc * 16 + d) 0 = c

/-- The binary64 pattern is +0.0 or above, finite, with the exact value `v` (`00_scope.md` R10). -/
def IsF64 (x : Word64) (v : ℚ) : Prop := f64Finite x ∧ x.toNat < 2 ^ 63 ∧ f64Val x = v

/-! ### The host's side -/

/-- The host's read of the register at `off` returns `v` and changes nothing (`20_memory.md` R61, R65). -/
def HostReads (s : State) (off : BitVec 12) (v : Word32) : Prop :=
  ∀ rest, step { s with events := .hostRead .word off :: rest } = .next { s with events := rest, busData := some v }

/-- The host's write of `v` at `off` makes the state `t`, but for the move taken off and the count of moves
(`20_memory.md` R61, R65). -/
def HostWrites (s : State) (off : BitVec 12) (v : Word32) (t : State) : Prop :=
  ∀ rest, step { s with events := .hostWrite .word off v :: rest } =
    .next { t with events := rest, freeCount := s.freeCount + 1 }

/-- The state in which a move that is a write or an engine step runs: the move is taken off, and it is counted. -/
def moved (rest : List Event) (s : State) : State := { s with events := rest, freeCount := s.freeCount + 1 }

/-- `n` steps, up to the first fault or refusal. -/
def runSteps : ℕ → State → Host.Outcome State Fault Refusal
  | 0, s => .next s
  | n + 1, s =>
    match step s with
    | .next t => runSteps n t
    | .fault r => .fault r
    | .refused r => .refused r

/-- The first `n` bytes of the frame in TXBUF. -/
def txFrame (s : State) (n : ℕ) : List Byte := (List.range n).map s.txByte

/-- The operation makes the whole request frame of a command (`41_command_builder.md` R166). -/
def isBuilder : Instr → Bool
  | .cbGetpos _ _ | .cbGoto _ _ | .cbSync _ | .cbGettrk | .cbSettrk _ | .cbGetloc | .cbSetloc | .cbGettime
  | .cbSettime _ | .cbGetver | .cbGetmodel | .cbEcho _ | .cbGetalign | .cbGetgoto | .cbCancel
  | .ptBuild _ _ | .ptSlewfix _ | .ptSlewvar _ | .ptGetdevver _ => true
  | .qnt _ | .dqnt _ | .dmsenc | .dmsdec | .deg2sec | .sec2deg | .fbClear | .fbByte _ | .fbUint _ | .fbHex _
  | .fbDec _ | .send | .recv | .ptRecv | .decPos _ | .decTrk | .decLoc | .decTime | .decEcho | .decAlign
  | .decGoto | .wireGetPositionRaDec | .wireGetPositionRaDecPrecise | .wireGetPositionAzmAlt
  | .wireGetPositionAzmAltPrecise | .wireGotoPositionRaDec | .wireGotoPositionRaDecPrecise
  | .wireGotoPositionAzmAlt | .wireGotoPositionAzmAltPrecise | .wireSync | .wireSyncPrecise
  | .wireGetTrackingMode | .wireSetTrackingMode | .wireGetLocation | .wireSetLocation | .wireGetTime
  | .wireSetTime | .wireGetVersion | .wireGetModel | .wireEcho | .wireGetAlignmentComplete
  | .wireGetGotoInProgress | .wireCancelGoto | .wirePassthrough | .ptsubSlewVarPos | .ptsubSlewVarNeg
  | .ptsubSlewFixPos | .ptsubSlewFixNeg | .ptsubGetDeviceVersion => false

/-! ### Operation words -/

/-- `FUNC | P<<8 | M<<9 | imm8<<16 | imm8b<<24` (`30_encoding.md` R90, R108). -/
def fieldWord (f p m x y : ℕ) : Word32 := BitVec.ofNat 32 (f + p * 2 ^ 8 + m * 2 ^ 9 + x * 2 ^ 16 + y * 2 ^ 24)

/-- The word with these fields is the operation's encoding (`30_encoding.md` R90, R92). -/
def EncodedAs (i : Instr) (f p m x y : ℕ) : Prop := decode (fieldWord f p m x y) = .op i

/-- The FUNC values of `30_encoding.md` R92. -/
def listedFuncs : List Byte :=
  [0x10, 0x11, 0x20, 0x21, 0x22, 0x23, 0x30, 0x31, 0x32, 0x33, 0x34, 0x40, 0x41, 0x42, 0x43, 0x44, 0x45, 0x46, 0x47, 0x48,
    0x49, 0x4A, 0x4B, 0x4C, 0x4D, 0x4E, 0x50, 0x51, 0x52, 0x53, 0x60, 0x61, 0x62, 0x70, 0x71, 0x72, 0x73, 0x74, 0x75, 0x76]

/-- The FUNC values that use P, M, IMM8 and IMM8B (`30_encoding.md` R92). -/
def funcsWithP : List Byte := [0x10, 0x11, 0x40, 0x41, 0x42, 0x70]
def funcsWithM : List Byte := [0x40, 0x41]
def funcsWithImm8 : List Byte := [0x31, 0x32, 0x33, 0x34, 0x44, 0x48, 0x4B, 0x50, 0x51, 0x52, 0x53]
def funcsWithImm8b : List Byte := [0x50]

end Sys2Proof.Machine
end

