-- ==== Sys2Proof/Certificates/Slice0/Obligations.lean ====
section
/-! DEFINITION. The statements for the provers. Each is stated in the terms of `Sys2Proof/Safety.lean` and of the rules of
spec/ that it cites, for every state that meets its premises. `s.mem.wf = true` (the buffers' bytes are in canonical
form) and `Sound s` hold at reset and are kept by every step: `SoundAfterReset`, `StepKeepsSound`. -/

open Sys2Proof Sys2Proof.Machine

/-! ### Encoding -/

/-- `30_encoding.md` R90 to R94, R100, R105: decoding the encoding of any instruction gives it back. -/
def Obligations.DecodeInvertsEncode : Prop :=
  ∀ i : Instr, decodeCode (encode i) = .op i

/-- `30_encoding.md` R90 to R94, R100, R105: a code that decodes to an instruction is that instruction's encoding, so no
bit of a code is dropped. -/
def Obligations.EncodeInvertsDecode : Prop :=
  ∀ (c : Code) (i : Instr), decodeCode c = .op i → encode i = c

/-- `30_encoding.md` R94: decoding is total, the first failing check names the error, and a word that passes them all is
the word of its operation. -/
def Obligations.DecodeRejectsReservedWords : Prop :=
  ∀ w : Word32,
    (w.extractLsb' 0 8 ∉ listedFuncs → decode w = .illegal .rsvdFunc) ∧
    (w.extractLsb' 0 8 ∈ listedFuncs → w.extractLsb' 10 6 ≠ 0#6 → decode w = .illegal .rsvdBits) ∧
    (w.extractLsb' 0 8 ∈ listedFuncs → w.extractLsb' 10 6 = 0#6 →
      ((w.getLsbD 8 = true ∧ w.extractLsb' 0 8 ∉ funcsWithP) ∨ (w.getLsbD 9 = true ∧ w.extractLsb' 0 8 ∉ funcsWithM) ∨
          (w.extractLsb' 16 8 ≠ 0#8 ∧ w.extractLsb' 0 8 ∉ funcsWithImm8) ∨
          (w.extractLsb' 24 8 ≠ 0#8 ∧ w.extractLsb' 0 8 ∉ funcsWithImm8b) →
        decode w = .illegal .unusedField) ∧
      (¬ ((w.getLsbD 8 = true ∧ w.extractLsb' 0 8 ∉ funcsWithP) ∨ (w.getLsbD 9 = true ∧ w.extractLsb' 0 8 ∉ funcsWithM) ∨
          (w.extractLsb' 16 8 ≠ 0#8 ∧ w.extractLsb' 0 8 ∉ funcsWithImm8) ∨
          (w.extractLsb' 24 8 ≠ 0#8 ∧ w.extractLsb' 0 8 ∉ funcsWithImm8b)) →
        ∃ i, decode w = .op i ∧ encode i = .opw w))

/-- `30_encoding.md` R90, R92, R108: the operation that each FUNC names, with its fields in their places. -/
def Obligations.FuncMapDecodes : Prop :=
  ∀ x y : Byte,
    (∀ (p : Bool) (m : Bool),
      let P : Precision := if p then .high else .standard
      let M : CoordMode := if m then .azmAlt else .raDec
      decode (fieldWord 0x10 p.toNat 0 0 0) = .op (.qnt P) ∧ decode (fieldWord 0x11 p.toNat 0 0 0) = .op (.dqnt P) ∧
      decode (fieldWord 0x40 p.toNat m.toNat 0 0) = .op (.cbGetpos P M) ∧
      decode (fieldWord 0x41 p.toNat m.toNat 0 0) = .op (.cbGoto P M) ∧
      decode (fieldWord 0x42 p.toNat 0 0 0) = .op (.cbSync P) ∧ decode (fieldWord 0x70 p.toNat 0 0 0) = .op (.decPos P)) ∧
    decode (fieldWord 0x31 0 0 x.toNat 0) = .op (.fbByte x) ∧ decode (fieldWord 0x32 0 0 x.toNat 0) = .op (.fbUint x) ∧
    decode (fieldWord 0x33 0 0 x.toNat 0) = .op (.fbHex x) ∧ decode (fieldWord 0x34 0 0 x.toNat 0) = .op (.fbDec x) ∧
    decode (fieldWord 0x44 0 0 x.toNat 0) = .op (.cbSettrk x) ∧ decode (fieldWord 0x48 0 0 x.toNat 0) = .op (.cbSettime x) ∧
    decode (fieldWord 0x4B 0 0 x.toNat 0) = .op (.cbEcho x) ∧
    decode (fieldWord 0x50 0 0 x.toNat y.toNat) = .op (.ptBuild x y) ∧
    decode (fieldWord 0x51 0 0 x.toNat 0) = .op (.ptSlewfix x) ∧ decode (fieldWord 0x52 0 0 x.toNat 0) = .op (.ptSlewvar x) ∧
    decode (fieldWord 0x53 0 0 x.toNat 0) = .op (.ptGetdevver x) ∧
    (∀ r ∈ [(0x20, Instr.dmsenc), (0x21, .dmsdec), (0x22, .deg2sec), (0x23, .sec2deg), (0x30, .fbClear), (0x43, .cbGettrk),
        (0x45, .cbGetloc), (0x46, .cbSetloc), (0x47, .cbGettime), (0x49, .cbGetver), (0x4A, .cbGetmodel), (0x4C, .cbGetalign),
        (0x4D, .cbGetgoto), (0x4E, .cbCancel), (0x60, .send), (0x61, .recv), (0x62, .ptRecv), (0x71, .decTrk),
        (0x72, .decLoc), (0x73, .decTime), (0x74, .decEcho), (0x75, .decAlign), (0x76, .decGoto)],
      decode (fieldWord r.1 0 0 0 0) = .op r.2)

/-- `30_encoding.md` R90, R92, R100, R105: a few words written out from the encoding tables decode to the instructions
they stand for, and a zero word is illegal (R93). -/
def Obligations.SampleWordsDecode : Prop :=
  decodeTableWord 32 0x00000110 = some (.qnt .high) ∧ decodeTableWord 32 0x00000340 = some (.cbGetpos .high .azmAlt) ∧
    decodeTableWord 32 0x02B00050 = some (.ptBuild 0xB0 0x02) ∧ decodeTableWord 32 0x00410031 = some (.fbByte 0x41) ∧
    decodeTableWord 8 0x45 = some .wireGetPositionRaDec ∧ decodeTableWord 8 0xFE = some .ptsubGetDeviceVersion ∧
    decode 0 = .illegal .rsvdFunc

/-! ### A step runs what is decoded -/

/-- `30_encoding.md` R95: an OPW write that an idle NXPE accepts, of a word that decodes to an operation, is that
operation's meaning in the state that acceptance leaves. -/
def Obligations.AcceptedWordRuns : Prop :=
  ∀ (s : State) (w : Word32) (i : Instr) (rest : List Event),
    s.events = .hostWrite .word 0x000 w :: rest → s.busy = false → decode w = .op i →
      step s = exec i (accepted w (moved rest s))

/-- `60_exceptions.md` R282: an ILLEGAL word writes nothing except what acceptance clears, ERR and DETAIL; the operation
has ended (`60_exceptions.md` R285: DONE = 1). -/
def Obligations.IllegalWordRaises : Prop :=
  ∀ (s : State) (w : Word32) (d : IllegalDetail) (rest : List Event),
    s.events = .hostWrite .word 0x000 w :: rest → s.busy = false → decode w = .illegal d →
      step s = .next { accepted w (moved rest s) with error := some (.illegal d), done := true }

/-- `30_encoding.md` R96: an OPW write while BUSY = 1 sets COLL and does nothing else. -/
def Obligations.CollisionDropsTheWord : Prop :=
  ∀ (s : State) (w : Word32) (rest : List Event),
    s.events = .hostWrite .word 0x000 w :: rest → s.busy = true → step s = .next { moved rest s with coll := true }

/-- `42_response_framer.md` R210, `30_encoding.md` R100, R104 to R106: the byte of a SEND in flight that opens a request,
or that is byte 3 of a passthrough frame, runs as the instruction it decodes to, and SEND goes on to the next byte or
completes. That a wire byte is an instruction of the TX sink is the model's choice: log entry 4. That the step of the last
byte also completes SEND is the model's reading: log entry 18. -/
def Obligations.WireByteRuns : Prop :=
  ∀ (s t : State) (l : Latch) (i : ℕ) (j : Instr) (rest : List Event),
    s.events = .txTake :: rest → s.inflight = some { latch := l, activity := .send i } → i < s.txlen.toNat →
    s.txlen.toNat ≤ 32 →
    (s.sink.left = 0 ∧ decodeCode (.wire (s.txByte i)) = .op j ∨
      s.sink.inPassthrough 3 = true ∧ decodeCode (.sub (s.txByte i)) = .op j) →
    exec j (moved rest s) = .next t →
      step s = .next
        { t with
          inflight := if i + 1 < s.txlen.toNat then some { latch := l, activity := .send (i + 1) } else none
          done := if i + 1 < s.txlen.toNat then t.done else true }

/-! ### The host's side of the register space -/

/-- `20_memory.md` R62 to R64, R74, `10_state.md` R21 to R34, `60_exceptions.md` R281, R283: what the host reads at every
offset, with the number of each error kind and detail. Of the registers that a link operation writes as it goes a read
returns the new value, or while BUSY = 1 the old one (R74). That the old value is the one at the operation's acceptance,
which `before` holds, and that a read shows one of just these two moments, is the model's choice: log entry 7. -/
def Obligations.HostReadsTheRegisterMap : Prop :=
  ∀ s : State,
    (∀ r ∈ [((0x000 : BitVec 12), s.opw.toNat),
        (0x010, s.opa.toNat % 2 ^ 32), (0x014, s.opa.toNat / 2 ^ 32), (0x018, s.opb.toNat % 2 ^ 32),
        (0x01C, s.opb.toNat / 2 ^ 32), (0x020, s.res0.toNat % 2 ^ 32), (0x024, s.res0.toNat / 2 ^ 32),
        (0x028, s.res1.toNat % 2 ^ 32), (0x02C, s.res1.toNat / 2 ^ 32), (0x030, s.res2.toNat % 2 ^ 32),
        (0x034, s.res2.toNat / 2 ^ 32), (0x038, s.res3.toNat % 2 ^ 32), (0x03C, s.res3.toNat / 2 ^ 32),
        (0x040, s.txlen.toNat), (0x044, s.explen.toNat), (0x04C, s.echoref.toNat), (0x050, s.timeout.toNat)],
      HostReads s r.1 (BitVec.ofNat 32 r.2)) ∧
    (∀ r ∈ [((none : Option OpError), 0, 0x00),
        (some (.usage .angleRange), 1, 0x01), (some (.usage .codeRange), 1, 0x02), (some (.usage .dmsRange), 1, 0x03),
        (some (.usage .valueRange), 1, 0x04), (some (.usage .badWidth), 1, 0x05), (some (.usage .txOverflow), 1, 0x06),
        (some (.usage .txEmpty), 1, 0x07), (some (.usage .badDevice), 1, 0x08), (some (.usage .badRate), 1, 0x09),
        (some (.usage .badSublen), 1, 0x0A), (some (.usage .badMode), 1, 0x0B), (some (.usage .badOffset), 1, 0x0C),
        (some (.usage .noFrame), 1, 0x0D), (some (.usage .badDmsField), 1, 0x0E), (some (.usage .badFlag), 1, 0x0F),
        (some (.protocol .short), 2, 0x01), (some (.protocol .badTerm), 2, 0x02), (some (.protocol .echoMismatch), 2, 0x03),
        (some (.protocol .badPayload), 2, 0x04), (some .noAnswer, 3, 0x01), (some (.illegal .rsvdFunc), 4, 0x01),
        (some (.illegal .rsvdBits), 4, 0x02), (some (.illegal .unusedField), 4, 0x03)],
      s.error = r.1 →
        ∃ v : Bool, (v = s.rxvalid ∨ s.busy = true ∧ v = s.before.rxvalid) ∧
          HostReads s 0x004 (BitVec.ofNat 32 (s.busy.toNat + 2 * s.done.toNat + 4 * s.coll.toNat + 8 * v.toNat +
            16 * r.2.1 + 256 * r.2.2 + 65536 * s.recov.toNat))) ∧
    (∀ j < 8, HostReads s (BitVec.ofNat 12 (0x100 + 4 * j))
      (BitVec.ofNat 32 ((s.txByte (4 * j)).toNat + 2 ^ 8 * (s.txByte (4 * j + 1)).toNat +
        2 ^ 16 * (s.txByte (4 * j + 2)).toNat + 2 ^ 24 * (s.txByte (4 * j + 3)).toNat))) ∧
    (∀ off : BitVec 12, off.toNat % 4 = 0 →
      (0x054 ≤ off.toNat ∧ off.toNat < 0x100 ∨ 0x120 ≤ off.toNat ∧ off.toNat < 0x200 ∨ 0x300 ≤ off.toNat) →
        HostReads s off 0) ∧
    (∃ x : Xfer, (x = s.xfer ∨ s.busy = true ∧ x = s.before.xfer) ∧
      HostReads s 0x008 (BitVec.ofNat 32 (x.expLen.toNat + 2 ^ 16 * x.actLen.toNat))) ∧
    (∃ x : Xbyte, (x = s.xbyte ∨ s.busy = true ∧ x = s.before.xbyte) ∧
      HostReads s 0x00C (BitVec.ofNat 32 (x.last.toNat + 2 ^ 8 * x.recByte.toNat + 2 ^ 16 * x.recGot.toNat))) ∧
    (∃ n : Byte, (n = s.rxlen ∨ s.busy = true ∧ n = s.before.rxlen) ∧ HostReads s 0x048 (BitVec.ofNat 32 n.toNat)) ∧
    ∀ j < 64, ∃ b : ℕ → Byte,
      (b = s.rxByte ∨ s.busy = true ∧ ∀ i, b i = s.before.mem.read (0x200 + i)) ∧
        HostReads s (BitVec.ofNat 12 (0x200 + 4 * j))
          (BitVec.ofNat 32 ((b (4 * j)).toNat + 2 ^ 8 * (b (4 * j + 1)).toNat + 2 ^ 16 * (b (4 * j + 2)).toNat +
            2 ^ 24 * (b (4 * j + 3)).toNat))

/-- `20_memory.md` R62, R63, R65: what a host write stores, at every offset but OPW's, whether or not an operation is in
flight. -/
def Obligations.HostWritesTheRegisterMap : Prop :=
  ∀ (s : State) (v : Word32),
    HostWrites s 0x004 v { s with coll := s.coll && !(v.getLsbD 2) } ∧
    HostWrites s 0x010 v { s with opa := BitVec.ofNat 64 (s.opa.toNat / 2 ^ 32 * 2 ^ 32 + v.toNat) } ∧
    HostWrites s 0x014 v { s with opa := BitVec.ofNat 64 (v.toNat * 2 ^ 32 + s.opa.toNat % 2 ^ 32) } ∧
    HostWrites s 0x018 v { s with opb := BitVec.ofNat 64 (s.opb.toNat / 2 ^ 32 * 2 ^ 32 + v.toNat) } ∧
    HostWrites s 0x01C v { s with opb := BitVec.ofNat 64 (v.toNat * 2 ^ 32 + s.opb.toNat % 2 ^ 32) } ∧
    HostWrites s 0x044 v { s with explen := BitVec.ofNat 8 v.toNat } ∧
    HostWrites s 0x050 v { s with timeout := v } ∧
    ∀ off : BitVec 12, off.toNat % 4 = 0 →
      off ∉ [(0x000 : BitVec 12), 0x004, 0x010, 0x014, 0x018, 0x01C, 0x044, 0x050] → HostWrites s off v s

/-- `20_memory.md` R65: every aligned read, busy or not, returns a value and has no side effect, and reading again at once
returns the same value. -/
def Obligations.ReadsAreIdempotent : Prop :=
  ∀ (s : State) (off : BitVec 12), off.toNat % 4 = 0 →
    ∃ v, HostReads s off v ∧ HostReads { s with busData := some v } off v

/-- `20_memory.md` R61: a byte, halfword or misaligned access is refused as outside the interface. -/
def Obligations.OtherAccessesAreRefused : Prop :=
  ∀ (s : State) (size : AccessSize) (off : BitVec 12) (v : Word32) (rest : List Event),
    (size ≠ .word ∨ off.toNat % 4 ≠ 0) →
      (s.events = .hostRead size off :: rest → step s = .refused .outsideInterface) ∧
      (s.events = .hostWrite size off v :: rest → step s = .refused .outsideInterface)

/-- `10_state.md` R40, `20_memory.md` R78, `70_reset_and_hazards.md` R337: no host access and no arriving byte changes the
operation in flight, its latched operands, the frame it sends, what a read has brought, the old values of the registers it writes
or the TX stream. The field `before` of the old values is the model's own: log entry 7. -/
def Obligations.HostCannotTouchTheOperationInFlight : Prop :=
  ∀ (s t : State) (e : Event) (rest : List Event),
    s.events = e :: rest → s.busy = true →
    (∃ size off, e = .hostRead size off) ∨ (∃ size off v, e = .hostWrite size off v) ∨ (∃ bytes, e = .rxAppend bytes) →
    step s = .next t →
      t.inflight = s.inflight ∧ t.mem = s.mem ∧ t.txlen = s.txlen ∧ t.sink = s.sink ∧ t.opw = s.opw ∧ t.done = s.done ∧
        t.error = s.error ∧ t.recov = s.recov ∧ t.rxvalid = s.rxvalid ∧ t.rxlen = s.rxlen ∧ t.xfer = s.xfer ∧
        t.xbyte = s.xbyte ∧ t.res0 = s.res0 ∧ t.res1 = s.res1 ∧ t.res2 = s.res2 ∧ t.res3 = s.res3 ∧
        t.echoref = s.echoref ∧ t.before = s.before

/-! ### Reset and invariants -/

/-- `70_reset_and_hazards.md` R320: reset abandons the operation in flight and gives every register and buffer its reset
value, in one step; the RX stream and what the TX sink has taken stay. -/
def Obligations.ResetClearsEverything : Prop :=
  ∀ (s : State) (rest : List Event), s.events = .reset :: rest →
    ∃ t, step s = .next t ∧
      t = { opw := 0, opa := 0, opb := 0, res0 := 0, res1 := 0, res2 := 0, res3 := 0, done := false, coll := false
            rxvalid := false, error := none, recov := false, xfer := { expLen := 0, actLen := 0 }
            xbyte := { last := 0, recByte := 0, recGot := false }, txlen := 0, explen := 0, rxlen := 0, echoref := 0
            timeout := 1000, mem := t.mem, inflight := none, rx := s.rx, sink := s.sink, params := s.params
            events := rest, busData := s.busData, freeCount := s.freeCount + 1
            before := t.before } ∧
      (∀ i < 32, t.txByte i = 0) ∧ (∀ i < 256, t.rxByte i = 0) ∧ t.busy = false

/-- The invariant holds in the reset state, and after a reset in any state. -/
def Obligations.SoundAfterReset : Prop :=
  Sound State.reset ∧ ∀ (s : State) (rest : List Event), s.events = .reset :: rest → ∃ t, step s = .next t ∧ Sound t

/-- Every step keeps the invariant: the buffers' canonical form, TXLEN at most 32, RXVALID only with a terminated frame,
the operation in flight in agreement with the registers, whose old values differ only where it has written, BUSY and
DONE exclusive, errors only with DONE, RECOV only with a framing error, XFER's lengths in range. The field `before` of the
old values is the model's own: log entry 7. -/
def Obligations.StepKeepsSound : Prop :=
  ∀ s t : State, Sound s → step s = .next t → Sound t

/-- `60_exceptions.md` R285, R290, `20_memory.md` R61: no run of a sound machine faults or is refused, as long as the host
makes aligned word accesses. -/
def Obligations.SoundRunsNeverStop : Prop :=
  ∀ (n : ℕ) (s : State), Sound s → (∀ e ∈ s.events, eventOk e = true) → ∃ t : State, runSteps n s = .next t

/-! ### Rules of the whole machine -/

/-- `10_state.md` R21, `60_exceptions.md` R284: no operation writes OPA or OPB, and none writes OPW, TIMEOUT, COLL or the RX
stream in its own step. `41_command_builder.md` R179: none but CB_ECHO writes ECHOREF, which keeps its value in every step
but an OPW write of a CB_ECHO word and a reset. -/
def Obligations.OperationsKeepTheirOperands : Prop :=
  (∀ (i : Instr) (s t : State), exec i s = .next t →
    t.opa = s.opa ∧ t.opb = s.opb ∧ t.opw = s.opw ∧ t.timeout = s.timeout ∧ t.coll = s.coll ∧ t.rx = s.rx ∧
      t.params = s.params ∧ t.events = s.events ∧ t.busData = s.busData ∧ t.freeCount = s.freeCount ∧
      ((∀ b, i ≠ .cbEcho b) → t.echoref = s.echoref)) ∧
  ∀ s t : State, step s = .next t →
    t.echoref = s.echoref ∨ s.events.head? = some .reset ∨
      ∃ w b, s.events.head? = some (.hostWrite .word 0x000 w) ∧ s.busy = false ∧ decode w = .op (.cbEcho b) ∧ t.echoref = b

/-- `10_state.md` R22, `60_exceptions.md` R281, R286: an operation that raises an error in its own step has written nothing
but STATUS. -/
def Obligations.ErrorsArePrecise : Prop :=
  ∀ (i : Instr) (s t : State) (e : OpError), s.error = none → exec i s = .next t → t.error = some e →
    t = { s with error := some e, done := true, inflight := none }

/-- `10_state.md` R33: RXVALID is set only by a RECV or PT_RECV that ends without error, and cleared only by SEND, by a RECV
or PT_RECV that fails, and by reset. -/
def Obligations.RxValidChangesOnlyOnReads : Prop :=
  ∀ s t : State, Sound s → step s = .next t →
    (s.rxvalid = false → t.rxvalid = true →
      ∃ l k m, (s.inflight = some { latch := l, activity := .recv k m } ∨
          s.inflight = some { latch := l, activity := .ptRecv k m }) ∧
        t.inflight = none ∧ t.done = true ∧ t.error = none ∧ t.rxlen = l.e ∧ t.rxByte l.e.toNat = 0x23) ∧
    (s.rxvalid = true → t.rxvalid = false →
      (s.inflight = none ∧ ∃ l, t.inflight = some { latch := l, activity := .send 0 }) ∨
      (∃ l k m, s.inflight = some { latch := l, activity := .recv k m } ∧ t.inflight = none ∧
        (t.error = some (.protocol .short) ∨ t.error = some (.protocol .badTerm))) ∨
      (∃ l k m o m', s.inflight = some { latch := l, activity := .ptRecv k m } ∧
        t.inflight = some { latch := l, activity := .ptRecovery o m' }) ∨
      s.events.head? = some .reset)

/-- `10_state.md` R41, `20_memory.md` R80: the bytes that the RX source appends stand at the RX stream's end, the engine's
move of a read in flight takes the byte at its head, and nothing else changes it. With no move pending the engine moves by
itself: log entry 2. -/
def Obligations.RxStreamIsTakenFromTheHead : Prop :=
  (∀ s t : State, step s = .next t →
    t.rx = s.rx ∨ (∃ bytes, s.events.head? = some (.rxAppend bytes) ∧ t.rx = s.rx ++ bytes) ∨
      (∃ b f, (s.events.head? = some .engine ∨ s.events = []) ∧ s.rx = b :: t.rx ∧ s.inflight = some f ∧
        ∀ i, f.activity ≠ .send i)) ∧
  (∀ (s : State) (bytes : List Byte) (rest : List Event), s.events = .rxAppend bytes :: rest →
    step s = .next { s with events := rest, rx := s.rx ++ bytes }) ∧
  ∀ (s : State) (l : Latch) (k : ℕ) (m : Word32) (o : FrameFail) (b : Byte) (tl : List Byte),
    s.events.head? = some .engine ∨ s.events = [] → s.rx = b :: tl →
    k ≤ l.e.toNat ∧ (s.inflight = some { latch := l, activity := .recv k m } ∨
        s.inflight = some { latch := l, activity := .ptRecv k m }) ∨
      s.inflight = some { latch := l, activity := .ptRecovery o m } →
    ∃ t, step s = .next t ∧ t.rx = tl

/-- `10_state.md` R42, `20_memory.md` R80: the TX stream grows only by the next byte of the SEND in flight, in buffer
order. That the step of the last byte also completes SEND is the model's reading: log entry 18. -/
def Obligations.TxStreamGrowsInBufferOrder : Prop :=
  ∀ s t : State, step s = .next t →
    t.sink.stream = s.sink.stream ∨
      ∃ l i, s.inflight = some { latch := l, activity := .send i } ∧ i < s.txlen.toNat ∧
        t.sink.stream = s.sink.stream ++ [s.txByte i] ∧
        (t.inflight = some { latch := l, activity := .send (i + 1) } ∨
          t.inflight = none ∧ i + 1 = s.txlen.toNat ∧ t.done = true)

/-! ### The link operations -/

/-- `42_response_framer.md` R210: SEND with an empty frame raises TX_EMPTY and transmits nothing; else it begins a new
round trip, and hands the frame's bytes to the TX sink, one step per byte, in order, and completes. That the sink takes a
byte in every step while no agent's move is pending is the model's form of `10_state.md` R42's premise: log entry 2. That
the step of the last byte also completes SEND is the model's reading: log entry 18. The field `before` is the model's own:
log entry 7. -/
def Obligations.SendTransmitsTheFrame : Prop :=
  EncodedAs .send 0x60 0 0 0 0 ∧ ∀ s : State,
    (s.txlen = 0 → Raises .send s (.usage .txEmpty)) ∧
    (s.txlen ≠ 0 → ∃ t, exec .send s = .next t ∧
      t = { s with rxvalid := false, rxlen := 0
                   inflight := some { latch := { a := s.opa, b := s.opb, e := s.explen, t := s.timeout }
                                      activity := .send 0 }
                   before := s.linkRegs } ∧
      (s.events = [] → s.txlen.toNat ≤ 32 → ∃ u : State, runSteps s.txlen.toNat t = .next u ∧
        u = { s with rxvalid := false, rxlen := 0, inflight := none, done := true, sink := u.sink
                     before := s.linkRegs, freeCount := s.freeCount + s.txlen.toNat } ∧
        u.sink.stream = s.sink.stream ++ txFrame s s.txlen.toNat))

/-- `42_response_framer.md` R211, R212: RECV, when the N+1 bytes it asks for are waiting at its acceptance and no agent's move
is pending. That it then takes a byte in every step is the model's choice: log entry 2; that the step of the last byte also
ends the attempt is the model's reading: log entry 18. Bytes that arrive later: `EngineTakesOneByte`,
`RxStreamIsTakenFromTheHead`. The field `before` is the model's own: log entry 7. -/
def Obligations.RecvFramesTheReply : Prop :=
  ∀ (s : State) (bs rest : List Byte),
    s.events = [] → s.mem.wf = true → s.rx = bs ++ rest → bs.length = s.explen.toNat + 1 →
    ∃ t u : State, exec .recv s = .next t ∧
      t = { s with inflight := some { latch := { a := s.opa, b := s.opb, e := s.explen, t := s.timeout }
                                      activity := .recv 0 s.timeout }
                   before := s.linkRegs } ∧
      runSteps (s.explen.toNat + 1) t = .next u ∧
      Stored u.mem (rxAddr 0) bs ∧ KeptOutside s.mem u.mem (rxAddr 0) bs.length ∧
      (bs.getLast? = some 0x23 →
        u = { s with
              mem := u.mem, rx := rest, rxlen := s.explen, rxvalid := true, inflight := none, done := true
              before := s.linkRegs
              xfer := { expLen := BitVec.ofNat 9 (s.explen.toNat + 1), actLen := BitVec.ofNat 9 (s.explen.toNat + 1) }
              xbyte := { s.xbyte with last := 0x23 }, freeCount := s.freeCount + (s.explen.toNat + 1) }) ∧
      (∀ b, bs.getLast? = some b → b ≠ 0x23 →
        u = { s with
              mem := u.mem, rx := rest, rxlen := 0, rxvalid := false, inflight := none, done := true
              before := s.linkRegs, error := some (.protocol .badTerm)
              xfer := { expLen := BitVec.ofNat 9 (s.explen.toNat + 1), actLen := BitVec.ofNat 9 (s.explen.toNat + 1) }
              xbyte := { s.xbyte with last := b }, freeCount := s.freeCount + (s.explen.toNat + 1) })

/-- `42_response_framer.md` R211, R212, R214: RECV, when its attempt times out after k of the N+1 bytes, whether or not
another byte is waiting. `10_state.md` R34: with a timer of 0 the engine ends the attempt as soon as no byte is waiting, and
with a timer above 0 it only waits then. With no move pending and no byte waiting the attempt times out: the model's form of
`60_exceptions.md` R301's premise (log entries 2 and 6); that the run takes a byte in every step is log entry 2.
The field `before` is the model's own: log entry 7. -/
def Obligations.RecvTimesOutShort : Prop :=
  (∀ (s : State) (l : Latch) (k : ℕ) (m : Word32) (rest : List Event),
    s.inflight = some { latch := l, activity := .recv k m } → k ≤ l.e.toNat →
    let ended : State :=
      { moved rest s with
        rxlen := 0, rxvalid := false, inflight := none, done := true, error := some (.protocol .short)
        xfer := { expLen := BitVec.ofNat 9 (l.e.toNat + 1), actLen := BitVec.ofNat 9 k }
        xbyte := { s.xbyte with last := if k = 0 then 0 else s.rxByte (k - 1) } }
    (s.events = .timeout :: rest → step s = .next ended) ∧
    (s.rx = [] → s.events = .engine :: rest → step s = .next (if m = 0 then ended else moved rest s)) ∧
    (s.rx = [] → s.events = [] → rest = [] → step s = .next ended)) ∧
  ∀ (s : State) (bs rest : List Byte),
    s.events = [] → s.mem.wf = true → s.rx = bs ++ rest → bs.length ≤ s.explen.toNat →
    ∃ t v u : State, exec .recv s = .next t ∧ runSteps bs.length t = .next v ∧ v.busy = true ∧
      step { v with events := [.timeout] } = .next u ∧
      Stored u.mem (rxAddr 0) bs ∧ KeptOutside s.mem u.mem (rxAddr 0) bs.length ∧
      u = { s with
            mem := u.mem, rx := rest, rxlen := 0, rxvalid := false, inflight := none, done := true
            before := s.linkRegs, error := some (.protocol .short)
            xfer := { expLen := BitVec.ofNat 9 (s.explen.toNat + 1), actLen := BitVec.ofNat 9 bs.length }
            xbyte := { s.xbyte with last := bs.getLast?.getD 0 }, freeCount := s.freeCount + (bs.length + 1) }

/-- `43_passthrough.md` R256, R257: PT_RECV's three-way outcome. Phase 1 is RECV's framing read; where it fails, by a
timeout or by its last byte, one recovery byte is read, and it goes nowhere but into XBYTE. `10_state.md` R34: in either
attempt, with a timer of 0 the engine ends it as soon as no byte is waiting, and with a timer above 0 it only waits then. That
with no move pending a waiting byte is taken in every step, and with none waiting the attempt times out, is the model's form
of `60_exceptions.md` R301's premise (log entries 2 and 6); that the step which ends phase 1 also completes PT_RECV, or
starts the recovery read, is the model's reading (log entry 18). The field `before` is the model's own: log entry 7. -/
def Obligations.PtRecvHasThreeOutcomes : Prop :=
  (∀ (s : State) (l : Latch) (m : Word32) (rest : List Event) (ended : State),
    (∃ k : ℕ, k ≤ l.e.toNat ∧ s.inflight = some { latch := l, activity := .ptRecv k m } ∧
        ended =
          { moved rest s with
            rxlen := 0, rxvalid := false, inflight := some { latch := l, activity := .ptRecovery .short l.t }
            xfer := { expLen := BitVec.ofNat 9 (l.e.toNat + 1), actLen := BitVec.ofNat 9 k }
            xbyte := { s.xbyte with last := if k = 0 then 0 else s.rxByte (k - 1) } }) ∨
      (∃ (o : FrameFail) (d : ProtocolDetail), (o = .short ∧ d = .short ∨ o = .badTerm ∧ d = .badTerm) ∧
        s.inflight = some { latch := l, activity := .ptRecovery o m } ∧
        ended = { moved rest s with inflight := none, done := true, error := some (.protocol d), recov := true }) →
    (s.events = .timeout :: rest → step s = .next ended) ∧
    (s.rx = [] → s.events = .engine :: rest → step s = .next (if m = 0 then ended else moved rest s)) ∧
    (s.rx = [] → s.events = [] → rest = [] → step s = .next ended)) ∧
  ∀ (s : State) (bs rest : List Byte),
    s.events = [] → s.mem.wf = true → s.rx = bs ++ rest →
    ∃ t : State, exec .ptRecv s = .next t ∧
      t = { s with inflight := some { latch := { a := s.opa, b := s.opb, e := s.explen, t := s.timeout }
                                      activity := .ptRecv 0 s.timeout }
                   before := s.linkRegs } ∧
      (bs.length = s.explen.toNat + 1 → bs.getLast? = some 0x23 →
        ∃ u : State, runSteps (s.explen.toNat + 1) t = .next u ∧
          Stored u.mem (rxAddr 0) bs ∧ KeptOutside s.mem u.mem (rxAddr 0) bs.length ∧
          u = { s with
                mem := u.mem, rx := rest, rxlen := s.explen, rxvalid := true, inflight := none, done := true
                before := s.linkRegs
                xfer := { expLen := BitVec.ofNat 9 (s.explen.toNat + 1), actLen := BitVec.ofNat 9 (s.explen.toNat + 1) }
                xbyte := { s.xbyte with last := 0x23 }, freeCount := s.freeCount + (s.explen.toNat + 1) }) ∧
      (∀ d : ProtocolDetail,
        (d = .badTerm ∧ bs.length = s.explen.toNat + 1 ∧ bs.getLast? ≠ some 0x23) ∨
          (d = .short ∧ bs.length ≤ s.explen.toNat) →
        ∃ v : State, (d = .badTerm → runSteps (s.explen.toNat + 1) t = .next v) ∧
          (d = .short → ∃ w : State, runSteps bs.length t = .next w ∧
            step { w with events := [.timeout] } = .next v) ∧
          Stored v.mem (rxAddr 0) bs ∧ KeptOutside s.mem v.mem (rxAddr 0) bs.length ∧
          v = { s with
                mem := v.mem, rx := rest, rxlen := 0, rxvalid := false
                xfer := { expLen := BitVec.ofNat 9 (s.explen.toNat + 1), actLen := BitVec.ofNat 9 bs.length }
                xbyte := { s.xbyte with last := bs.getLast?.getD 0 }
                inflight := v.inflight, before := s.linkRegs, freeCount := v.freeCount } ∧
          v.busy = true ∧
          (∀ x rest', rest = x :: rest' →
            step v = .next
              { v with
                rx := rest', inflight := none, done := true, freeCount := v.freeCount + 1
                xbyte := { v.xbyte with recGot := true, recByte := x }
                error := some (if x = 0x23 then .noAnswer else .protocol d)
                recov := if x = 0x23 then v.recov else true }) ∧
          step { v with events := [.timeout] } = .next
            { v with
              inflight := none, done := true, freeCount := v.freeCount + 1, error := some (.protocol d), recov := true })

/-- `30_encoding.md` R102 to R104, R106, `41_command_builder.md` R166: the frame that a builder makes, when SEND hands it to
a TX sink at a request boundary, is exactly one request: the length that the receiver knows from the opcode is the
frame's, and the reply length that it knows is the one the builder put into EXPLEN. What the receiver knows is held in
the model's own fields: log entry 4. That the sink takes a byte in every step while no agent's move is pending is the
model's choice: log entry 2; that the step of the last byte also completes SEND is the model's reading: log entry 18. -/
def Obligations.BuiltFrameIsOneRequest : Prop :=
  ∀ (i : Instr) (s t : State), isBuilder i = true → s.mem.wf = true → s.events = [] → s.error = none → s.sink.left = 0 →
    exec i s = .next t → t.error = none →
    ∃ u v : State, exec .send t = .next u ∧ runSteps t.txlen.toNat u = .next v ∧ v.busy = false ∧
      v.sink.left = 0 ∧ v.sink.request = txFrame t t.txlen.toNat ∧ v.sink.reply = some t.explen ∧
      v.sink.stream = s.sink.stream ++ txFrame t t.txlen.toNat

/-! ### The transform family -/

/-- `40_transform.md` R130, R131: QNT answers the rounded and saturated code of an angle of [0, 360), in the evaluation mode
of `00_scope.md` R11, and raises ANGLE_RANGE for any other operand. -/
def Obligations.QntQuantizes : Prop :=
  ∀ (p : Precision) (s : State),
    EncodedAs (.qnt p) 0x10 p.bit.toNat 0 0 0 ∧
    (InCircle s.opa →
      ∃ c : ℕ, Quantizes s.params.arith (codeBits p) (f64Val s.opa) c ∧ Answers (.qnt p) s (BitVec.ofNat 64 c)) ∧
    (¬ InCircle s.opa → Raises (.qnt p) s (.usage .angleRange))

/-- `40_transform.md` R134, under ARITH = EXACT: dequantizing what QNT answers gives the angle back within half a step, or
within one step where the code saturated. -/
def Obligations.QuantizerErrorIsBounded : Prop :=
  ∀ (p : Precision) (s : State), s.params.arith = .exact → InCircle s.opa →
    ∃ t u, exec (.qnt p) s = .next t ∧ exec (.dqnt p) { t with opa := t.res0 } = .next u ∧ u.error = s.error ∧
      |f64Val u.res0 - f64Val s.opa| < 360 / 2 ^ codeBits p ∧
      (IsRne (f64Val s.opa / 360 * 2 ^ codeBits p) t.res0.toNat →
        |f64Val u.res0 - f64Val s.opa| ≤ 180 / 2 ^ codeBits p)

/-- `40_transform.md` R132, R133: DQNT answers 360 * c / 2^n exactly, and raises CODE_RANGE for a code of more than n
bits. -/
def Obligations.DqntIsExact : Prop :=
  ∀ (p : Precision) (s : State),
    EncodedAs (.dqnt p) 0x11 p.bit.toNat 0 0 0 ∧
    (s.opa.toNat < 2 ^ codeBits p →
      ∃ v, IsF64 v (360 * (s.opa.toNat : ℚ) / 2 ^ codeBits p) ∧ Answers (.dqnt p) s v) ∧
    (2 ^ codeBits p ≤ s.opa.toNat → Raises (.dqnt p) s (.usage .codeRange))

/-- `40_transform.md` R135, R136, `10_state.md` R30: DMSENC answers the packed DMS word of its seconds, field by field, and
raises DMS_RANGE from 921600 seconds on. -/
def Obligations.DmsencPacksSeconds : Prop :=
  ∀ s : State,
    EncodedAs .dmsenc 0x20 0 0 0 0 ∧
    (s.opa.toInt.natAbs < 921600 →
      ∃ v, Answers .dmsenc s v ∧ v.getLsbD 24 = decide (s.opa.toInt < 0) ∧
        (v.extractLsb' 16 8).toNat = s.opa.toInt.natAbs / 3600 ∧
        (v.extractLsb' 8 6).toNat = s.opa.toInt.natAbs % 3600 / 60 ∧
        (v.extractLsb' 0 6).toNat = s.opa.toInt.natAbs % 60 ∧
        v.extractLsb' 6 2 = 0#2 ∧ v.extractLsb' 14 2 = 0#2 ∧ v.extractLsb' 25 39 = 0#39) ∧
    (921600 ≤ s.opa.toInt.natAbs → Raises .dmsenc s (.usage .dmsRange))

/-- `40_transform.md` R137, R138: DMSDEC answers the signed seconds of the four fields it reads, for every word. -/
def Obligations.DmsdecSumsFields : Prop :=
  EncodedAs .dmsdec 0x21 0 0 0 0 ∧ ∀ s : State, ∃ v, Answers .dmsdec s v ∧
    v.toInt = (if s.opa.getLsbD 24 then -1 else 1) *
      (((s.opa.extractLsb' 16 8).toNat * 3600 + (s.opa.extractLsb' 8 6).toNat * 60 + (s.opa.extractLsb' 0 6).toNat : ℕ) : ℤ)

/-- `40_transform.md` R141, in seconds: DMSDEC of the DMSENC of s is s, for |s| at most 921599. -/
def Obligations.DmsRoundTrips : Prop :=
  ∀ s : State, s.opa.toInt.natAbs ≤ 921599 →
    ∃ t u, exec .dmsenc s = .next t ∧ exec .dmsdec { t with opa := t.res0 } = .next u ∧ u.res0 = s.opa ∧ u.error = s.error

/-- `40_transform.md` R139: DEG2SEC answers the rounded signed seconds that fit 64 bits, and raises VALUE_RANGE else. The
bound -2^63 itself is taken as the pseudocode has it: log entry 13. -/
def Obligations.DegreesToSecondsRounds : Prop :=
  ∀ s : State,
    (f64Finite s.opa →
      ∃ q : ℕ, RoundsSeconds s.params.arith |f64Val s.opa| q ∧
        let z : ℤ := if f64Val s.opa < 0 then -q else q
        (-(2 ^ 63) ≤ z ∧ z < 2 ^ 63 → Answers .deg2sec s (BitVec.ofInt 64 z)) ∧
        (¬ (-(2 ^ 63) ≤ z ∧ z < 2 ^ 63) → Raises .deg2sec s (.usage .valueRange))) ∧
    (¬ f64Finite s.opa → Raises .deg2sec s (.usage .valueRange))

/-- `40_transform.md` R140: SEC2DEG answers the binary64 value nearest to s / 3600, with the sign of s, and +0.0 for 0. -/
def Obligations.SecondsToDegreesDivides : Prop :=
  EncodedAs .sec2deg 0x23 0 0 0 0 ∧ ∀ s : State, ∃ v, Answers .sec2deg s v ∧ f64Finite v ∧ IsFl64 (|(s.opa.toInt : ℚ)| / 3600) |f64Val v| ∧
    (s.opa.toInt < 0 → f64Val v < 0) ∧ (0 ≤ s.opa.toInt → v.toNat < 2 ^ 63)

/-! ### The frame builders -/

/-- `41_command_builder.md` R160, R161, R162: FB_CLEAR makes the frame empty and leaves its bytes; FB_BYTE appends its
byte, or raises TX_OVERFLOW where the frame is full. -/
def Obligations.FbClearAndByteBuild : Prop :=
  ∀ (s : State) (b : Byte),
    EncodedAs .fbClear 0x30 0 0 0 0 ∧ EncodedAs (.fbByte b) 0x31 0 0 b.toNat 0 ∧
    exec .fbClear s = .next { s with txlen := 0, done := true, inflight := none } ∧
    (s.mem.wf = true → s.txlen.toNat < 32 → Appends (.fbByte b) s [b]) ∧
    (32 ≤ s.txlen.toNat → Raises (.fbByte b) s (.usage .txOverflow))

/-- `41_command_builder.md` R163, `20_memory.md` R71: FB_UINT appends its operand in big-endian order; its checks come in
the order width, value, overflow. -/
def Obligations.FbUintAppendsBigEndian : Prop :=
  ∀ (w : Byte) (s : State),
    EncodedAs (.fbUint w) 0x32 0 0 w.toNat 0 ∧
    (w.toNat < 1 ∨ 8 < w.toNat → Raises (.fbUint w) s (.usage .badWidth)) ∧
    (1 ≤ w.toNat → w.toNat ≤ 8 →
      (2 ^ (8 * w.toNat) ≤ s.opa.toNat → Raises (.fbUint w) s (.usage .valueRange)) ∧
      (s.opa.toNat < 2 ^ (8 * w.toNat) →
        (32 < s.txlen.toNat + w.toNat → Raises (.fbUint w) s (.usage .txOverflow)) ∧
        (s.mem.wf = true → s.txlen.toNat + w.toNat ≤ 32 →
          ∃ bs, bs.length = w.toNat ∧
            (∀ i, ∀ h : i < bs.length, (bs[i]).toNat = s.opa.toNat / 2 ^ (8 * (w.toNat - 1 - i)) % 2 ^ 8) ∧
            Appends (.fbUint w) s bs)))

/-- `41_command_builder.md` R164: FB_HEX appends its operand as uppercase hex text; its checks come in the order digits,
value, overflow. -/
def Obligations.FbHexAppendsText : Prop :=
  ∀ (d : Byte) (s : State),
    EncodedAs (.fbHex d) 0x33 0 0 d.toNat 0 ∧
    (d.toNat < 1 ∨ 16 < d.toNat → Raises (.fbHex d) s (.usage .badWidth)) ∧
    (1 ≤ d.toNat → d.toNat ≤ 16 →
      (16 ^ d.toNat ≤ s.opa.toNat → Raises (.fbHex d) s (.usage .valueRange)) ∧
      (s.opa.toNat < 16 ^ d.toNat →
        (32 < s.txlen.toNat + d.toNat → Raises (.fbHex d) s (.usage .txOverflow)) ∧
        (s.mem.wf = true → s.txlen.toNat + d.toNat ≤ 32 →
          ∃ bs, IsHexText s.opa.toNat d.toNat bs ∧ Appends (.fbHex d) s bs)))

/-- `41_command_builder.md` R165: FB_DEC appends its operand as decimal text of d digits, or for d = 0 in the shortest form,
with no leading zero; its checks come in the order digits, value, overflow. -/
def Obligations.FbDecAppendsText : Prop :=
  ∀ (d : Byte) (s : State),
    EncodedAs (.fbDec d) 0x34 0 0 d.toNat 0 ∧
    (20 < d.toNat → Raises (.fbDec d) s (.usage .badWidth)) ∧
    (d.toNat ≤ 20 →
      (1 ≤ d.toNat → 10 ^ d.toNat ≤ s.opa.toNat → Raises (.fbDec d) s (.usage .valueRange)) ∧
      (d.toNat = 0 ∨ s.opa.toNat < 10 ^ d.toNat →
        ∃ bs, DigitText 10 bs ∧ textValue 10 bs = s.opa.toNat ∧ (1 ≤ d.toNat → bs.length = d.toNat) ∧
          (d.toNat = 0 → 1 ≤ bs.length ∧ (2 ≤ bs.length → bs.head? ≠ some 0x30)) ∧
          (32 < s.txlen.toNat + bs.length → Raises (.fbDec d) s (.usage .txOverflow)) ∧
          (s.mem.wf = true → s.txlen.toNat + bs.length ≤ 32 → Appends (.fbDec d) s bs)))

/-! ### The command builders -/

/-- `41_command_builder.md` R168, R180, R181, R182: the requests of one byte whose reply lengths the source settles. -/
def Obligations.OneByteQueriesBuild : Prop :=
  (∀ p m, EncodedAs (.cbGetpos p m) 0x40 p.bit.toNat m.bit.toNat 0 0) ∧ EncodedAs .cbGetalign 0x4C 0 0 0 0 ∧
  EncodedAs .cbGetgoto 0x4D 0 0 0 0 ∧ EncodedAs .cbCancel 0x4E 0 0 0 0 ∧
  ∀ s : State, s.mem.wf = true →
    Builds (.cbGetpos .standard .raDec) s [0x45] 9 ∧ Builds (.cbGetpos .high .raDec) s [0x65] 17 ∧
    Builds (.cbGetpos .standard .azmAlt) s [0x5A] 9 ∧ Builds (.cbGetpos .high .azmAlt) s [0x7A] 17 ∧
    Builds .cbGetalign s [0x4A] 1 ∧ Builds .cbGetgoto s [0x4C] 1 ∧ Builds .cbCancel s [0x4D] 0

/-- `41_command_builder.md` R171, R173, R175, R177, R178, `30_encoding.md` R103: the requests of one byte whose reply
lengths are the parameter RESP_LEN, whatever its values. -/
def Obligations.OpenLengthQueriesBuild : Prop :=
  ∀ s : State, s.mem.wf = true →
    Builds .cbGettrk s [0x74] s.params.respLen.getTrackingMode ∧ Builds .cbGetloc s [0x77] s.params.respLen.getLocation ∧
    Builds .cbGettime s [0x68] s.params.respLen.getTime ∧ Builds .cbGetver s [0x56] s.params.respLen.getVersion ∧
    Builds .cbGetmodel s [0x6D] s.params.respLen.getModel

/-- `41_command_builder.md` R167, R169, R170: CB_GOTO and CB_SYNC build the opcode byte and the two angle texts with a comma
between; an operand outside [0, 360) raises ANGLE_RANGE. -/
def Obligations.CoordinateRequestsBuild : Prop :=
  ∀ (p : Precision) (m : CoordMode) (s : State), s.mem.wf = true →
    let gotoOp : Byte := match p, m with
      | .standard, .raDec => 0x52
      | .high, .raDec => 0x72
      | .standard, .azmAlt => 0x42
      | .high, .azmAlt => 0x62
    let syncOp : Byte := match p with
      | .standard => 0x53
      | .high => 0x73
    EncodedAs (.cbGoto p m) 0x41 p.bit.toNat m.bit.toNat 0 0 ∧ EncodedAs (.cbSync p) 0x42 p.bit.toNat 0 0 0 ∧
    decode (fieldWord 0x42 p.bit.toNat 1 0 0) = .illegal .unusedField ∧
    (InCircle s.opa → InCircle s.opb →
      ∃ x y, IsAngleText s.params.arith p s.opa x ∧ IsAngleText s.params.arith p s.opb y ∧
        Builds (.cbGoto p m) s ([gotoOp] ++ x ++ [0x2C] ++ y) 0 ∧
        Builds (.cbSync p) s ([syncOp] ++ x ++ [0x2C] ++ y) s.params.respLen.sync) ∧
    (¬ (InCircle s.opa ∧ InCircle s.opb) →
      Raises (.cbGoto p m) s (.usage .angleRange) ∧ Raises (.cbSync p) s (.usage .angleRange))

/-- `41_command_builder.md` R172: CB_SETTRK builds 'T' and the mode byte; a mode above 3 raises BAD_MODE. -/
def Obligations.SetTrackingBuilds : Prop :=
  ∀ (mode : Byte) (s : State),
    (mode.toNat ≤ 3 → s.mem.wf = true → Builds (.cbSettrk mode) s [0x54, mode] s.params.respLen.setTrackingMode) ∧
    (4 ≤ mode.toNat → Raises (.cbSettrk mode) s (.usage .badMode))

/-- `41_command_builder.md` R174, `10_state.md` R30: CB_SETLOC builds 'W' and the eight location bytes; a minute or second
field above 59 raises BAD_DMS_FIELD. -/
def Obligations.SetLocationBuilds : Prop :=
  ∀ s : State,
    let deg (w : Word64) : ℕ := w.toNat / 2 ^ 16 % 2 ^ 8
    let min (w : Word64) : ℕ := w.toNat / 2 ^ 8 % 2 ^ 6
    let sec (w : Word64) : ℕ := w.toNat % 2 ^ 6
    let sgn (w : Word64) : ℕ := w.toNat / 2 ^ 24 % 2
    (min s.opa ≤ 59 ∧ sec s.opa ≤ 59 ∧ min s.opb ≤ 59 ∧ sec s.opb ≤ 59 → s.mem.wf = true →
      Builds .cbSetloc s
        (0x57 :: [deg s.opa, min s.opa, sec s.opa, sgn s.opa, deg s.opb, min s.opb, sec s.opb, sgn s.opb].map (BitVec.ofNat 8))
        s.params.respLen.setLocation) ∧
    (¬ (min s.opa ≤ 59 ∧ sec s.opa ≤ 59 ∧ min s.opb ≤ 59 ∧ sec s.opb ≤ 59) → Raises .cbSetloc s (.usage .badDmsField))

/-- `41_command_builder.md` R176, `10_state.md` R31: CB_SETTIME builds 'H', the six bytes of the time word, the UTC offset
as a two's-complement byte and the DST flag; the flag is checked before the offset. -/
def Obligations.SetTimeBuilds : Prop :=
  ∀ (dst : Byte) (s : State),
    (2 ≤ dst.toNat → Raises (.cbSettime dst) s (.usage .badFlag)) ∧
    (dst.toNat ≤ 1 →
      (s.opb.toInt < -128 ∨ 127 < s.opb.toInt → Raises (.cbSettime dst) s (.usage .badOffset)) ∧
      (-128 ≤ s.opb.toInt → s.opb.toInt ≤ 127 → s.mem.wf = true →
        Builds (.cbSettime dst) s
          ([0x48] ++ (List.range 6).map (fun i => BitVec.ofNat 8 (s.opa.toNat / 2 ^ (8 * i))) ++
            [BitVec.ofInt 8 (s.opb.toInt % 256), dst])
          s.params.respLen.setTime))

/-- `41_command_builder.md` R179, `10_state.md` R32: CB_ECHO builds 'K' and its byte and keeps the byte in ECHOREF. -/
def Obligations.EchoBuilds : Prop :=
  ∀ (b : Byte) (s : State), EncodedAs (.cbEcho b) 0x4B 0 0 b.toNat 0 ∧ (s.mem.wf = true →
    ∃ m, exec (.cbEcho b) s =
        .next { s with mem := m, txlen := 2, explen := 1, echoref := b, done := true, inflight := none } ∧
      Stored m (txAddr 0) [0x4B, b] ∧ KeptOutside s.mem m (txAddr 0) 2)

/-! ### The passthrough builders -/

/-- `43_passthrough.md` R250, R251: PT_BUILD builds the 8-byte frame with L sub-command bytes of OPA and zeros after them;
L outside 1..4 raises BAD_SUBLEN. -/
def Obligations.PtBuildBuilds : Prop :=
  ∀ (dev r : Byte) (s : State),
    let L := s.opb.toNat
    let body (i : ℕ) : Byte := if i < L then BitVec.ofNat 8 (s.opa.toNat / 2 ^ (8 * i)) else 0
    EncodedAs (.ptBuild dev r) 0x50 0 0 dev.toNat r.toNat ∧
    (1 ≤ L → L ≤ 4 → s.mem.wf = true →
      Builds (.ptBuild dev r) s [0x50, BitVec.ofNat 8 L, dev, body 0, body 1, body 2, body 3, r] r) ∧
    (L < 1 ∨ 4 < L → Raises (.ptBuild dev r) s (.usage .badSublen))

/-- `43_passthrough.md` R252, R253: PT_SLEWFIX builds a frame with the sign's sub-command code and the rate's magnitude; the
device is checked before the rate. -/
def Obligations.PtSlewfixBuilds : Prop :=
  ∀ (dev : Byte) (s : State),
    EncodedAs (.ptSlewfix dev) 0x51 0 0 dev.toNat 0 ∧
    (dev ≠ 16 → dev ≠ 17 → Raises (.ptSlewfix dev) s (.usage .badDevice)) ∧
    (dev = 16 ∨ dev = 17 →
      (s.opa.toInt < -9 ∨ 9 < s.opa.toInt → Raises (.ptSlewfix dev) s (.usage .badRate)) ∧
      (-9 ≤ s.opa.toInt → s.opa.toInt ≤ 9 → s.mem.wf = true →
        Builds (.ptSlewfix dev) s
          [0x50, 2, dev, if s.opa.toInt < 0 then 37 else 36, BitVec.ofInt 8 |s.opa.toInt|, 0, 0, s.params.slewRespLen]
          s.params.slewRespLen))

/-- `43_passthrough.md` R252, R254: PT_SLEWVAR builds a frame with the sign's sub-command code and the rounded magnitude in
big-endian order; the device is checked before the rate, and a rate that is not finite or rounds above 65535 raises
BAD_RATE. -/
def Obligations.PtSlewvarBuilds : Prop :=
  ∀ (dev : Byte) (s : State),
    EncodedAs (.ptSlewvar dev) 0x52 0 0 dev.toNat 0 ∧
    (dev ≠ 16 → dev ≠ 17 → Raises (.ptSlewvar dev) s (.usage .badDevice)) ∧
    (dev = 16 ∨ dev = 17 →
      (¬ f64Finite s.opa → Raises (.ptSlewvar dev) s (.usage .badRate)) ∧
      (f64Finite s.opa →
        ∃ mag : ℕ, RoundsRate s.params.arith |f64Val s.opa| mag ∧
          (65535 < mag → Raises (.ptSlewvar dev) s (.usage .badRate)) ∧
          (mag ≤ 65535 → s.mem.wf = true → ∀ code : Byte, (f64Val s.opa < 0 → code = 7) → (0 ≤ f64Val s.opa → code = 6) →
            Builds (.ptSlewvar dev) s
              [0x50, 3, dev, code, BitVec.ofNat 8 (mag / 256), BitVec.ofNat 8 mag, 0, s.params.slewRespLen]
              s.params.slewRespLen)))

/-- `43_passthrough.md` R255: PT_GETDEVVER builds its frame for any device byte. -/
def Obligations.PtGetdevverBuilds : Prop :=
  Params.recommended.devverRespLen = 2 ∧ ∀ (dev : Byte) (s : State), EncodedAs (.ptGetdevver dev) 0x53 0 0 dev.toNat 0 ∧ (s.mem.wf = true →
    Builds (.ptGetdevver dev) s [0x50, 1, dev, 254, 0, 0, 0, s.params.devverRespLen] s.params.devverRespLen)

/-! ### The decoders -/

/-- `42_response_framer.md` R220: a decoder without a framed payload of its length raises NO_FRAME, before any payload
check. DEC_TRK, DEC_LOC and DEC_TIME check the length against RESP_LEN (`30_encoding.md` R103). -/
def Obligations.DecodersNeedAFrame : Prop :=
  ∀ s : State, ∀ r ∈ [(Instr.decPos .standard, (9 : Byte)), (.decPos .high, 17), (.decTrk, s.params.respLen.getTrackingMode),
      (.decLoc, s.params.respLen.getLocation), (.decTime, s.params.respLen.getTime), (.decEcho, 1), (.decAlign, 1),
      (.decGoto, 1)],
    s.rxvalid = false ∨ s.rxlen ≠ r.2 → Raises r.1 s (.usage .noFrame)

/-- `42_response_framer.md` R221, R222: DEC_POS answers the two codes and their exact degrees, or raises BAD_PAYLOAD where
the comma is missing or a byte is no hex digit. -/
def Obligations.DecPosDecodes : Prop :=
  ∀ (p : Precision) (s : State),
    let d := hexDigits p
    EncodedAs (.decPos p) 0x70 p.bit.toNat 0 0 0 ∧
    (s.rxvalid = false ∨ s.rxlen.toNat ≠ 2 * d + 1 → Raises (.decPos p) s (.usage .noFrame)) ∧
    (s.rxvalid = true → s.rxlen.toNat = 2 * d + 1 →
      (∀ c1 c2, s.rxByte d = 0x2C → HexReads (s.rxBytes 0 d) c1 → HexReads (s.rxBytes (d + 1) d) c2 →
        ∃ x1 x2, IsF64 x1 (360 * (c1 : ℚ) / 2 ^ codeBits p) ∧ IsF64 x2 (360 * (c2 : ℚ) / 2 ^ codeBits p) ∧
          c1 < 2 ^ codeBits p ∧ c2 < 2 ^ codeBits p ∧
          exec (.decPos p) s = .next
            { s with res0 := x1, res1 := x2, res2 := BitVec.ofNat 64 c1, res3 := BitVec.ofNat 64 c2
                     done := true, inflight := none }) ∧
      (s.rxByte d ≠ 0x2C ∨ (¬ ∃ c1, HexReads (s.rxBytes 0 d) c1) ∨ (¬ ∃ c2, HexReads (s.rxBytes (d + 1) d) c2) →
        Raises (.decPos p) s (.protocol .badPayload)))

/-- `42_response_framer.md` R223, R224, R225, `30_encoding.md` R103: with the default reply lengths, DEC_TRK, DEC_LOC and
DEC_TIME answer the fields of the payload or raise BAD_PAYLOAD. With other reply lengths they do one of the two, and which
bytes the fields come from is free (log entry 14): what they answer is still a mode 0..3, two packed DMS words
(`10_state.md` R30), a time word (`10_state.md` R31) with its offset and flag. -/
def Obligations.DefaultLayoutsDecode : Prop :=
  ∀ s : State, s.rxvalid = true →
    let b (i : ℕ) : ℕ := (s.rxByte i).toNat
    let packed (v : Word64) : Prop :=
      v.extractLsb' 6 2 = 0#2 ∧ v.extractLsb' 14 2 = 0#2 ∧ v.extractLsb' 25 39 = 0#39 ∧
        (v.extractLsb' 8 6).toNat ≤ 59 ∧ (v.extractLsb' 0 6).toNat ≤ 59
    (s.rxlen = s.params.respLen.getTrackingMode →
      (s.rxlen = 1 → (b 0 ≤ 3 → Answers .decTrk s (BitVec.ofNat 64 (b 0))) ∧
        (3 < b 0 → Raises .decTrk s (.protocol .badPayload))) ∧
      ((∃ v, v.toNat ≤ 3 ∧ Answers .decTrk s v) ∨ Raises .decTrk s (.protocol .badPayload))) ∧
    (s.rxlen = s.params.respLen.getLocation →
      (s.rxlen = 8 →
        (b 1 ≤ 59 ∧ b 2 ≤ 59 ∧ b 3 ≤ 1 ∧ b 5 ≤ 59 ∧ b 6 ≤ 59 ∧ b 7 ≤ 1 →
          exec .decLoc s = .next
            { s with res0 := BitVec.ofNat 64 (b 3 * 2 ^ 24 + b 0 * 2 ^ 16 + b 1 * 2 ^ 8 + b 2)
                     res1 := BitVec.ofNat 64 (b 7 * 2 ^ 24 + b 4 * 2 ^ 16 + b 5 * 2 ^ 8 + b 6)
                     done := true, inflight := none }) ∧
        (¬ (b 1 ≤ 59 ∧ b 2 ≤ 59 ∧ b 3 ≤ 1 ∧ b 5 ≤ 59 ∧ b 6 ≤ 59 ∧ b 7 ≤ 1) → Raises .decLoc s (.protocol .badPayload))) ∧
      ((∃ v w, packed v ∧ packed w ∧
          exec .decLoc s = .next { s with res0 := v, res1 := w, done := true, inflight := none }) ∨
        Raises .decLoc s (.protocol .badPayload))) ∧
    (s.rxlen = s.params.respLen.getTime →
      (s.rxlen = 8 →
        (b 7 ≤ 1 →
          exec .decTime s = .next
            { s with res0 := BitVec.ofNat 64
                       (b 5 * 2 ^ 40 + b 4 * 2 ^ 32 + b 3 * 2 ^ 24 + b 2 * 2 ^ 16 + b 1 * 2 ^ 8 + b 0)
                     res1 := BitVec.ofInt 64 (if 128 ≤ b 6 then (b 6 : ℤ) - 256 else b 6)
                     res2 := BitVec.ofNat 64 (b 7), done := true, inflight := none }) ∧
        (1 < b 7 → Raises .decTime s (.protocol .badPayload))) ∧
      ((∃ v w x, v.toNat < 2 ^ 48 ∧ -128 ≤ w.toInt ∧ w.toInt ≤ 127 ∧ x.toNat ≤ 1 ∧
          exec .decTime s = .next { s with res0 := v, res1 := w, res2 := x, done := true, inflight := none }) ∨
        Raises .decTime s (.protocol .badPayload)))

/-- `42_response_framer.md` R226, R227, R228: DEC_ECHO compares its byte with ECHOREF; DEC_ALIGN takes a raw 0/1 byte and
DEC_GOTO an ASCII '0'/'1' character, and neither takes the other's. -/
def Obligations.OneByteRepliesDecode : Prop :=
  EncodedAs .decEcho 0x74 0 0 0 0 ∧ EncodedAs .decAlign 0x75 0 0 0 0 ∧ EncodedAs .decGoto 0x76 0 0 0 0 ∧
  ∀ s : State,
    (s.rxvalid = false ∨ s.rxlen ≠ 1 → ∀ i ∈ [Instr.decEcho, .decAlign, .decGoto], Raises i s (.usage .noFrame)) ∧
    (s.rxvalid = true → s.rxlen = 1 →
      (s.rxByte 0 = s.echoref → Answers .decEcho s (BitVec.ofNat 64 s.echoref.toNat)) ∧
      (s.rxByte 0 ≠ s.echoref → Raises .decEcho s (.protocol .echoMismatch)) ∧
      (s.rxByte 0 = 0x00 → Answers .decAlign s 0 ∧ Raises .decGoto s (.protocol .badPayload)) ∧
      (s.rxByte 0 = 0x01 → Answers .decAlign s 1 ∧ Raises .decGoto s (.protocol .badPayload)) ∧
      (s.rxByte 0 = 0x30 → Answers .decGoto s 0 ∧ Raises .decAlign s (.protocol .badPayload)) ∧
      (s.rxByte 0 = 0x31 → Answers .decGoto s 1 ∧ Raises .decAlign s (.protocol .badPayload)) ∧
      (s.rxByte 0 ∉ [(0x00 : Byte), 0x01, 0x30, 0x31] →
        Raises .decAlign s (.protocol .badPayload) ∧ Raises .decGoto s (.protocol .badPayload)))

/-! ### Requests and replies together -/

/-- `90_conflicts.md` C4, `42_response_framer.md` R224, R225, R226: a reply that carries back the operand bytes of a set-time,
set-location or echo request decodes to the operands the request was built from. -/
def Obligations.RepliesInvertRequests : Prop :=
  ∀ s t u : State, s.mem.wf = true → s.error = none → t.error = none → u.rxvalid = true →
    (∀ i < u.rxlen.toNat, u.rxByte i = t.txByte (i + 1)) →
    (∀ dst, exec (.cbSettime dst) s = .next t → u.params.respLen.getTime = 8 → u.rxlen = 8 →
      exec .decTime u = .next
        { u with res0 := BitVec.ofNat 64 (s.opa.toNat % 2 ^ 48), res1 := s.opb, res2 := BitVec.ofNat 64 dst.toNat
                 done := true, inflight := none }) ∧
    (exec .cbSetloc s = .next t → u.params.respLen.getLocation = 8 → u.rxlen = 8 →
      exec .decLoc u = .next
        { u with res0 := s.opa &&& 0x01FF3F3F, res1 := s.opb &&& 0x01FF3F3F, done := true, inflight := none }) ∧
    (∀ b, exec (.cbEcho b) s = .next t → u.echoref = t.echoref → u.rxlen = 1 →
      Answers .decEcho u (BitVec.ofNat 64 b.toNat))

/-- `41_command_builder.md` R167, R169, `42_response_framer.md` R221, R222: a position reply that carries back the coordinate
text of a goto request decodes to the codes that QNT answers for the two angles. -/
def Obligations.PositionTextReadsBack : Prop :=
  ∀ (p : Precision) (m : CoordMode) (s t u : State), s.mem.wf = true → s.error = none → t.error = none →
    exec (.cbGoto p m) s = .next t → u.rxvalid = true → u.rxlen.toNat = 2 * hexDigits p + 1 →
    (∀ i < u.rxlen.toNat, u.rxByte i = t.txByte (i + 1)) →
    ∃ v c1 c2, exec (.decPos p) u = .next v ∧ v.error = u.error ∧ Answers (.qnt p) s c1 ∧ v.res2 = c1 ∧
      Answers (.qnt p) { s with opa := s.opb } c2 ∧ v.res3 = c2

/-! ### The wire opcodes and the sub-commands -/

/-- `30_encoding.md` R100 to R106: each wire opcode, taken by the TX sink, opens a request of its length with its reply
length, and each sub-command code is taken with its body's length; nothing else changes. That these bytes are
instructions of the TX sink is the model's choice: log entry 4. -/
def Obligations.WireBytesAreTaken : Prop :=
  ∀ s : State,
    let R := s.params.respLen
    (∀ r ∈ [(Instr.wireGetPositionRaDec, (0x45 : Byte), 1, some (9 : Byte)),
        (.wireGetPositionRaDecPrecise, 0x65, 1, some 17), (.wireGetPositionAzmAlt, 0x5A, 1, some 9),
        (.wireGetPositionAzmAltPrecise, 0x7A, 1, some 17), (.wireGotoPositionRaDec, 0x52, 10, some 0),
        (.wireGotoPositionRaDecPrecise, 0x72, 18, some 0), (.wireGotoPositionAzmAlt, 0x42, 10, some 0),
        (.wireGotoPositionAzmAltPrecise, 0x62, 18, some 0), (.wireSync, 0x53, 10, some R.sync),
        (.wireSyncPrecise, 0x73, 18, some R.sync), (.wireGetTrackingMode, 0x74, 1, some R.getTrackingMode),
        (.wireSetTrackingMode, 0x54, 2, some R.setTrackingMode), (.wireGetLocation, 0x77, 1, some R.getLocation),
        (.wireSetLocation, 0x57, 9, some R.setLocation), (.wireGetTime, 0x68, 1, some R.getTime),
        (.wireSetTime, 0x48, 9, some R.setTime), (.wireGetVersion, 0x56, 1, some R.getVersion),
        (.wireGetModel, 0x6D, 1, some R.getModel), (.wireEcho, 0x4B, 2, some 1),
        (.wireGetAlignmentComplete, 0x4A, 1, some 1), (.wireGetGotoInProgress, 0x4C, 1, some 1),
        (.wireCancelGoto, 0x4D, 1, some 0), (.wirePassthrough, 0x50, 8, none)],
      decodeCode (.wire r.2.1) = .op r.1 ∧
      exec r.1 s = .next
        { s with sink := { stream := s.sink.stream ++ [r.2.1], request := [r.2.1], left := r.2.2.1 - 1
                           reply := r.2.2.2, sub := none } }) ∧
    (∀ r ∈ [(Instr.ptsubSlewVarPos, (6 : Byte), 3), (.ptsubSlewVarNeg, 7, 3), (.ptsubSlewFixPos, 36, 2),
        (.ptsubSlewFixNeg, 37, 2), (.ptsubGetDeviceVersion, 254, 1)],
      decodeCode (.sub r.2.1) = .op r.1 ∧
      exec r.1 s = .next
        { s with sink := { s.sink with
                             stream := s.sink.stream ++ [r.2.1], request := s.sink.request ++ [r.2.1]
                             left := s.sink.left - 1, sub := some { code := r.2.1, len := r.2.2 } } })

/-! ### The link operations, step by step and to their end -/

/-- `42_response_framer.md` R211, R212, `43_passthrough.md` R256, `30_encoding.md` R97: one engine move of a RECV or PT_RECV
in flight with a byte waiting, whenever that byte arrived. After k bytes it is stored at RXBUF[k]; below N the read goes on
to k+1, and at N its attempt ends, with a frame where the byte is the terminator. A recovery read takes its one byte. That
the move which takes the last byte also ends the attempt, and in PT_RECV starts the recovery read, is the model's reading:
log entry 18. With no move pending the engine moves by itself: log entry 2. -/
def Obligations.EngineTakesOneByte : Prop :=
  ∀ (s : State) (l : Latch) (m : Word32) (b : Byte) (tl : List Byte) (rest : List Event),
    s.events = .engine :: rest ∨ s.events = [] ∧ rest = [] → s.mem.wf = true → s.rx = b :: tl →
    (∀ (pt : Bool) (k : ℕ), k ≤ l.e.toNat →
      s.inflight = some { latch := l, activity := if pt then .ptRecv k m else .recv k m } →
      ∃ m' : Memory, Stored m' (rxAddr k) [b] ∧ KeptOutside s.mem m' (rxAddr k) 1 ∧
        (k < l.e.toNat →
          step s = .next
            { moved rest s with
              mem := m', rx := tl
              inflight := some { latch := l, activity := if pt then .ptRecv (k + 1) m else .recv (k + 1) m } }) ∧
        (k = l.e.toNat →
          let u : State :=
            { moved rest s with
              mem := m', rx := tl, xbyte := { s.xbyte with last := b }
              xfer := { expLen := BitVec.ofNat 9 (l.e.toNat + 1), actLen := BitVec.ofNat 9 (l.e.toNat + 1) } }
          (b = 0x23 → step s = .next { u with rxlen := l.e, rxvalid := true, inflight := none, done := true }) ∧
          (b ≠ 0x23 → pt = false →
            step s = .next
              { u with
                rxlen := 0, rxvalid := false, inflight := none, done := true, error := some (.protocol .badTerm) }) ∧
          (b ≠ 0x23 → pt = true →
            step s = .next
              { u with
                rxlen := 0, rxvalid := false
                inflight := some { latch := l, activity := .ptRecovery .badTerm l.t } }))) ∧
    (∀ (o : FrameFail) (d : ProtocolDetail), (o = .short ∧ d = .short ∨ o = .badTerm ∧ d = .badTerm) →
      s.inflight = some { latch := l, activity := .ptRecovery o m } →
      let u : State :=
        { moved rest s with
          rx := tl, inflight := none, done := true, xbyte := { s.xbyte with recGot := true, recByte := b } }
      (b = 0x23 → step s = .next { u with error := some .noAnswer }) ∧
      (b ≠ 0x23 → step s = .next { u with error := some (.protocol d), recov := true }))

/-- `60_exceptions.md` R301, `10_state.md` R42: every operation completes. Whatever moves the agents still make, a run of a
sound machine gets through them and, by the two fairness premises, to BUSY = 0, within one step for each of them and 257
more (a PT_RECV of 256 bytes and its recovery read); and an operation left in flight with no move pending ends with
DONE = 1. That the premises take effect once no move is pending is the model's form of them: log entries 2 and 6. The count
of steps rests on log entry 18 too: the step of the last byte also ends what it belongs to. -/
def Obligations.EveryOperationCompletes : Prop :=
  ∀ (s : State) (n : ℕ), Sound s → (∀ e ∈ s.events, eventOk e = true) → s.events.length + 257 ≤ n →
    ∃ t : State, runSteps n s = .next t ∧ t.events = [] ∧ t.busy = false ∧
      (s.events = [] → s.busy = true → t.done = true)
end

