-- ==== Sys2Proof/Laws/Encoding.lean ====
section
/-! SUPPORT. The fields of an operation word, and the tables' inverses. -/

namespace Sys2Proof

theorem ofBit_bit_precision (p : Precision) : Precision.ofBit p.bit = p := by cases p <;> rfl

theorem ofBit_bit_mode (m : CoordMode) : CoordMode.ofBit m.bit = m := by cases m <;> rfl

theorem bit_ofBit_precision (b : BitVec 1) : (Precision.ofBit b).bit = b := by
  revert b; decide

theorem bit_ofBit_mode (b : BitVec 1) : (CoordMode.ofBit b).bit = b := by
  revert b; decide

section fields
variable (f : Byte) (p : Precision) (m : CoordMode) (x y : Byte)

/-- The bits of an operation word, field by field. -/
theorem getLsbD_opWord (i : Nat) :
    (opWord f p m x y).getLsbD i =
      if i < 8 then f.getLsbD i
      else if i < 9 then p.bit.getLsbD (i - 8)
      else if i < 10 then m.bit.getLsbD (i - 9)
      else if i < 16 then false
      else if i < 24 then x.getLsbD (i - 16)
      else y.getLsbD (i - 24) := by
  simp only [opWord, BitVec.getLsbD_append]
  by_cases h8 : i < 8
  · simp only [h8, if_true]
  by_cases h9 : i < 9
  · simp only [h8, h9, show i - 8 < 1 by omega, if_true, if_false]
  by_cases h10 : i < 10
  · simp only [h8, h9, h10, show ¬ i - 8 < 1 by omega, show i - 9 < 1 by omega, show i - 8 - 1 = i - 9 by omega,
      if_true, if_false]
  by_cases h16 : i < 16
  · simp only [h8, h9, h10, h16, show ¬ i - 8 < 1 by omega, show ¬ i - 8 - 1 < 1 by omega,
      show i - 8 - 1 - 1 < 6 by omega, if_true, if_false, BitVec.getLsbD_zero]
  by_cases h24 : i < 24
  · simp only [h8, h9, h10, h16, h24, show ¬ i - 8 < 1 by omega, show ¬ i - 8 - 1 < 1 by omega,
      show ¬ i - 8 - 1 - 1 < 6 by omega, show i - 16 < 8 by omega, show i - 8 - 1 - 1 - 6 = i - 16 by omega,
      if_true, if_false]
  · simp only [h8, h9, h10, h16, h24, show ¬ i - 8 < 1 by omega, show ¬ i - 8 - 1 < 1 by omega,
      show ¬ i - 8 - 1 - 1 < 6 by omega, show ¬ i - 8 - 1 - 1 - 6 < 8 by omega,
      show i - 8 - 1 - 1 - 6 - 8 = i - 24 by omega, if_false]

theorem opwFunc_opWord : opwFunc (opWord f p m x y) = f := by
  apply BitVec.eq_of_getLsbD_eq
  intro i hi
  simp [opwFunc, getLsbD_opWord, hi]

theorem opwP_opWord : opwP (opWord f p m x y) = p.bit := by
  apply BitVec.eq_of_getLsbD_eq
  intro i hi
  obtain rfl : i = 0 := by omega
  simp only [opwP, BitVec.getLsbD_extractLsb', getLsbD_opWord]
  simp

theorem opwM_opWord : opwM (opWord f p m x y) = m.bit := by
  apply BitVec.eq_of_getLsbD_eq
  intro i hi
  obtain rfl : i = 0 := by omega
  simp only [opwM, BitVec.getLsbD_extractLsb', getLsbD_opWord]
  simp

theorem opwRsv_opWord : opwRsv (opWord f p m x y) = 0 := by
  apply BitVec.eq_of_getLsbD_eq
  intro i hi
  simp only [opwRsv, BitVec.getLsbD_extractLsb', getLsbD_opWord]
  simp [show ¬ 10 + i < 8 by omega, show ¬ 10 + i < 9 by omega, show 10 + i < 16 by omega]

theorem opwImm8_opWord : opwImm8 (opWord f p m x y) = x := by
  apply BitVec.eq_of_getLsbD_eq
  intro i hi
  simp only [opwImm8, BitVec.getLsbD_extractLsb', getLsbD_opWord]
  simp [hi, show ¬ 16 + i < 8 by omega, show ¬ 16 + i < 9 by omega, show ¬ 16 + i < 10 by omega,
    show 16 + i < 24 by omega]

theorem opwImm8b_opWord : opwImm8b (opWord f p m x y) = y := by
  apply BitVec.eq_of_getLsbD_eq
  intro i hi
  simp only [opwImm8b, BitVec.getLsbD_extractLsb', getLsbD_opWord]
  simp [hi, show ¬ 24 + i < 8 by omega, show ¬ 24 + i < 9 by omega, show ¬ 24 + i < 10 by omega,
    show ¬ 24 + i < 16 by omega]

end fields

/-- An operation word with RSV = 0 is the word of its fields. -/
theorem opWord_fields (w : Word32) (h : opwRsv w = 0) :
    opWord (opwFunc w) (Precision.ofBit (opwP w)) (CoordMode.ofBit (opwM w)) (opwImm8 w) (opwImm8b w) = w := by
  have hr : ∀ j, 10 ≤ j → j < 16 → w.getLsbD j = false := by
    intro j h1 h2
    have : (opwRsv w).getLsbD (j - 10) = false := by rw [h]; simp
    simpa [opwRsv, BitVec.getLsbD_extractLsb', show j - 10 < 6 by omega, show 10 + (j - 10) = j by omega] using this
  apply BitVec.eq_of_getLsbD_eq
  intro i hi
  simp only [getLsbD_opWord, bit_ofBit_precision, bit_ofBit_mode, opwFunc, opwP, opwM, opwImm8, opwImm8b,
    BitVec.getLsbD_extractLsb']
  split
  · simp_all
  · split
    · simp [show i - 8 < 1 by omega, show 8 + (i - 8) = i by omega]
    · split
      · simp [show i - 9 < 1 by omega, show 9 + (i - 9) = i by omega]
      · split
        · exact (hr i (by omega) (by omega)).symm
        · split
          · simp [show i - 16 < 8 by omega, show 16 + (i - 16) = i by omega]
          · simp [show i - 24 < 8 by omega, show 24 + (i - 24) = i by omega]

/-- Decoding the word of a FUNC's fields: the fields it does not use must be 0. -/
theorem decode_opWord (f : Byte) (p : Precision) (m : CoordMode) (x y : Byte) :
    decode (opWord f p m x y) =
      match funcMap f p m x y with
      | none => .illegal .rsvdFunc
      | some (u, i) => if unusedFieldSet u (opWord f p m x y) then .illegal .unusedField else .op i := by
  unfold decode
  rw [opwFunc_opWord, opwP_opWord, opwM_opWord, opwImm8_opWord, opwImm8b_opWord, ofBit_bit_precision, ofBit_bit_mode]
  cases funcMap f p m x y with
  | none => rfl
  | some r => simp only [opwRsv_opWord, ne_eq, not_true_eq_false, if_false]

theorem unusedFieldSet_opWord (u : Uses) (f : Byte) (p : Precision) (m : CoordMode) (x y : Byte) :
    unusedFieldSet u (opWord f p m x y) =
      ((p.bit != 0 && !u.p) || (m.bit != 0 && !u.m) || (x != 0 && !u.imm8) || (y != 0 && !u.imm8b)) := by
  unfold unusedFieldSet
  rw [opwP_opWord, opwM_opWord, opwImm8_opWord, opwImm8b_opWord]

/-- A word whose FUNC is listed and whose unused fields are 0 decodes to the operation of its row (`30_encoding.md`
R92, R94). -/
theorem decode_of_fields {f : Byte} {p : Precision} {m : CoordMode} {x y : Byte} {u : Uses} {i : Instr}
    (hf : funcMap f p m x y = some (u, i)) (hp : u.p = true ∨ p = .standard) (hm : u.m = true ∨ m = .raDec)
    (hx : u.imm8 = true ∨ x = 0) (hy : u.imm8b = true ∨ y = 0) : decode (opWord f p m x y) = .op i := by
  have hu : unusedFieldSet u (opWord f p m x y) = false := by
    rw [unusedFieldSet_opWord]
    rcases hp with h1 | h1 <;> rcases hm with h2 | h2 <;> rcases hx with h3 | h3 <;> rcases hy with h4 | h4 <;>
      simp [h1, h2, h3, h4, Precision.bit, CoordMode.bit]
  rw [decode_opWord, hf]
  simp only
  rw [hu]
  rfl

/-- The host-syntax word of `30_encoding.md` R108 is the word of R90's layout. -/
theorem fieldWord_eq_opWord (f : Byte) (p : Precision) (m : CoordMode) (x y : Byte) :
    Machine.fieldWord f.toNat p.bit.toNat m.bit.toNat x.toNat y.toNat = opWord f p m x y := by
  have ha : ∀ {j k : ℕ} (a : BitVec j) (b : BitVec k), (a ++ b).toNat = a.toNat * 2 ^ k + b.toNat := by
    intro j k a b
    rw [BitVec.toNat_append, ← Nat.shiftLeft_add_eq_or_of_lt b.isLt, Nat.shiftLeft_eq]
  apply BitVec.eq_of_toNat_eq
  unfold Machine.fieldWord opWord
  have := f.isLt
  have := x.isLt
  have := y.isLt
  have := p.bit.isLt
  have := m.bit.isLt
  simp only [ha, BitVec.toNat_ofNat]
  omega

end Sys2Proof
end

