-- ==== Sys2Proof/Laws/Memory.lean ====
section
/-! SUPPORT. The laws of the buffers' memory: read after write, and every operation keeps the canonical form. -/

namespace Sys2Proof.Machine

/-! ### One byte -/

theorem Memory.wfFrom_mono {m : Memory} {lo lo' : Nat} (hle : lo' ≤ lo) (h : m.wfFrom lo = true) :
    m.wfFrom lo' = true := by
  cases m with
  | nil => rfl
  | cons c rest =>
    obtain ⟨k, b⟩ := c
    simp only [Memory.wfFrom, Bool.and_eq_true, decide_eq_true_eq] at h ⊢
    exact ⟨⟨by omega, h.1.2⟩, h.2⟩

/-- Below its least address, a memory in canonical form lists nothing. -/
theorem Memory.read_of_lt {m : Memory} {lo a : Nat} (h : m.wfFrom lo = true) (ha : a < lo) :
    m.read a = Memory.unlisted := by
  induction m generalizing lo with
  | nil => rfl
  | cons c rest ih =>
    obtain ⟨k, b⟩ := c
    simp only [Memory.wfFrom, Bool.and_eq_true, decide_eq_true_eq] at h
    have hk : k ≠ a := by omega
    simp only [Memory.read, if_neg hk]
    exact ih h.2 (by omega)

/-- A write leaves every other address alone, in canonical form or not. -/
theorem Memory.read_write_other (m : Memory) {a x : Nat} (v : Byte) (hx : x ≠ a) :
    (m.write a v).read x = m.read x := by
  induction m with
  | nil =>
    unfold Memory.write
    split <;> simp [Memory.read, Ne.symm hx]
  | cons c rest ih =>
    obtain ⟨k, b⟩ := c
    unfold Memory.write
    split
    · split <;> simp [Memory.read, Ne.symm hx]
    · split
      · rename_i hk
        subst hk
        split <;> simp [Memory.read, Ne.symm hx]
      · simp only [Memory.read, ih]

theorem Memory.read_write_same_from {m : Memory} {lo : Nat} (a : Nat) (v : Byte) (h : m.wfFrom lo = true) :
    (m.write a v).read a = v := by
  induction m generalizing lo with
  | nil =>
    unfold Memory.write
    split <;> simp_all [Memory.read]
  | cons c rest ih =>
    obtain ⟨k, b⟩ := c
    have h' := h
    simp only [Memory.wfFrom, Bool.and_eq_true, decide_eq_true_eq] at h
    unfold Memory.write
    split
    · rename_i hlt
      split
      · rename_i hv
        have hk : k ≠ a := by omega
        simp only [Memory.read, if_neg hk, hv]
        exact Memory.read_of_lt h.2 (by omega)
      · simp [Memory.read]
    · split
      · rename_i hk
        subst hk
        split
        · rename_i hv
          rw [hv]
          exact Memory.read_of_lt h.2 (by omega)
        · simp [Memory.read]
      · rename_i hne
        have hk : k ≠ a := fun e => hne e.symm
        simp only [Memory.read, if_neg hk]
        exact ih h.2

/-- A read after a write to the same address gives the value written. -/
theorem Memory.read_write_same {m : Memory} (a : Nat) (v : Byte) (h : m.wf = true) : (m.write a v).read a = v :=
  Memory.read_write_same_from a v h

theorem Memory.wfFrom_write {m : Memory} {lo : Nat} (a : Nat) (v : Byte) (h : m.wfFrom lo = true) (ha : lo ≤ a) :
    (m.write a v).wfFrom lo = true := by
  induction m generalizing lo with
  | nil =>
    unfold Memory.write
    split <;> simp_all [Memory.wfFrom]
  | cons c rest ih =>
    obtain ⟨k, b⟩ := c
    have h' := h
    simp only [Memory.wfFrom, Bool.and_eq_true, decide_eq_true_eq] at h
    unfold Memory.write
    split
    · split
      · exact h'
      · rename_i hlt hv
        simp only [Memory.wfFrom, Bool.and_eq_true, decide_eq_true_eq]
        exact ⟨⟨ha, by simpa using hv⟩, ⟨by omega, h.1.2⟩, h.2⟩
    · split
      · rename_i hk
        subst hk
        split
        · exact Memory.wfFrom_mono (by omega) h.2
        · rename_i hv
          simp only [Memory.wfFrom, Bool.and_eq_true, decide_eq_true_eq]
          exact ⟨⟨ha, by simpa using hv⟩, h.2⟩
      · simp only [Memory.wfFrom, Bool.and_eq_true, decide_eq_true_eq]
        exact ⟨h.1, ih h.2 (by omega)⟩

/-- A write keeps the canonical form. -/
theorem Memory.wf_write {m : Memory} (a : Nat) (v : Byte) (h : m.wf = true) : (m.write a v).wf = true :=
  Memory.wfFrom_write a v h (Nat.zero_le a)

/-- A write to a buffer address keeps every listed byte inside the buffers. -/
theorem Memory.mapped_write {m : Memory} {a : Nat} (v : Byte) (h : m.mapped = true) (ha : isBufferAddr a = true) :
    (m.write a v).mapped = true := by
  induction m with
  | nil =>
    unfold Memory.write
    split <;> simp [Memory.mapped, ha]
  | cons c rest ih =>
    obtain ⟨k, b⟩ := c
    simp only [Memory.mapped, List.all_cons, Bool.and_eq_true] at h
    have hrest : Memory.mapped rest = true := h.2
    unfold Memory.write
    split
    · split
      · simp only [Memory.mapped, List.all_cons, Bool.and_eq_true]
        exact h
      · simp only [Memory.mapped, List.all_cons, Bool.and_eq_true]
        exact ⟨ha, h⟩
    · split
      · split
        · exact hrest
        · simp only [Memory.mapped, List.all_cons, Bool.and_eq_true]
          exact ⟨ha, hrest⟩
      · simp only [Memory.mapped, List.all_cons, Bool.and_eq_true]
        exact ⟨h.1, ih hrest⟩

/-! ### A run of bytes -/

/-- A run of writes keeps the canonical form. -/
theorem Memory.wf_writeList {m : Memory} (a : Nat) (bs : List Byte) (h : m.wf = true) :
    (m.writeList a bs).wf = true := by
  induction bs generalizing m a with
  | nil => exact h
  | cons b bs ih => exact ih (a + 1) (Memory.wf_write a b h)

/-- A run of writes inside the buffers keeps every listed byte inside them. -/
theorem Memory.mapped_writeList {m : Memory} (a : Nat) (bs : List Byte) (h : m.mapped = true)
    (ha : ∀ i, i < bs.length → isBufferAddr (a + i) = true) : (m.writeList a bs).mapped = true := by
  induction bs generalizing m a with
  | nil => exact h
  | cons b bs ih =>
    refine ih (a + 1) (Memory.mapped_write b h (by simpa using ha 0 (by simp))) fun i hi => ?_
    have := ha (i + 1) (by simpa using hi)
    simpa [Nat.add_assoc, Nat.add_comm 1 i] using this

/-- Outside the run, every byte reads as before. -/
theorem Memory.read_writeList_outside (m : Memory) {a x : Nat} (bs : List Byte) (hx : x < a ∨ a + bs.length ≤ x) :
    (m.writeList a bs).read x = m.read x := by
  induction bs generalizing m a with
  | nil => rfl
  | cons b bs ih =>
    simp only [List.length_cons] at hx
    rw [Memory.writeList, ih (Memory.write m a b) (by omega), Memory.read_write_other m b (by omega)]

/-- Inside the run stand the bytes written. -/
theorem Memory.read_writeList_inside {m : Memory} (a : Nat) (bs : List Byte) (h : m.wf = true) (i : Nat)
    (hi : i < bs.length) : (m.writeList a bs).read (a + i) = bs[i] := by
  induction bs generalizing m a i with
  | nil => simp at hi
  | cons b bs ih =>
    cases i with
    | zero =>
      rw [Memory.writeList, Nat.add_zero, Memory.read_writeList_outside (Memory.write m a b) bs (by omega)]
      exact Memory.read_write_same a b h
    | succ j =>
      have := ih (a + 1) (Memory.wf_write a b h) j (by simpa using hi)
      rw [Memory.writeList, show a + (j + 1) = a + 1 + j by omega, this]
      rfl

/-- Reset memory is in canonical form. -/
theorem reset_mem_wf : State.reset.mem.wf = true := rfl

/-! ### The buffers' addresses -/

theorem isBufferAddr_txAddr {i : Nat} (h : i < Config.txCap) : isBufferAddr (txAddr i) = true := by
  rw [isBufferAddr, Bool.or_eq_true]
  exact .inl (decide_eq_true (by unfold txAddr; omega))

theorem isBufferAddr_rxAddr {i : Nat} (h : i < Config.rxCap) : isBufferAddr (rxAddr i) = true := by
  rw [isBufferAddr, Bool.or_eq_true]
  exact .inr (decide_eq_true (by unfold rxAddr; omega))

/-- TXBUF and RXBUF do not overlap. -/
theorem rxAddr_outside_txBuf (i n : Nat) (h : n ≤ Config.txCap) : txAddr 0 + n ≤ rxAddr i := by
  simp only [txAddr, rxAddr, Config.txBase, Config.rxBase, Config.txCap] at *
  omega

end Sys2Proof.Machine
end

