-- ==== Sys2Proof/Laws/State.lean ====
section
/-! SUPPORT. One lemma per field per update of the state, each true by rfl, so that no later proof unfolds a record
update. -/

namespace Sys2Proof.Machine

/-! ### raise -/

@[simp] theorem raise_opw (e : OpError) (s : State) : (raise e s).opw = s.opw := rfl
@[simp] theorem raise_opa (e : OpError) (s : State) : (raise e s).opa = s.opa := rfl
@[simp] theorem raise_opb (e : OpError) (s : State) : (raise e s).opb = s.opb := rfl
@[simp] theorem raise_res0 (e : OpError) (s : State) : (raise e s).res0 = s.res0 := rfl
@[simp] theorem raise_res1 (e : OpError) (s : State) : (raise e s).res1 = s.res1 := rfl
@[simp] theorem raise_res2 (e : OpError) (s : State) : (raise e s).res2 = s.res2 := rfl
@[simp] theorem raise_res3 (e : OpError) (s : State) : (raise e s).res3 = s.res3 := rfl
@[simp] theorem raise_done (e : OpError) (s : State) : (raise e s).done = true := rfl
@[simp] theorem raise_coll (e : OpError) (s : State) : (raise e s).coll = s.coll := rfl
@[simp] theorem raise_rxvalid (e : OpError) (s : State) : (raise e s).rxvalid = s.rxvalid := rfl
@[simp] theorem raise_error (e : OpError) (s : State) : (raise e s).error = some e := rfl
@[simp] theorem raise_recov (e : OpError) (s : State) : (raise e s).recov = s.recov := rfl
@[simp] theorem raise_xfer (e : OpError) (s : State) : (raise e s).xfer = s.xfer := rfl
@[simp] theorem raise_xbyte (e : OpError) (s : State) : (raise e s).xbyte = s.xbyte := rfl
@[simp] theorem raise_txlen (e : OpError) (s : State) : (raise e s).txlen = s.txlen := rfl
@[simp] theorem raise_explen (e : OpError) (s : State) : (raise e s).explen = s.explen := rfl
@[simp] theorem raise_rxlen (e : OpError) (s : State) : (raise e s).rxlen = s.rxlen := rfl
@[simp] theorem raise_echoref (e : OpError) (s : State) : (raise e s).echoref = s.echoref := rfl
@[simp] theorem raise_timeout (e : OpError) (s : State) : (raise e s).timeout = s.timeout := rfl
@[simp] theorem raise_mem (e : OpError) (s : State) : (raise e s).mem = s.mem := rfl
@[simp] theorem raise_inflight (e : OpError) (s : State) : (raise e s).inflight = none := rfl
@[simp] theorem raise_rx (e : OpError) (s : State) : (raise e s).rx = s.rx := rfl
@[simp] theorem raise_sink (e : OpError) (s : State) : (raise e s).sink = s.sink := rfl
@[simp] theorem raise_params (e : OpError) (s : State) : (raise e s).params = s.params := rfl
@[simp] theorem raise_events (e : OpError) (s : State) : (raise e s).events = s.events := rfl
@[simp] theorem raise_busData (e : OpError) (s : State) : (raise e s).busData = s.busData := rfl
@[simp] theorem raise_before (e : OpError) (s : State) : (raise e s).before = s.before := rfl
@[simp] theorem raise_freeCount (e : OpError) (s : State) : (raise e s).freeCount = s.freeCount := rfl

/-! ### complete -/

@[simp] theorem complete_opw (s : State) : (complete s).opw = s.opw := rfl
@[simp] theorem complete_opa (s : State) : (complete s).opa = s.opa := rfl
@[simp] theorem complete_opb (s : State) : (complete s).opb = s.opb := rfl
@[simp] theorem complete_res0 (s : State) : (complete s).res0 = s.res0 := rfl
@[simp] theorem complete_res1 (s : State) : (complete s).res1 = s.res1 := rfl
@[simp] theorem complete_res2 (s : State) : (complete s).res2 = s.res2 := rfl
@[simp] theorem complete_res3 (s : State) : (complete s).res3 = s.res3 := rfl
@[simp] theorem complete_done (s : State) : (complete s).done = true := rfl
@[simp] theorem complete_coll (s : State) : (complete s).coll = s.coll := rfl
@[simp] theorem complete_rxvalid (s : State) : (complete s).rxvalid = s.rxvalid := rfl
@[simp] theorem complete_error (s : State) : (complete s).error = s.error := rfl
@[simp] theorem complete_recov (s : State) : (complete s).recov = s.recov := rfl
@[simp] theorem complete_xfer (s : State) : (complete s).xfer = s.xfer := rfl
@[simp] theorem complete_xbyte (s : State) : (complete s).xbyte = s.xbyte := rfl
@[simp] theorem complete_txlen (s : State) : (complete s).txlen = s.txlen := rfl
@[simp] theorem complete_explen (s : State) : (complete s).explen = s.explen := rfl
@[simp] theorem complete_rxlen (s : State) : (complete s).rxlen = s.rxlen := rfl
@[simp] theorem complete_echoref (s : State) : (complete s).echoref = s.echoref := rfl
@[simp] theorem complete_timeout (s : State) : (complete s).timeout = s.timeout := rfl
@[simp] theorem complete_mem (s : State) : (complete s).mem = s.mem := rfl
@[simp] theorem complete_inflight (s : State) : (complete s).inflight = none := rfl
@[simp] theorem complete_rx (s : State) : (complete s).rx = s.rx := rfl
@[simp] theorem complete_sink (s : State) : (complete s).sink = s.sink := rfl
@[simp] theorem complete_params (s : State) : (complete s).params = s.params := rfl
@[simp] theorem complete_events (s : State) : (complete s).events = s.events := rfl
@[simp] theorem complete_busData (s : State) : (complete s).busData = s.busData := rfl
@[simp] theorem complete_before (s : State) : (complete s).before = s.before := rfl
@[simp] theorem complete_freeCount (s : State) : (complete s).freeCount = s.freeCount := rfl

/-! ### accept -/

@[simp] theorem accept_opw (w : Word32) (s : State) : (accept w s).opw = w := rfl
@[simp] theorem accept_opa (w : Word32) (s : State) : (accept w s).opa = s.opa := rfl
@[simp] theorem accept_opb (w : Word32) (s : State) : (accept w s).opb = s.opb := rfl
@[simp] theorem accept_res0 (w : Word32) (s : State) : (accept w s).res0 = s.res0 := rfl
@[simp] theorem accept_res1 (w : Word32) (s : State) : (accept w s).res1 = s.res1 := rfl
@[simp] theorem accept_res2 (w : Word32) (s : State) : (accept w s).res2 = s.res2 := rfl
@[simp] theorem accept_res3 (w : Word32) (s : State) : (accept w s).res3 = s.res3 := rfl
@[simp] theorem accept_done (w : Word32) (s : State) : (accept w s).done = false := rfl
@[simp] theorem accept_coll (w : Word32) (s : State) : (accept w s).coll = s.coll := rfl
@[simp] theorem accept_rxvalid (w : Word32) (s : State) : (accept w s).rxvalid = s.rxvalid := rfl
@[simp] theorem accept_error (w : Word32) (s : State) : (accept w s).error = none := rfl
@[simp] theorem accept_recov (w : Word32) (s : State) : (accept w s).recov = false := rfl
@[simp] theorem accept_xfer (w : Word32) (s : State) : (accept w s).xfer = { expLen := 0, actLen := 0 } := rfl
@[simp] theorem accept_xbyte (w : Word32) (s : State) :
    (accept w s).xbyte = { last := 0, recByte := 0, recGot := false } := rfl
@[simp] theorem accept_txlen (w : Word32) (s : State) : (accept w s).txlen = s.txlen := rfl
@[simp] theorem accept_explen (w : Word32) (s : State) : (accept w s).explen = s.explen := rfl
@[simp] theorem accept_rxlen (w : Word32) (s : State) : (accept w s).rxlen = s.rxlen := rfl
@[simp] theorem accept_echoref (w : Word32) (s : State) : (accept w s).echoref = s.echoref := rfl
@[simp] theorem accept_timeout (w : Word32) (s : State) : (accept w s).timeout = s.timeout := rfl
@[simp] theorem accept_mem (w : Word32) (s : State) : (accept w s).mem = s.mem := rfl
@[simp] theorem accept_inflight (w : Word32) (s : State) : (accept w s).inflight = s.inflight := rfl
@[simp] theorem accept_rx (w : Word32) (s : State) : (accept w s).rx = s.rx := rfl
@[simp] theorem accept_sink (w : Word32) (s : State) : (accept w s).sink = s.sink := rfl
@[simp] theorem accept_params (w : Word32) (s : State) : (accept w s).params = s.params := rfl
@[simp] theorem accept_events (w : Word32) (s : State) : (accept w s).events = s.events := rfl
@[simp] theorem accept_busData (w : Word32) (s : State) : (accept w s).busData = s.busData := rfl
@[simp] theorem accept_before (w : Word32) (s : State) : (accept w s).before = s.before := rfl
@[simp] theorem accept_freeCount (w : Word32) (s : State) : (accept w s).freeCount = s.freeCount := rfl

/-! ### tick -/

@[simp] theorem tick_opw (s : State) : (tick s).opw = s.opw := rfl
@[simp] theorem tick_opa (s : State) : (tick s).opa = s.opa := rfl
@[simp] theorem tick_opb (s : State) : (tick s).opb = s.opb := rfl
@[simp] theorem tick_res0 (s : State) : (tick s).res0 = s.res0 := rfl
@[simp] theorem tick_res1 (s : State) : (tick s).res1 = s.res1 := rfl
@[simp] theorem tick_res2 (s : State) : (tick s).res2 = s.res2 := rfl
@[simp] theorem tick_res3 (s : State) : (tick s).res3 = s.res3 := rfl
@[simp] theorem tick_done (s : State) : (tick s).done = s.done := rfl
@[simp] theorem tick_coll (s : State) : (tick s).coll = s.coll := rfl
@[simp] theorem tick_rxvalid (s : State) : (tick s).rxvalid = s.rxvalid := rfl
@[simp] theorem tick_error (s : State) : (tick s).error = s.error := rfl
@[simp] theorem tick_recov (s : State) : (tick s).recov = s.recov := rfl
@[simp] theorem tick_xfer (s : State) : (tick s).xfer = s.xfer := rfl
@[simp] theorem tick_xbyte (s : State) : (tick s).xbyte = s.xbyte := rfl
@[simp] theorem tick_txlen (s : State) : (tick s).txlen = s.txlen := rfl
@[simp] theorem tick_explen (s : State) : (tick s).explen = s.explen := rfl
@[simp] theorem tick_rxlen (s : State) : (tick s).rxlen = s.rxlen := rfl
@[simp] theorem tick_echoref (s : State) : (tick s).echoref = s.echoref := rfl
@[simp] theorem tick_timeout (s : State) : (tick s).timeout = s.timeout := rfl
@[simp] theorem tick_mem (s : State) : (tick s).mem = s.mem := rfl
@[simp] theorem tick_inflight (s : State) : (tick s).inflight = s.inflight := rfl
@[simp] theorem tick_rx (s : State) : (tick s).rx = s.rx := rfl
@[simp] theorem tick_sink (s : State) : (tick s).sink = s.sink := rfl
@[simp] theorem tick_params (s : State) : (tick s).params = s.params := rfl
@[simp] theorem tick_events (s : State) : (tick s).events = s.events := rfl
@[simp] theorem tick_busData (s : State) : (tick s).busData = s.busData := rfl
@[simp] theorem tick_before (s : State) : (tick s).before = s.before := rfl
@[simp] theorem tick_freeCount (s : State) : (tick s).freeCount = s.freeCount + 1 := rfl

/-! ### emit -/

@[simp] theorem emit_opw (frame : List Byte) (n : Byte) (s : State) : (emit frame n s).opw = s.opw := rfl
@[simp] theorem emit_opa (frame : List Byte) (n : Byte) (s : State) : (emit frame n s).opa = s.opa := rfl
@[simp] theorem emit_opb (frame : List Byte) (n : Byte) (s : State) : (emit frame n s).opb = s.opb := rfl
@[simp] theorem emit_res0 (frame : List Byte) (n : Byte) (s : State) : (emit frame n s).res0 = s.res0 := rfl
@[simp] theorem emit_res1 (frame : List Byte) (n : Byte) (s : State) : (emit frame n s).res1 = s.res1 := rfl
@[simp] theorem emit_res2 (frame : List Byte) (n : Byte) (s : State) : (emit frame n s).res2 = s.res2 := rfl
@[simp] theorem emit_res3 (frame : List Byte) (n : Byte) (s : State) : (emit frame n s).res3 = s.res3 := rfl
@[simp] theorem emit_done (frame : List Byte) (n : Byte) (s : State) : (emit frame n s).done = s.done := rfl
@[simp] theorem emit_coll (frame : List Byte) (n : Byte) (s : State) : (emit frame n s).coll = s.coll := rfl
@[simp] theorem emit_rxvalid (frame : List Byte) (n : Byte) (s : State) : (emit frame n s).rxvalid = s.rxvalid := rfl
@[simp] theorem emit_error (frame : List Byte) (n : Byte) (s : State) : (emit frame n s).error = s.error := rfl
@[simp] theorem emit_recov (frame : List Byte) (n : Byte) (s : State) : (emit frame n s).recov = s.recov := rfl
@[simp] theorem emit_xfer (frame : List Byte) (n : Byte) (s : State) : (emit frame n s).xfer = s.xfer := rfl
@[simp] theorem emit_xbyte (frame : List Byte) (n : Byte) (s : State) : (emit frame n s).xbyte = s.xbyte := rfl
@[simp] theorem emit_txlen (frame : List Byte) (n : Byte) (s : State) :
    (emit frame n s).txlen = BitVec.ofNat 6 frame.length := rfl
@[simp] theorem emit_explen (frame : List Byte) (n : Byte) (s : State) : (emit frame n s).explen = n := rfl
@[simp] theorem emit_rxlen (frame : List Byte) (n : Byte) (s : State) : (emit frame n s).rxlen = s.rxlen := rfl
@[simp] theorem emit_echoref (frame : List Byte) (n : Byte) (s : State) : (emit frame n s).echoref = s.echoref := rfl
@[simp] theorem emit_timeout (frame : List Byte) (n : Byte) (s : State) : (emit frame n s).timeout = s.timeout := rfl
@[simp] theorem emit_mem (frame : List Byte) (n : Byte) (s : State) :
    (emit frame n s).mem = s.mem.writeList (txAddr 0) frame := rfl
@[simp] theorem emit_inflight (frame : List Byte) (n : Byte) (s : State) :
    (emit frame n s).inflight = s.inflight := rfl
@[simp] theorem emit_rx (frame : List Byte) (n : Byte) (s : State) : (emit frame n s).rx = s.rx := rfl
@[simp] theorem emit_sink (frame : List Byte) (n : Byte) (s : State) : (emit frame n s).sink = s.sink := rfl
@[simp] theorem emit_params (frame : List Byte) (n : Byte) (s : State) : (emit frame n s).params = s.params := rfl
@[simp] theorem emit_events (frame : List Byte) (n : Byte) (s : State) : (emit frame n s).events = s.events := rfl
@[simp] theorem emit_busData (frame : List Byte) (n : Byte) (s : State) : (emit frame n s).busData = s.busData := rfl
@[simp] theorem emit_before (frame : List Byte) (n : Byte) (s : State) : (emit frame n s).before = s.before := rfl
@[simp] theorem emit_freeCount (frame : List Byte) (n : Byte) (s : State) :
    (emit frame n s).freeCount = s.freeCount := rfl

/-! ### startLink -/

@[simp] theorem startLink_opw (act : Activity) (s : State) : (startLink act s).opw = s.opw := rfl
@[simp] theorem startLink_opa (act : Activity) (s : State) : (startLink act s).opa = s.opa := rfl
@[simp] theorem startLink_opb (act : Activity) (s : State) : (startLink act s).opb = s.opb := rfl
@[simp] theorem startLink_res0 (act : Activity) (s : State) : (startLink act s).res0 = s.res0 := rfl
@[simp] theorem startLink_res1 (act : Activity) (s : State) : (startLink act s).res1 = s.res1 := rfl
@[simp] theorem startLink_res2 (act : Activity) (s : State) : (startLink act s).res2 = s.res2 := rfl
@[simp] theorem startLink_res3 (act : Activity) (s : State) : (startLink act s).res3 = s.res3 := rfl
@[simp] theorem startLink_done (act : Activity) (s : State) : (startLink act s).done = s.done := rfl
@[simp] theorem startLink_coll (act : Activity) (s : State) : (startLink act s).coll = s.coll := rfl
@[simp] theorem startLink_rxvalid (act : Activity) (s : State) : (startLink act s).rxvalid = s.rxvalid := rfl
@[simp] theorem startLink_error (act : Activity) (s : State) : (startLink act s).error = s.error := rfl
@[simp] theorem startLink_recov (act : Activity) (s : State) : (startLink act s).recov = s.recov := rfl
@[simp] theorem startLink_xfer (act : Activity) (s : State) : (startLink act s).xfer = s.xfer := rfl
@[simp] theorem startLink_xbyte (act : Activity) (s : State) : (startLink act s).xbyte = s.xbyte := rfl
@[simp] theorem startLink_txlen (act : Activity) (s : State) : (startLink act s).txlen = s.txlen := rfl
@[simp] theorem startLink_explen (act : Activity) (s : State) : (startLink act s).explen = s.explen := rfl
@[simp] theorem startLink_rxlen (act : Activity) (s : State) : (startLink act s).rxlen = s.rxlen := rfl
@[simp] theorem startLink_echoref (act : Activity) (s : State) : (startLink act s).echoref = s.echoref := rfl
@[simp] theorem startLink_timeout (act : Activity) (s : State) : (startLink act s).timeout = s.timeout := rfl
@[simp] theorem startLink_mem (act : Activity) (s : State) : (startLink act s).mem = s.mem := rfl
@[simp] theorem startLink_inflight (act : Activity) (s : State) :
    (startLink act s).inflight = some { latch := s.latched, activity := act } := rfl
@[simp] theorem startLink_rx (act : Activity) (s : State) : (startLink act s).rx = s.rx := rfl
@[simp] theorem startLink_sink (act : Activity) (s : State) : (startLink act s).sink = s.sink := rfl
@[simp] theorem startLink_params (act : Activity) (s : State) : (startLink act s).params = s.params := rfl
@[simp] theorem startLink_events (act : Activity) (s : State) : (startLink act s).events = s.events := rfl
@[simp] theorem startLink_busData (act : Activity) (s : State) : (startLink act s).busData = s.busData := rfl
@[simp] theorem startLink_before (act : Activity) (s : State) : (startLink act s).before = s.linkRegs := rfl
@[simp] theorem startLink_freeCount (act : Activity) (s : State) : (startLink act s).freeCount = s.freeCount := rfl

/-! ### recordRead -/

@[simp] theorem recordRead_opw (n : Byte) (k : Nat) (s : State) : (recordRead n k s).opw = s.opw := rfl
@[simp] theorem recordRead_opa (n : Byte) (k : Nat) (s : State) : (recordRead n k s).opa = s.opa := rfl
@[simp] theorem recordRead_opb (n : Byte) (k : Nat) (s : State) : (recordRead n k s).opb = s.opb := rfl
@[simp] theorem recordRead_res0 (n : Byte) (k : Nat) (s : State) : (recordRead n k s).res0 = s.res0 := rfl
@[simp] theorem recordRead_res1 (n : Byte) (k : Nat) (s : State) : (recordRead n k s).res1 = s.res1 := rfl
@[simp] theorem recordRead_res2 (n : Byte) (k : Nat) (s : State) : (recordRead n k s).res2 = s.res2 := rfl
@[simp] theorem recordRead_res3 (n : Byte) (k : Nat) (s : State) : (recordRead n k s).res3 = s.res3 := rfl
@[simp] theorem recordRead_done (n : Byte) (k : Nat) (s : State) : (recordRead n k s).done = s.done := rfl
@[simp] theorem recordRead_coll (n : Byte) (k : Nat) (s : State) : (recordRead n k s).coll = s.coll := rfl
@[simp] theorem recordRead_rxvalid (n : Byte) (k : Nat) (s : State) : (recordRead n k s).rxvalid = s.rxvalid := rfl
@[simp] theorem recordRead_error (n : Byte) (k : Nat) (s : State) : (recordRead n k s).error = s.error := rfl
@[simp] theorem recordRead_recov (n : Byte) (k : Nat) (s : State) : (recordRead n k s).recov = s.recov := rfl
@[simp] theorem recordRead_xfer (n : Byte) (k : Nat) (s : State) :
    (recordRead n k s).xfer = { expLen := BitVec.ofNat 9 (frameLen n), actLen := BitVec.ofNat 9 k } := rfl
@[simp] theorem recordRead_xbyte (n : Byte) (k : Nat) (s : State) :
    (recordRead n k s).xbyte = { s.xbyte with last := if 0 < k then s.rxByte (k - 1) else 0 } := rfl
@[simp] theorem recordRead_txlen (n : Byte) (k : Nat) (s : State) : (recordRead n k s).txlen = s.txlen := rfl
@[simp] theorem recordRead_explen (n : Byte) (k : Nat) (s : State) : (recordRead n k s).explen = s.explen := rfl
@[simp] theorem recordRead_rxlen (n : Byte) (k : Nat) (s : State) : (recordRead n k s).rxlen = s.rxlen := rfl
@[simp] theorem recordRead_echoref (n : Byte) (k : Nat) (s : State) : (recordRead n k s).echoref = s.echoref := rfl
@[simp] theorem recordRead_timeout (n : Byte) (k : Nat) (s : State) : (recordRead n k s).timeout = s.timeout := rfl
@[simp] theorem recordRead_mem (n : Byte) (k : Nat) (s : State) : (recordRead n k s).mem = s.mem := rfl
@[simp] theorem recordRead_inflight (n : Byte) (k : Nat) (s : State) : (recordRead n k s).inflight = s.inflight := rfl
@[simp] theorem recordRead_rx (n : Byte) (k : Nat) (s : State) : (recordRead n k s).rx = s.rx := rfl
@[simp] theorem recordRead_sink (n : Byte) (k : Nat) (s : State) : (recordRead n k s).sink = s.sink := rfl
@[simp] theorem recordRead_params (n : Byte) (k : Nat) (s : State) : (recordRead n k s).params = s.params := rfl
@[simp] theorem recordRead_events (n : Byte) (k : Nat) (s : State) : (recordRead n k s).events = s.events := rfl
@[simp] theorem recordRead_busData (n : Byte) (k : Nat) (s : State) : (recordRead n k s).busData = s.busData := rfl
@[simp] theorem recordRead_before (n : Byte) (k : Nat) (s : State) : (recordRead n k s).before = s.before := rfl
@[simp] theorem recordRead_freeCount (n : Byte) (k : Nat) (s : State) :
    (recordRead n k s).freeCount = s.freeCount := rfl

/-! ### acceptFrame -/

@[simp] theorem acceptFrame_opw (n : Byte) (s : State) : (acceptFrame n s).opw = s.opw := rfl
@[simp] theorem acceptFrame_opa (n : Byte) (s : State) : (acceptFrame n s).opa = s.opa := rfl
@[simp] theorem acceptFrame_opb (n : Byte) (s : State) : (acceptFrame n s).opb = s.opb := rfl
@[simp] theorem acceptFrame_res0 (n : Byte) (s : State) : (acceptFrame n s).res0 = s.res0 := rfl
@[simp] theorem acceptFrame_res1 (n : Byte) (s : State) : (acceptFrame n s).res1 = s.res1 := rfl
@[simp] theorem acceptFrame_res2 (n : Byte) (s : State) : (acceptFrame n s).res2 = s.res2 := rfl
@[simp] theorem acceptFrame_res3 (n : Byte) (s : State) : (acceptFrame n s).res3 = s.res3 := rfl
@[simp] theorem acceptFrame_done (n : Byte) (s : State) : (acceptFrame n s).done = s.done := rfl
@[simp] theorem acceptFrame_coll (n : Byte) (s : State) : (acceptFrame n s).coll = s.coll := rfl
@[simp] theorem acceptFrame_rxvalid (n : Byte) (s : State) : (acceptFrame n s).rxvalid = true := rfl
@[simp] theorem acceptFrame_error (n : Byte) (s : State) : (acceptFrame n s).error = s.error := rfl
@[simp] theorem acceptFrame_recov (n : Byte) (s : State) : (acceptFrame n s).recov = s.recov := rfl
@[simp] theorem acceptFrame_xfer (n : Byte) (s : State) : (acceptFrame n s).xfer = s.xfer := rfl
@[simp] theorem acceptFrame_xbyte (n : Byte) (s : State) : (acceptFrame n s).xbyte = s.xbyte := rfl
@[simp] theorem acceptFrame_txlen (n : Byte) (s : State) : (acceptFrame n s).txlen = s.txlen := rfl
@[simp] theorem acceptFrame_explen (n : Byte) (s : State) : (acceptFrame n s).explen = s.explen := rfl
@[simp] theorem acceptFrame_rxlen (n : Byte) (s : State) : (acceptFrame n s).rxlen = n := rfl
@[simp] theorem acceptFrame_echoref (n : Byte) (s : State) : (acceptFrame n s).echoref = s.echoref := rfl
@[simp] theorem acceptFrame_timeout (n : Byte) (s : State) : (acceptFrame n s).timeout = s.timeout := rfl
@[simp] theorem acceptFrame_mem (n : Byte) (s : State) : (acceptFrame n s).mem = s.mem := rfl
@[simp] theorem acceptFrame_inflight (n : Byte) (s : State) : (acceptFrame n s).inflight = s.inflight := rfl
@[simp] theorem acceptFrame_rx (n : Byte) (s : State) : (acceptFrame n s).rx = s.rx := rfl
@[simp] theorem acceptFrame_sink (n : Byte) (s : State) : (acceptFrame n s).sink = s.sink := rfl
@[simp] theorem acceptFrame_params (n : Byte) (s : State) : (acceptFrame n s).params = s.params := rfl
@[simp] theorem acceptFrame_events (n : Byte) (s : State) : (acceptFrame n s).events = s.events := rfl
@[simp] theorem acceptFrame_busData (n : Byte) (s : State) : (acceptFrame n s).busData = s.busData := rfl
@[simp] theorem acceptFrame_before (n : Byte) (s : State) : (acceptFrame n s).before = s.before := rfl
@[simp] theorem acceptFrame_freeCount (n : Byte) (s : State) : (acceptFrame n s).freeCount = s.freeCount := rfl

/-! ### dropFrame -/

@[simp] theorem dropFrame_opw (s : State) : (dropFrame s).opw = s.opw := rfl
@[simp] theorem dropFrame_opa (s : State) : (dropFrame s).opa = s.opa := rfl
@[simp] theorem dropFrame_opb (s : State) : (dropFrame s).opb = s.opb := rfl
@[simp] theorem dropFrame_res0 (s : State) : (dropFrame s).res0 = s.res0 := rfl
@[simp] theorem dropFrame_res1 (s : State) : (dropFrame s).res1 = s.res1 := rfl
@[simp] theorem dropFrame_res2 (s : State) : (dropFrame s).res2 = s.res2 := rfl
@[simp] theorem dropFrame_res3 (s : State) : (dropFrame s).res3 = s.res3 := rfl
@[simp] theorem dropFrame_done (s : State) : (dropFrame s).done = s.done := rfl
@[simp] theorem dropFrame_coll (s : State) : (dropFrame s).coll = s.coll := rfl
@[simp] theorem dropFrame_rxvalid (s : State) : (dropFrame s).rxvalid = false := rfl
@[simp] theorem dropFrame_error (s : State) : (dropFrame s).error = s.error := rfl
@[simp] theorem dropFrame_recov (s : State) : (dropFrame s).recov = s.recov := rfl
@[simp] theorem dropFrame_xfer (s : State) : (dropFrame s).xfer = s.xfer := rfl
@[simp] theorem dropFrame_xbyte (s : State) : (dropFrame s).xbyte = s.xbyte := rfl
@[simp] theorem dropFrame_txlen (s : State) : (dropFrame s).txlen = s.txlen := rfl
@[simp] theorem dropFrame_explen (s : State) : (dropFrame s).explen = s.explen := rfl
@[simp] theorem dropFrame_rxlen (s : State) : (dropFrame s).rxlen = 0 := rfl
@[simp] theorem dropFrame_echoref (s : State) : (dropFrame s).echoref = s.echoref := rfl
@[simp] theorem dropFrame_timeout (s : State) : (dropFrame s).timeout = s.timeout := rfl
@[simp] theorem dropFrame_mem (s : State) : (dropFrame s).mem = s.mem := rfl
@[simp] theorem dropFrame_inflight (s : State) : (dropFrame s).inflight = s.inflight := rfl
@[simp] theorem dropFrame_rx (s : State) : (dropFrame s).rx = s.rx := rfl
@[simp] theorem dropFrame_sink (s : State) : (dropFrame s).sink = s.sink := rfl
@[simp] theorem dropFrame_params (s : State) : (dropFrame s).params = s.params := rfl
@[simp] theorem dropFrame_events (s : State) : (dropFrame s).events = s.events := rfl
@[simp] theorem dropFrame_busData (s : State) : (dropFrame s).busData = s.busData := rfl
@[simp] theorem dropFrame_before (s : State) : (dropFrame s).before = s.before := rfl
@[simp] theorem dropFrame_freeCount (s : State) : (dropFrame s).freeCount = s.freeCount := rfl

/-! ### storeRx -/

@[simp] theorem storeRx_opw (k : Nat) (b : Byte) (rest : List Byte) (s : State) :
    (storeRx k b rest s).opw = s.opw := rfl
@[simp] theorem storeRx_opa (k : Nat) (b : Byte) (rest : List Byte) (s : State) :
    (storeRx k b rest s).opa = s.opa := rfl
@[simp] theorem storeRx_opb (k : Nat) (b : Byte) (rest : List Byte) (s : State) :
    (storeRx k b rest s).opb = s.opb := rfl
@[simp] theorem storeRx_res0 (k : Nat) (b : Byte) (rest : List Byte) (s : State) :
    (storeRx k b rest s).res0 = s.res0 := rfl
@[simp] theorem storeRx_res1 (k : Nat) (b : Byte) (rest : List Byte) (s : State) :
    (storeRx k b rest s).res1 = s.res1 := rfl
@[simp] theorem storeRx_res2 (k : Nat) (b : Byte) (rest : List Byte) (s : State) :
    (storeRx k b rest s).res2 = s.res2 := rfl
@[simp] theorem storeRx_res3 (k : Nat) (b : Byte) (rest : List Byte) (s : State) :
    (storeRx k b rest s).res3 = s.res3 := rfl
@[simp] theorem storeRx_done (k : Nat) (b : Byte) (rest : List Byte) (s : State) :
    (storeRx k b rest s).done = s.done := rfl
@[simp] theorem storeRx_coll (k : Nat) (b : Byte) (rest : List Byte) (s : State) :
    (storeRx k b rest s).coll = s.coll := rfl
@[simp] theorem storeRx_rxvalid (k : Nat) (b : Byte) (rest : List Byte) (s : State) :
    (storeRx k b rest s).rxvalid = s.rxvalid := rfl
@[simp] theorem storeRx_error (k : Nat) (b : Byte) (rest : List Byte) (s : State) :
    (storeRx k b rest s).error = s.error := rfl
@[simp] theorem storeRx_recov (k : Nat) (b : Byte) (rest : List Byte) (s : State) :
    (storeRx k b rest s).recov = s.recov := rfl
@[simp] theorem storeRx_xfer (k : Nat) (b : Byte) (rest : List Byte) (s : State) :
    (storeRx k b rest s).xfer = s.xfer := rfl
@[simp] theorem storeRx_xbyte (k : Nat) (b : Byte) (rest : List Byte) (s : State) :
    (storeRx k b rest s).xbyte = s.xbyte := rfl
@[simp] theorem storeRx_txlen (k : Nat) (b : Byte) (rest : List Byte) (s : State) :
    (storeRx k b rest s).txlen = s.txlen := rfl
@[simp] theorem storeRx_explen (k : Nat) (b : Byte) (rest : List Byte) (s : State) :
    (storeRx k b rest s).explen = s.explen := rfl
@[simp] theorem storeRx_rxlen (k : Nat) (b : Byte) (rest : List Byte) (s : State) :
    (storeRx k b rest s).rxlen = s.rxlen := rfl
@[simp] theorem storeRx_echoref (k : Nat) (b : Byte) (rest : List Byte) (s : State) :
    (storeRx k b rest s).echoref = s.echoref := rfl
@[simp] theorem storeRx_timeout (k : Nat) (b : Byte) (rest : List Byte) (s : State) :
    (storeRx k b rest s).timeout = s.timeout := rfl
@[simp] theorem storeRx_mem (k : Nat) (b : Byte) (rest : List Byte) (s : State) :
    (storeRx k b rest s).mem = s.mem.write (rxAddr k) b := rfl
@[simp] theorem storeRx_inflight (k : Nat) (b : Byte) (rest : List Byte) (s : State) :
    (storeRx k b rest s).inflight = s.inflight := rfl
@[simp] theorem storeRx_rx (k : Nat) (b : Byte) (rest : List Byte) (s : State) : (storeRx k b rest s).rx = rest := rfl
@[simp] theorem storeRx_sink (k : Nat) (b : Byte) (rest : List Byte) (s : State) :
    (storeRx k b rest s).sink = s.sink := rfl
@[simp] theorem storeRx_params (k : Nat) (b : Byte) (rest : List Byte) (s : State) :
    (storeRx k b rest s).params = s.params := rfl
@[simp] theorem storeRx_events (k : Nat) (b : Byte) (rest : List Byte) (s : State) :
    (storeRx k b rest s).events = s.events := rfl
@[simp] theorem storeRx_busData (k : Nat) (b : Byte) (rest : List Byte) (s : State) :
    (storeRx k b rest s).busData = s.busData := rfl
@[simp] theorem storeRx_before (k : Nat) (b : Byte) (rest : List Byte) (s : State) :
    (storeRx k b rest s).before = s.before := rfl
@[simp] theorem storeRx_freeCount (k : Nat) (b : Byte) (rest : List Byte) (s : State) :
    (storeRx k b rest s).freeCount = s.freeCount := rfl

/-! ### openRequest -/

@[simp] theorem openRequest_opw (op : Byte) (len : Nat) (reply : Option Byte) (s : State) :
    (openRequest op len reply s).opw = s.opw := rfl
@[simp] theorem openRequest_opa (op : Byte) (len : Nat) (reply : Option Byte) (s : State) :
    (openRequest op len reply s).opa = s.opa := rfl
@[simp] theorem openRequest_opb (op : Byte) (len : Nat) (reply : Option Byte) (s : State) :
    (openRequest op len reply s).opb = s.opb := rfl
@[simp] theorem openRequest_res0 (op : Byte) (len : Nat) (reply : Option Byte) (s : State) :
    (openRequest op len reply s).res0 = s.res0 := rfl
@[simp] theorem openRequest_res1 (op : Byte) (len : Nat) (reply : Option Byte) (s : State) :
    (openRequest op len reply s).res1 = s.res1 := rfl
@[simp] theorem openRequest_res2 (op : Byte) (len : Nat) (reply : Option Byte) (s : State) :
    (openRequest op len reply s).res2 = s.res2 := rfl
@[simp] theorem openRequest_res3 (op : Byte) (len : Nat) (reply : Option Byte) (s : State) :
    (openRequest op len reply s).res3 = s.res3 := rfl
@[simp] theorem openRequest_done (op : Byte) (len : Nat) (reply : Option Byte) (s : State) :
    (openRequest op len reply s).done = s.done := rfl
@[simp] theorem openRequest_coll (op : Byte) (len : Nat) (reply : Option Byte) (s : State) :
    (openRequest op len reply s).coll = s.coll := rfl
@[simp] theorem openRequest_rxvalid (op : Byte) (len : Nat) (reply : Option Byte) (s : State) :
    (openRequest op len reply s).rxvalid = s.rxvalid := rfl
@[simp] theorem openRequest_error (op : Byte) (len : Nat) (reply : Option Byte) (s : State) :
    (openRequest op len reply s).error = s.error := rfl
@[simp] theorem openRequest_recov (op : Byte) (len : Nat) (reply : Option Byte) (s : State) :
    (openRequest op len reply s).recov = s.recov := rfl
@[simp] theorem openRequest_xfer (op : Byte) (len : Nat) (reply : Option Byte) (s : State) :
    (openRequest op len reply s).xfer = s.xfer := rfl
@[simp] theorem openRequest_xbyte (op : Byte) (len : Nat) (reply : Option Byte) (s : State) :
    (openRequest op len reply s).xbyte = s.xbyte := rfl
@[simp] theorem openRequest_txlen (op : Byte) (len : Nat) (reply : Option Byte) (s : State) :
    (openRequest op len reply s).txlen = s.txlen := rfl
@[simp] theorem openRequest_explen (op : Byte) (len : Nat) (reply : Option Byte) (s : State) :
    (openRequest op len reply s).explen = s.explen := rfl
@[simp] theorem openRequest_rxlen (op : Byte) (len : Nat) (reply : Option Byte) (s : State) :
    (openRequest op len reply s).rxlen = s.rxlen := rfl
@[simp] theorem openRequest_echoref (op : Byte) (len : Nat) (reply : Option Byte) (s : State) :
    (openRequest op len reply s).echoref = s.echoref := rfl
@[simp] theorem openRequest_timeout (op : Byte) (len : Nat) (reply : Option Byte) (s : State) :
    (openRequest op len reply s).timeout = s.timeout := rfl
@[simp] theorem openRequest_mem (op : Byte) (len : Nat) (reply : Option Byte) (s : State) :
    (openRequest op len reply s).mem = s.mem := rfl
@[simp] theorem openRequest_inflight (op : Byte) (len : Nat) (reply : Option Byte) (s : State) :
    (openRequest op len reply s).inflight = s.inflight := rfl
@[simp] theorem openRequest_rx (op : Byte) (len : Nat) (reply : Option Byte) (s : State) :
    (openRequest op len reply s).rx = s.rx := rfl
@[simp] theorem openRequest_sink (op : Byte) (len : Nat) (reply : Option Byte) (s : State) :
    (openRequest op len reply s).sink = { stream := s.sink.stream ++ [op], request := [op], left := len - 1, reply := reply, sub := none } := rfl
@[simp] theorem openRequest_params (op : Byte) (len : Nat) (reply : Option Byte) (s : State) :
    (openRequest op len reply s).params = s.params := rfl
@[simp] theorem openRequest_events (op : Byte) (len : Nat) (reply : Option Byte) (s : State) :
    (openRequest op len reply s).events = s.events := rfl
@[simp] theorem openRequest_busData (op : Byte) (len : Nat) (reply : Option Byte) (s : State) :
    (openRequest op len reply s).busData = s.busData := rfl
@[simp] theorem openRequest_before (op : Byte) (len : Nat) (reply : Option Byte) (s : State) :
    (openRequest op len reply s).before = s.before := rfl
@[simp] theorem openRequest_freeCount (op : Byte) (len : Nat) (reply : Option Byte) (s : State) :
    (openRequest op len reply s).freeCount = s.freeCount := rfl

/-! ### takeSubCommand -/

@[simp] theorem takeSubCommand_opw (code : Byte) (len : Nat) (s : State) :
    (takeSubCommand code len s).opw = s.opw := rfl
@[simp] theorem takeSubCommand_opa (code : Byte) (len : Nat) (s : State) :
    (takeSubCommand code len s).opa = s.opa := rfl
@[simp] theorem takeSubCommand_opb (code : Byte) (len : Nat) (s : State) :
    (takeSubCommand code len s).opb = s.opb := rfl
@[simp] theorem takeSubCommand_res0 (code : Byte) (len : Nat) (s : State) :
    (takeSubCommand code len s).res0 = s.res0 := rfl
@[simp] theorem takeSubCommand_res1 (code : Byte) (len : Nat) (s : State) :
    (takeSubCommand code len s).res1 = s.res1 := rfl
@[simp] theorem takeSubCommand_res2 (code : Byte) (len : Nat) (s : State) :
    (takeSubCommand code len s).res2 = s.res2 := rfl
@[simp] theorem takeSubCommand_res3 (code : Byte) (len : Nat) (s : State) :
    (takeSubCommand code len s).res3 = s.res3 := rfl
@[simp] theorem takeSubCommand_done (code : Byte) (len : Nat) (s : State) :
    (takeSubCommand code len s).done = s.done := rfl
@[simp] theorem takeSubCommand_coll (code : Byte) (len : Nat) (s : State) :
    (takeSubCommand code len s).coll = s.coll := rfl
@[simp] theorem takeSubCommand_rxvalid (code : Byte) (len : Nat) (s : State) :
    (takeSubCommand code len s).rxvalid = s.rxvalid := rfl
@[simp] theorem takeSubCommand_error (code : Byte) (len : Nat) (s : State) :
    (takeSubCommand code len s).error = s.error := rfl
@[simp] theorem takeSubCommand_recov (code : Byte) (len : Nat) (s : State) :
    (takeSubCommand code len s).recov = s.recov := rfl
@[simp] theorem takeSubCommand_xfer (code : Byte) (len : Nat) (s : State) :
    (takeSubCommand code len s).xfer = s.xfer := rfl
@[simp] theorem takeSubCommand_xbyte (code : Byte) (len : Nat) (s : State) :
    (takeSubCommand code len s).xbyte = s.xbyte := rfl
@[simp] theorem takeSubCommand_txlen (code : Byte) (len : Nat) (s : State) :
    (takeSubCommand code len s).txlen = s.txlen := rfl
@[simp] theorem takeSubCommand_explen (code : Byte) (len : Nat) (s : State) :
    (takeSubCommand code len s).explen = s.explen := rfl
@[simp] theorem takeSubCommand_rxlen (code : Byte) (len : Nat) (s : State) :
    (takeSubCommand code len s).rxlen = s.rxlen := rfl
@[simp] theorem takeSubCommand_echoref (code : Byte) (len : Nat) (s : State) :
    (takeSubCommand code len s).echoref = s.echoref := rfl
@[simp] theorem takeSubCommand_timeout (code : Byte) (len : Nat) (s : State) :
    (takeSubCommand code len s).timeout = s.timeout := rfl
@[simp] theorem takeSubCommand_mem (code : Byte) (len : Nat) (s : State) :
    (takeSubCommand code len s).mem = s.mem := rfl
@[simp] theorem takeSubCommand_inflight (code : Byte) (len : Nat) (s : State) :
    (takeSubCommand code len s).inflight = s.inflight := rfl
@[simp] theorem takeSubCommand_rx (code : Byte) (len : Nat) (s : State) : (takeSubCommand code len s).rx = s.rx := rfl
@[simp] theorem takeSubCommand_sink (code : Byte) (len : Nat) (s : State) :
    (takeSubCommand code len s).sink = { s.sink with
        stream := s.sink.stream ++ [code], request := s.sink.request ++ [code], left := s.sink.left - 1
        sub := some { code := code, len := len } } := rfl
@[simp] theorem takeSubCommand_params (code : Byte) (len : Nat) (s : State) :
    (takeSubCommand code len s).params = s.params := rfl
@[simp] theorem takeSubCommand_events (code : Byte) (len : Nat) (s : State) :
    (takeSubCommand code len s).events = s.events := rfl
@[simp] theorem takeSubCommand_busData (code : Byte) (len : Nat) (s : State) :
    (takeSubCommand code len s).busData = s.busData := rfl
@[simp] theorem takeSubCommand_before (code : Byte) (len : Nat) (s : State) :
    (takeSubCommand code len s).before = s.before := rfl
@[simp] theorem takeSubCommand_freeCount (code : Byte) (len : Nat) (s : State) :
    (takeSubCommand code len s).freeCount = s.freeCount := rfl

/-! ### takePlain -/

@[simp] theorem takePlain_opw (b : Byte) (s : State) : (takePlain b s).opw = s.opw := rfl
@[simp] theorem takePlain_opa (b : Byte) (s : State) : (takePlain b s).opa = s.opa := rfl
@[simp] theorem takePlain_opb (b : Byte) (s : State) : (takePlain b s).opb = s.opb := rfl
@[simp] theorem takePlain_res0 (b : Byte) (s : State) : (takePlain b s).res0 = s.res0 := rfl
@[simp] theorem takePlain_res1 (b : Byte) (s : State) : (takePlain b s).res1 = s.res1 := rfl
@[simp] theorem takePlain_res2 (b : Byte) (s : State) : (takePlain b s).res2 = s.res2 := rfl
@[simp] theorem takePlain_res3 (b : Byte) (s : State) : (takePlain b s).res3 = s.res3 := rfl
@[simp] theorem takePlain_done (b : Byte) (s : State) : (takePlain b s).done = s.done := rfl
@[simp] theorem takePlain_coll (b : Byte) (s : State) : (takePlain b s).coll = s.coll := rfl
@[simp] theorem takePlain_rxvalid (b : Byte) (s : State) : (takePlain b s).rxvalid = s.rxvalid := rfl
@[simp] theorem takePlain_error (b : Byte) (s : State) : (takePlain b s).error = s.error := rfl
@[simp] theorem takePlain_recov (b : Byte) (s : State) : (takePlain b s).recov = s.recov := rfl
@[simp] theorem takePlain_xfer (b : Byte) (s : State) : (takePlain b s).xfer = s.xfer := rfl
@[simp] theorem takePlain_xbyte (b : Byte) (s : State) : (takePlain b s).xbyte = s.xbyte := rfl
@[simp] theorem takePlain_txlen (b : Byte) (s : State) : (takePlain b s).txlen = s.txlen := rfl
@[simp] theorem takePlain_explen (b : Byte) (s : State) : (takePlain b s).explen = s.explen := rfl
@[simp] theorem takePlain_rxlen (b : Byte) (s : State) : (takePlain b s).rxlen = s.rxlen := rfl
@[simp] theorem takePlain_echoref (b : Byte) (s : State) : (takePlain b s).echoref = s.echoref := rfl
@[simp] theorem takePlain_timeout (b : Byte) (s : State) : (takePlain b s).timeout = s.timeout := rfl
@[simp] theorem takePlain_mem (b : Byte) (s : State) : (takePlain b s).mem = s.mem := rfl
@[simp] theorem takePlain_inflight (b : Byte) (s : State) : (takePlain b s).inflight = s.inflight := rfl
@[simp] theorem takePlain_rx (b : Byte) (s : State) : (takePlain b s).rx = s.rx := rfl
@[simp] theorem takePlain_params (b : Byte) (s : State) : (takePlain b s).params = s.params := rfl
@[simp] theorem takePlain_events (b : Byte) (s : State) : (takePlain b s).events = s.events := rfl
@[simp] theorem takePlain_busData (b : Byte) (s : State) : (takePlain b s).busData = s.busData := rfl
@[simp] theorem takePlain_before (b : Byte) (s : State) : (takePlain b s).before = s.before := rfl
@[simp] theorem takePlain_freeCount (b : Byte) (s : State) : (takePlain b s).freeCount = s.freeCount := rfl

/-! ### resetMachine -/

@[simp] theorem resetMachine_opw (s : State) : (resetMachine s).opw = State.reset.opw := rfl
@[simp] theorem resetMachine_opa (s : State) : (resetMachine s).opa = State.reset.opa := rfl
@[simp] theorem resetMachine_opb (s : State) : (resetMachine s).opb = State.reset.opb := rfl
@[simp] theorem resetMachine_res0 (s : State) : (resetMachine s).res0 = State.reset.res0 := rfl
@[simp] theorem resetMachine_res1 (s : State) : (resetMachine s).res1 = State.reset.res1 := rfl
@[simp] theorem resetMachine_res2 (s : State) : (resetMachine s).res2 = State.reset.res2 := rfl
@[simp] theorem resetMachine_res3 (s : State) : (resetMachine s).res3 = State.reset.res3 := rfl
@[simp] theorem resetMachine_done (s : State) : (resetMachine s).done = State.reset.done := rfl
@[simp] theorem resetMachine_coll (s : State) : (resetMachine s).coll = State.reset.coll := rfl
@[simp] theorem resetMachine_rxvalid (s : State) : (resetMachine s).rxvalid = State.reset.rxvalid := rfl
@[simp] theorem resetMachine_error (s : State) : (resetMachine s).error = State.reset.error := rfl
@[simp] theorem resetMachine_recov (s : State) : (resetMachine s).recov = State.reset.recov := rfl
@[simp] theorem resetMachine_xfer (s : State) : (resetMachine s).xfer = State.reset.xfer := rfl
@[simp] theorem resetMachine_xbyte (s : State) : (resetMachine s).xbyte = State.reset.xbyte := rfl
@[simp] theorem resetMachine_txlen (s : State) : (resetMachine s).txlen = State.reset.txlen := rfl
@[simp] theorem resetMachine_explen (s : State) : (resetMachine s).explen = State.reset.explen := rfl
@[simp] theorem resetMachine_rxlen (s : State) : (resetMachine s).rxlen = State.reset.rxlen := rfl
@[simp] theorem resetMachine_echoref (s : State) : (resetMachine s).echoref = State.reset.echoref := rfl
@[simp] theorem resetMachine_timeout (s : State) : (resetMachine s).timeout = State.reset.timeout := rfl
@[simp] theorem resetMachine_mem (s : State) : (resetMachine s).mem = State.reset.mem := rfl
@[simp] theorem resetMachine_inflight (s : State) : (resetMachine s).inflight = State.reset.inflight := rfl
@[simp] theorem resetMachine_rx (s : State) : (resetMachine s).rx = s.rx := rfl
@[simp] theorem resetMachine_sink (s : State) : (resetMachine s).sink = s.sink := rfl
@[simp] theorem resetMachine_params (s : State) : (resetMachine s).params = s.params := rfl
@[simp] theorem resetMachine_events (s : State) : (resetMachine s).events = s.events := rfl
@[simp] theorem resetMachine_busData (s : State) : (resetMachine s).busData = s.busData := rfl
@[simp] theorem resetMachine_before (s : State) : (resetMachine s).before = State.reset.before := rfl
@[simp] theorem resetMachine_freeCount (s : State) : (resetMachine s).freeCount = s.freeCount := rfl

/-! ### Views of the state -/

@[simp] theorem linkRegs_mem (s : State) : s.linkRegs.mem = s.mem := rfl
@[simp] theorem linkRegs_rxlen (s : State) : s.linkRegs.rxlen = s.rxlen := rfl
@[simp] theorem linkRegs_rxvalid (s : State) : s.linkRegs.rxvalid = s.rxvalid := rfl
@[simp] theorem linkRegs_xfer (s : State) : s.linkRegs.xfer = s.xfer := rfl
@[simp] theorem linkRegs_xbyte (s : State) : s.linkRegs.xbyte = s.xbyte := rfl
@[simp] theorem busy_raise (e : OpError) (s : State) : (raise e s).busy = false := rfl
@[simp] theorem busy_complete (s : State) : (complete s).busy = false := rfl
@[simp] theorem busy_accept (w : Word32) (s : State) : (accept w s).busy = s.busy := rfl
@[simp] theorem busy_tick (s : State) : (tick s).busy = s.busy := rfl
@[simp] theorem busy_emit (frame : List Byte) (n : Byte) (s : State) : (emit frame n s).busy = s.busy := rfl
@[simp] theorem busy_startLink (act : Activity) (s : State) : (startLink act s).busy = true := rfl
@[simp] theorem busy_resetMachine (s : State) : (resetMachine s).busy = false := rfl

theorem busy_eq_false_iff (s : State) : s.busy = false ↔ s.inflight = none := by
  cases h : s.inflight <;> simp [State.busy, h]

theorem busy_eq_true_iff (s : State) : s.busy = true ↔ ∃ f, s.inflight = some f := by
  cases h : s.inflight <;> simp [State.busy, h]

end Sys2Proof.Machine
end

