-- ==== Sys2Proof/Laws/Ops.lean ====
section
/-! SUPPORT. What each shared operation can do, said once. -/

namespace Sys2Proof.Machine

/-! ### Ending an atomic operation -/

/-- An atomic operation that answers a next state has completed with the state it made, or has raised an error. -/
theorem finish_eq_next {s t : State} {r : Except OpError State} (h : finish s r = .next t) :
    (∃ u, r = .ok u ∧ t = complete u) ∨ (∃ e, r = .error e ∧ t = raise e s) := by
  cases r with
  | ok u => exact .inl ⟨u, rfl, by simpa [finish] using h.symm⟩
  | error e => exact .inr ⟨e, rfl, by simpa [finish] using h.symm⟩

/-- An atomic operation always answers a next state. -/
theorem finish_answers (s : State) (r : Except OpError State) : ∃ t, finish s r = .next t := by
  cases r <;> exact ⟨_, rfl⟩

theorem finish_ok (s t : State) : finish s (.ok t) = .next (complete t) := rfl

theorem finish_error (s : State) (e : OpError) : finish s (.error e) = .next (raise e s) := rfl

/-- A meaning that ends with an error raises it. -/
theorem raises_of_finish {i : Instr} {s : State} {e : OpError} (h : exec i s = finish s (.error e)) :
    Raises i s e := h

/-- A meaning that ends by writing RES0 answers with it. -/
theorem answers_of_finish {i : Instr} {s : State} {v : Word64} (h : exec i s = finish s (.ok { s with res0 := v })) :
    Answers i s v := h

/-! ### Frames into TXBUF -/

/-- Appending fails exactly when the frame would pass TXBUF's end. -/
theorem append_error_iff (bs : List Byte) (s : State) (e : OpError) :
    append bs s = .error e ↔ Config.txCap < s.txlen.toNat + bs.length ∧ e = .usage .txOverflow := by
  unfold append
  split <;> simp_all [eq_comm]

/-- What appending makes, when it makes anything. -/
theorem append_ok {bs : List Byte} {s t : State} (h : append bs s = .ok t) :
    s.txlen.toNat + bs.length ≤ Config.txCap ∧
      t = { s with
            mem := s.mem.writeList (txAddr s.txlen.toNat) bs
            txlen := BitVec.ofNat 6 (s.txlen.toNat + bs.length) } := by
  unfold append at h
  split at h
  · cases h
  · exact ⟨by omega, by injection h with h; exact h.symm⟩

/-- A run of bytes written into the memory stands there, and every other byte reads as before. -/
theorem stored_writeList {m : Memory} (a : Nat) (bs : List Byte) (h : m.wf = true) :
    Stored (m.writeList a bs) a bs ∧ KeptOutside m (m.writeList a bs) a bs.length :=
  ⟨fun i hi => Memory.read_writeList_inside a bs h i hi, fun _ hx => Memory.read_writeList_outside m bs hx⟩

/-- A meaning that ends by emitting a frame builds it. -/
theorem builds_of_finish {i : Instr} {s : State} {frame : List Byte} {n : Byte} (hwf : s.mem.wf = true)
    (h : exec i s = finish s (.ok (emit frame n s))) : Builds i s frame n :=
  ⟨_, h, stored_writeList (txAddr 0) frame hwf⟩

/-- A meaning that ends by appending bytes that fit appends them. -/
theorem appends_of_finish {i : Instr} {s : State} {bs : List Byte} (hwf : s.mem.wf = true)
    (hfit : s.txlen.toNat + bs.length ≤ Config.txCap) (h : exec i s = finish s (append bs s)) : Appends i s bs := by
  have : append bs s = .ok _ := if_neg (by omega)
  rw [this] at h
  exact ⟨_, h, stored_writeList _ bs hwf⟩

/-- A meaning that ends by appending bytes that do not fit raises TX_OVERFLOW. -/
theorem overflows_of_finish {i : Instr} {s : State} {bs : List Byte}
    (hfit : Config.txCap < s.txlen.toNat + bs.length) (h : exec i s = finish s (append bs s)) :
    Raises i s (.usage .txOverflow) := by
  have : append bs s = .error _ := if_pos hfit
  rw [this] at h
  exact h

/-! ### RXBUF under the frame operations -/

/-- A frame written inside TXBUF leaves RXBUF alone. -/
theorem rxByte_of_keptOutside {m m' : Memory} {a n : Nat} (h : KeptOutside m m' (txAddr a) n)
    (hn : a + n ≤ Config.txCap) (i : Nat) : m'.read (rxAddr i) = m.read (rxAddr i) :=
  h _ (.inr (by
    simp only [txAddr, rxAddr, Config.txBase, Config.rxBase, Config.txCap] at *
    omega))

/-- RXBUF's bytes, by index. -/
theorem rxBytes_length (s : State) (i n : Nat) : (s.rxBytes i n).length = n := by simp [State.rxBytes]

theorem rxBytes_getElem (s : State) (i n j : Nat) (h : j < (s.rxBytes i n).length) :
    (s.rxBytes i n)[j] = s.rxByte (i + j) := by simp [State.rxBytes]

end Sys2Proof.Machine
end

