-- ==== Sys2Proof/Laws/Text.lean ====
section
/-! SUPPORT. The hex, decimal and binary texts of the wire (`00_scope.md` R10, `20_memory.md` R71, R72): their lengths,
their digits and their values. -/

namespace Sys2Proof.Machine

/-! ### Digits -/

theorem digitsN_length (base v d : ℕ) : (digitsN base v d).length = d := by
  induction d generalizing v with
  | zero => rfl
  | succ d ih => simp [digitsN, ih]

theorem digitsN_lt {base : ℕ} (hb : 0 < base) (v d : ℕ) : ∀ x ∈ digitsN base v d, x < base := by
  induction d generalizing v with
  | zero => simp [digitsN]
  | succ d ih =>
    intro x hx
    rw [digitsN, List.mem_append, List.mem_singleton] at hx
    rcases hx with hx | rfl
    · exact ih _ x hx
    · exact Nat.mod_lt _ hb

/-- Reading the digits back gives the value. -/
theorem digitsN_value {base : ℕ} (v d : ℕ) (hv : v < base ^ d) :
    (digitsN base v d).foldl (fun acc x => acc * base + x) 0 = v := by
  induction d generalizing v with
  | zero =>
    have : v = 0 := by simpa using hv
    simp [digitsN, this]
  | succ d ih =>
    rw [digitsN, List.foldl_append, ih (v / base) (Nat.div_lt_of_lt_mul (by rwa [pow_succ, mul_comm] at hv))]
    simp only [List.foldl_cons, List.foldl_nil]
    rw [mul_comm]
    exact Nat.div_add_mod v base

/-! ### Characters -/

/-- The character of a digit reads as the digit. -/
theorem hexChar_digit : ∀ d, d < 16 →
    (if (hexChar d).toNat < 0x41 then (hexChar d).toNat - 0x30 else (hexChar d).toNat - 0x37) = d := by decide

theorem hexChar_class : ∀ d, d < 16 → (d < 10 ∧ (hexChar d).toNat = 0x30 + d) ∨ (10 ≤ d ∧ (hexChar d).toNat = 0x37 + d) := by
  decide

theorem hexDigitVal_hexChar : ∀ d, d < 16 → hexDigitVal (hexChar d) = some d := by decide

/-- A text of digit characters is a digit text of its base. -/
theorem digitText_map {base : ℕ} (hb : base ≤ 16) {ds : List ℕ} (h : ∀ x ∈ ds, x < base) :
    DigitText base (ds.map hexChar) := by
  intro b hbm
  rw [List.mem_map] at hbm
  obtain ⟨x, hx, rfl⟩ := hbm
  have hxb := h x hx
  rcases hexChar_class x (by omega) with ⟨h1, h2⟩ | ⟨h1, h2⟩
  · left
    omega
  · right
    omega

/-- The value of a text of digit characters is the value of the digits. -/
theorem textValue_map {base : ℕ} (hb : base ≤ 16) {ds : List ℕ} (h : ∀ x ∈ ds, x < base) :
    textValue base (ds.map hexChar) = ds.foldl (fun acc x => acc * base + x) 0 := by
  unfold textValue
  rw [List.foldl_map]
  generalize 0 = acc
  induction ds generalizing acc with
  | nil => rfl
  | cons x xs ih =>
    have hx : x < 16 := lt_of_lt_of_le (h x (List.mem_cons_self ..)) hb
    rw [List.foldl_cons, List.foldl_cons, hexChar_digit x hx]
    exact ih (fun y hy => h y (List.mem_cons_of_mem _ hy)) _

/-! ### Texts -/

/-- `hexN` is the hex text of its value (`00_scope.md` R10). -/
theorem hexN_isHexText {v d : ℕ} (hv : v < 16 ^ d) : IsHexText v d (hexN v d) :=
  ⟨by simp [hexN, digitsN_length], digitText_map (le_refl _) (digitsN_lt (by norm_num) v d), by
    rw [hexN, textValue_map (le_refl _) (digitsN_lt (by norm_num) v d), digitsN_value v d hv]⟩

/-- The shortest decimal text has enough digits, and no more than one of which the first could be 0. -/
theorem decDigitCount_spec (fuel v : ℕ) (hv : v < 10 ^ (fuel + 1)) :
    v < 10 ^ decDigitCount fuel v ∧ (decDigitCount fuel v = 1 ∨ 10 ^ (decDigitCount fuel v - 1) ≤ v) ∧
      1 ≤ decDigitCount fuel v := by
  induction fuel generalizing v with
  | zero => exact ⟨hv, .inl rfl, le_refl _⟩
  | succ fuel ih =>
    unfold decDigitCount
    split
    · rename_i h
      exact ⟨by simpa using h, .inl rfl, le_refl _⟩
    · rename_i h
      obtain ⟨h1, h2, h3⟩ := ih (v / 10) (Nat.div_lt_of_lt_mul (by rwa [pow_succ, mul_comm] at hv))
      generalize decDigitCount fuel (v / 10) = c at h1 h2 h3
      refine ⟨?_, .inr ?_, by omega⟩
      · rw [pow_succ]
        omega
      · rw [Nat.add_sub_cancel]
        rcases h2 with rfl | h2
        · omega
        · obtain ⟨e, rfl⟩ : ∃ e, c = e + 1 := ⟨c - 1, by omega⟩
          rw [pow_succ]
          rw [Nat.add_sub_cancel] at h2
          omega

/-- `decN` is the decimal text of its value (`00_scope.md` R10). -/
theorem decN_text {v d : ℕ} (hv : v < 2 ^ 64) (hd : d = 0 ∨ v < 10 ^ d) :
    DigitText 10 (decN v d) ∧ textValue 10 (decN v d) = v ∧
      (decN v d).length = if d = 0 then decDigitCount 20 v else d := by
  have hc := decDigitCount_spec 20 v (lt_trans hv (by norm_num))
  have hv' : v < 10 ^ (if d = 0 then decDigitCount 20 v else d) := by
    split
    · exact hc.1
    · exact hd.resolve_left ‹_›
  unfold decN
  exact ⟨digitText_map (by norm_num) (digitsN_lt (by norm_num) _ _), by
    rw [textValue_map (by norm_num) (digitsN_lt (by norm_num) _ _), digitsN_value _ _ hv'], by simp [digitsN_length]⟩

/-- Hex text reads back as its value (`42_response_framer.md` R221). -/
theorem hexValFrom_map (acc : ℕ) {ds : List ℕ} (h : ∀ x ∈ ds, x < 16) :
    hexValFrom acc (ds.map hexChar) = some (ds.foldl (fun acc x => acc * 16 + x) acc) := by
  induction ds generalizing acc with
  | nil => rfl
  | cons x xs ih =>
    rw [List.map_cons, hexValFrom, hexDigitVal_hexChar x (h x (List.mem_cons_self ..))]
    exact ih _ fun y hy => h y (List.mem_cons_of_mem _ hy)

theorem hexVal_hexN {v d : ℕ} (hv : v < 16 ^ d) : hexVal (hexN v d) = some v := by
  rw [hexVal, hexN, hexValFrom_map 0 (digitsN_lt (by norm_num) v d), digitsN_value v d hv]

/-! ### Binary integers -/

theorem bigEndian_length (v w : ℕ) : (bigEndian v w).length = w := by
  induction w generalizing v with
  | zero => rfl
  | succ w ih => simp [bigEndian, ih]

/-- Byte `i` of a big-endian integer, the most significant one first (`20_memory.md` R71). -/
theorem bigEndian_getElem (v w i : ℕ) (h : i < (bigEndian v w).length) :
    ((bigEndian v w)[i]).toNat = v / 256 ^ (w - 1 - i) % 256 := by
  induction w generalizing v i with
  | zero => simp [bigEndian] at h
  | succ w ih =>
    rw [bigEndian_length] at h
    simp only [bigEndian]
    rcases Nat.lt_or_ge i w with hi | hi
    · rw [List.getElem_append_left (by rwa [bigEndian_length]), ih (v / 256) i (by rwa [bigEndian_length]),
        Nat.div_div_eq_div_mul, ← pow_succ', show w - 1 - i + 1 = w + 1 - 1 - i by omega]
    · obtain rfl : i = w := by omega
      rw [List.getElem_append_right (by rw [bigEndian_length])]
      simp

/-! ### Reading hex text -/

/-- A hex digit character of either case, by its value (`42_response_framer.md` R221). -/
theorem hexDigitVal_iff (b : Byte) (v : ℕ) : hexDigitVal b = some v ↔ IsHexDigit b v := by
  unfold hexDigitVal IsHexDigit
  repeat' split
  all_goals
    simp
    omega

theorem hexValFrom_iff (bs : List Byte) (acc c : ℕ) :
    hexValFrom acc bs = some c ↔
      ∃ ds : List ℕ, List.Forall₂ IsHexDigit bs ds ∧ ds.foldl (fun acc d => acc * 16 + d) acc = c := by
  induction bs generalizing acc with
  | nil => simp [hexValFrom]
  | cons b bs ih =>
    unfold hexValFrom
    cases h : hexDigitVal b with
    | none =>
      simp only [reduceCtorEq, false_iff, not_exists, not_and]
      intro ds hds
      cases hds with
      | cons hd _ =>
        rw [(hexDigitVal_iff b _).mpr hd] at h
        cases h
    | some d =>
      simp only
      rw [ih]
      constructor
      · rintro ⟨ds, h1, h2⟩
        exact ⟨d :: ds, .cons ((hexDigitVal_iff b d).mp h) h1, h2⟩
      · rintro ⟨ds, h1, h2⟩
        cases h1 with
        | cons hd h1 =>
          rw [(hexDigitVal_iff b _).mpr hd] at h
          cases h
          exact ⟨_, h1, h2⟩

/-- What `HexVal` answers (`42_response_framer.md` R221). -/
theorem hexVal_iff (bs : List Byte) (c : ℕ) : hexVal bs = some c ↔ HexReads bs c := hexValFrom_iff bs 0 c

theorem hexValFrom_lt (bs : List Byte) {acc c : ℕ} (h : hexValFrom acc bs = some c) :
    c < (acc + 1) * 16 ^ bs.length := by
  induction bs generalizing acc with
  | nil =>
    simp only [hexValFrom, Option.some.injEq] at h
    simp only [List.length_nil, pow_zero]
    omega
  | cons b bs ih =>
    unfold hexValFrom at h
    cases hd : hexDigitVal b with
    | none =>
      rw [hd] at h
      cases h
    | some d =>
      rw [hd] at h
      have hd16 : d < 16 := by
        have := (hexDigitVal_iff b d).mp hd
        unfold IsHexDigit at this
        omega
      calc c < (acc * 16 + d + 1) * 16 ^ bs.length := ih h
        _ ≤ (acc + 1) * 16 * 16 ^ bs.length := Nat.mul_le_mul_right _ (by omega)
        _ = (acc + 1) * 16 ^ (bs.length + 1) := by ring

/-- A hex text of d digits is below 16^d. -/
theorem hexVal_lt {bs : List Byte} {c : ℕ} (h : hexVal bs = some c) : c < 16 ^ bs.length := by
  have := hexValFrom_lt bs h
  omega

end Sys2Proof.Machine
end

