-- ==== Sys2Proof/Laws/Exec.lean ====
section
/-! SUPPORT. What a meaning can do, said once for all instructions: raise an error, complete with result registers or a
frame written, start a link operation, or change the TX sink alone. -/

namespace Sys2Proof.Machine

/-- The operation completed, with nothing written but result registers, TXBUF, TXLEN, EXPLEN and ECHOREF. -/
def AtomicResult (s t : State) : Prop :=
  ∃ (r0 r1 r2 r3 : Word64) (a : ℕ) (bs : List Byte) (n : BitVec 6) (e r : Byte),
    t = complete
        { s with
          res0 := r0, res1 := r1, res2 := r2, res3 := r3, mem := s.mem.writeList (txAddr a) bs, txlen := n
          explen := e, echoref := r } ∧
      a + bs.length ≤ Config.txCap ∧ (n = s.txlen ∨ n.toNat ≤ Config.txCap)

/-- What a meaning that answers a next state has done. -/
def ExecMove (i : Instr) (s t : State) : Prop :=
  (∃ e, t = raise e s) ∨ AtomicResult s t ∨
    (i = .send ∧ s.txlen ≠ 0 ∧ t = { startLink (.send 0) s with rxvalid := false, rxlen := 0 }) ∨
    (i = .recv ∧ t = startLink (.recv 0 s.timeout) s) ∨ (i = .ptRecv ∧ t = startLink (.ptRecv 0 s.timeout) s) ∨
    (∀ w, encode i ≠ .opw w) ∧ ∃ k, t = { s with sink := k }

/-- Writing result registers alone. -/
theorem atomicResult_results (s : State) (r0 r1 r2 r3 : Word64) :
    AtomicResult s (complete { s with res0 := r0, res1 := r1, res2 := r2, res3 := r3 }) :=
  ⟨r0, r1, r2, r3, 0, [], s.txlen, s.explen, s.echoref, rfl, by simp, .inl rfl⟩

/-- Emitting a frame that TXBUF has room for. -/
theorem atomicResult_emit (s : State) {frame : List Byte} (n r : Byte) (h : frame.length ≤ Config.txCap) :
    AtomicResult s (complete { emit frame n s with echoref := r }) :=
  ⟨s.res0, s.res1, s.res2, s.res3, 0, frame, _, n, r, rfl, by omega, .inr (by
    show (BitVec.ofNat 6 frame.length).toNat ≤ Config.txCap
    rw [BitVec.toNat_ofNat]
    exact (Nat.mod_le _ _).trans h)⟩

/-- Appending bytes. -/
theorem atomicResult_append {s t : State} {bs : List Byte} (h : append bs s = .ok t) : AtomicResult s (complete t) := by
  obtain ⟨hfit, rfl⟩ := append_ok h
  exact ⟨s.res0, s.res1, s.res2, s.res3, _, bs, _, s.explen, s.echoref, rfl, hfit, .inr (by
    rw [BitVec.toNat_ofNat]
    exact (Nat.mod_le _ _).trans hfit)⟩

theorem angleText_length (ar : Arith) (x : Word64) (p : Precision) : (angleText ar x p).length = hexDigits p := by
  simp [angleText, hexN, digitsN_length]

theorem hexDigits_le (p : Precision) : hexDigits p ≤ 8 := by cases p <;> decide

theorem anglePair_length (ar : Arith) (x y : Word64) (p : Precision) :
    (anglePair ar x y p).length = 2 * hexDigits p + 1 := by
  simp [anglePair, angleText_length]
  omega

/-- The frame of two angle texts fits into TXBUF. -/
theorem anglePair_fits (ar : Arith) (x y : Word64) (p : Precision) (op : Byte) :
    ([op] ++ anglePair ar x y p).length ≤ Config.txCap := by
  rw [List.length_append, anglePair_length]
  have := hexDigits_le p
  simp only [Config.txCap, List.length_singleton]
  omega

/-- Emptying the frame. -/
theorem atomicResult_clear (s : State) : AtomicResult s (complete { s with txlen := 0 }) :=
  ⟨s.res0, s.res1, s.res2, s.res3, 0, [], 0, s.explen, s.echoref, rfl, by simp, .inr (by decide)⟩

/-- An atomic operation whose every way to complete is an atomic result. -/
theorem execMove_finish {i : Instr} {s t : State} {r : Except OpError State} (h : finish s r = .next t)
    (hr : ∀ u, r = .ok u → AtomicResult s (complete u)) : ExecMove i s t := by
  rcases finish_eq_next h with ⟨u, hu, rfl⟩ | ⟨e, -, rfl⟩
  · exact .inr (.inl (hr u hu))
  · exact .inl ⟨e, rfl⟩

/-- What a meaning can do. -/
theorem exec_cases {i : Instr} {s t : State} (h : exec i s = .next t) : ExecMove i s t := by
  cases i with
  | send =>
    change execSend s = _ at h
    unfold execSend at h
    split at h
    · rcases finish_eq_next h with ⟨u, hu, -⟩ | ⟨e, -, rfl⟩
      · cases hu
      · exact .inl ⟨e, rfl⟩
    · injection h with h
      exact .inr (.inr (.inl ⟨rfl, ‹_›, h.symm⟩))
  | recv => injection h with h; exact .inr (.inr (.inr (.inl ⟨rfl, h.symm⟩)))
  | ptRecv => injection h with h; exact .inr (.inr (.inr (.inr (.inl ⟨rfl, h.symm⟩))))
  | cbGoto p m =>
    refine execMove_finish h fun u hu => ?_
    repeat' split at hu
    all_goals cases hu
    exact atomicResult_emit s _ _ (anglePair_fits s.params.arith s.opa s.opb p _)
  | cbSync p =>
    refine execMove_finish h fun u hu => ?_
    repeat' split at hu
    all_goals cases hu
    exact atomicResult_emit s _ _ (anglePair_fits s.params.arith s.opa s.opb p _)
  | _ =>
    first
      | (injection h with h; exact .inr (.inr (.inr (.inr (.inr ⟨(by intro w hw; cases hw), _, h.symm⟩)))))
      | (injection h with h; rw [← h]; exact .inr (.inl (atomicResult_results s _ _ _ _)))
      | (injection h with h; rw [← h]; exact .inr (.inl (atomicResult_emit s _ _ (by simp [ptFrame, Config.txCap]))))
      | (injection h with h; rw [← h]; exact .inr (.inl (atomicResult_clear s)))
      | (refine execMove_finish h fun u hu => ?_
         first
           | exact atomicResult_append hu
           | (repeat' split at hu
              all_goals first
                | (cases hu; done)
                | exact atomicResult_append hu
                | (injection hu with hu; rw [← hu]; exact atomicResult_results s _ _ _ _)
                | (injection hu with hu; rw [← hu]
                   exact atomicResult_emit s _ _ (by simp [ptFrame, Config.txCap, locationBytes, timeBytes]))))

/-- An atomic operation whose every way to complete keeps ECHOREF keeps it. -/
theorem echoref_finish {s t : State} {r : Except OpError State} (h : finish s r = .next t)
    (hr : ∀ u, r = .ok u → u.echoref = s.echoref) : t.echoref = s.echoref := by
  rcases finish_eq_next h with ⟨u, hu, rfl⟩ | ⟨e, -, rfl⟩
  · exact hr u hu
  · rfl

/-- Appending keeps ECHOREF. -/
theorem append_echoref {bs : List Byte} {s t : State} (h : append bs s = .ok t) : t.echoref = s.echoref := by
  obtain ⟨-, rfl⟩ := append_ok h
  rfl

/-- Only CB_ECHO writes ECHOREF (`41_command_builder.md` R179). -/
theorem exec_echoref {i : Instr} {s t : State} (h : exec i s = .next t) :
    t.echoref = s.echoref ∨ i = .cbEcho t.echoref := by
  cases i with
  | cbEcho b =>
    right
    injection h with h
    rw [← h]
    rfl
  | send =>
    left
    change execSend s = _ at h
    unfold execSend at h
    split at h <;> (injection h with h; rw [← h]; rfl)
  | sec2deg =>
    left
    change execSec2deg s = _ at h
    unfold execSec2deg at h
    refine echoref_finish h fun u hu => ?_
    injection hu with hu
    rw [← hu]
  | _ =>
    left
    first
      | (injection h with h; rw [← h]; rfl)
      | (refine echoref_finish h fun u hu => ?_
         first
           | exact append_echoref hu
           | (repeat' split at hu
              all_goals first
                | (cases hu; done)
                | exact append_echoref hu
                | (injection hu with hu; exact hu ▸ rfl)))

/-- Every meaning answers a next state: no instruction stops. -/
theorem exec_answers (i : Instr) (s : State) : ∃ t, exec i s = .next t := by
  cases i with
  | send =>
    change ∃ t, execSend s = _
    unfold execSend
    split <;> exact ⟨_, rfl⟩
  | _ =>
    first
      | exact ⟨_, rfl⟩
      | exact finish_answers s _

/-- What an operation word decodes to is no byte of the TX stream. -/
theorem encode_of_decode {w : Word32} {i : Instr} (h : decode w = .op i) : ∃ v, encode i = .opw v := by
  unfold decode at h
  split at h
  · cases h
  · rename_i u j hj
    split at h
    · cases h
    · split at h
      · cases h
      · injection h with h
        subst h
        unfold funcMap at hj
        split at hj <;> first
          | (cases hj; exact ⟨_, rfl⟩)
          | cases hj

end Sys2Proof.Machine
end

