-- ==== Sys2Proof/Laws/Host.lean ====
section
/-! SUPPORT. The host's side of the register space, said once: which accesses there are, what a read returns and the
registers' words as arithmetic. -/

namespace Sys2Proof.Machine

/-- The interface has every word access at a multiple of 4. -/
theorem accessOk_word {off : BitVec 12} (h : off.toNat % 4 = 0) : accessOk .word off = true := by
  simp [accessOk, h]

/-- The interface has exactly those accesses (`20_memory.md` R61). -/
theorem accessOk_iff (size : AccessSize) (off : BitVec 12) : accessOk size off = true ↔ size = .word ∧ off.toNat % 4 = 0 := by
  simp [accessOk]

/-- A step that runs a host read. -/
theorem read_step (s : State) (off : BitVec 12) (h : off.toNat % 4 = 0) (rest : List Event) :
    step { s with events := .hostRead .word off :: rest } = .next (hostRead off { s with events := rest }) := by
  unfold step
  simp only [agentMove]
  rw [if_pos (accessOk_word h)]

/-- A step that runs a host write of a register other than OPW. -/
theorem write_step (s : State) (off : BitVec 12) (v : Word32) (h : off.toNat % 4 = 0) (h0 : off ≠ 0) (rest : List Event) :
    step { s with events := .hostWrite .word off v :: rest } = .next (writeRegister off v (moved rest s)) := by
  unfold step
  simp only [agentMove]
  rw [if_pos (accessOk_word h), if_neg h0]
  rfl

/-- Concatenation, as arithmetic. -/
theorem append_toNat {m n : ℕ} (a : BitVec m) (b : BitVec n) : (a ++ b).toNat = a.toNat * 2 ^ n + b.toNat := by
  rw [BitVec.toNat_append, ← Nat.shiftLeft_add_eq_or_of_lt b.isLt, Nat.shiftLeft_eq]

/-- The registers of a link operation that a read shows: the new ones, or while BUSY = 1 the old ones
(`20_memory.md` R74). -/
theorem shownRegs_cases (s : State) (off : BitVec 12) :
    s.shownRegs off = s.linkRegs ∨ s.busy = true ∧ s.shownRegs off = s.before := by
  unfold State.shownRegs
  split
  · rename_i h
    exact .inr ⟨by simp_all, rfl⟩
  · exact .inl rfl

/-- While BUSY = 0 a read shows the registers as they stand. -/
theorem shownRegs_idle {s : State} (h : s.busy = false) (off : BitVec 12) : s.shownRegs off = s.linkRegs := by
  rcases shownRegs_cases s off with hs | ⟨hb, -⟩
  · exact hs
  · rw [h] at hb
    cases hb

/-- What the host reads at a register's offset. -/
theorem hostReads_of {s : State} {off : BitVec 12} {v : Word32} (h : off.toNat % 4 = 0) (hv : readRegister s off = v) :
    HostReads s off v := by
  intro rest
  rw [read_step s off h]
  subst hv
  rfl

/-- Four buffer bytes as a word (`20_memory.md` R64). -/
theorem bufferWord_eq (m : Memory) (o : ℕ) :
    bufferWord m o = BitVec.ofNat 32 ((m.read o).toNat + 2 ^ 8 * (m.read (o + 1)).toNat + 2 ^ 16 * (m.read (o + 2)).toNat +
      2 ^ 24 * (m.read (o + 3)).toNat) := by
  apply BitVec.eq_of_toNat_eq
  unfold bufferWord
  simp only [append_toNat, BitVec.toNat_ofNat]
  have := (m.read o).isLt; have := (m.read (o+1)).isLt; have := (m.read (o+2)).isLt; have := (m.read (o+3)).isLt
  omega

theorem eq_ofNat_of_toNat {v : Word32} {n : ℕ} (h : v.toNat = n) : v = BitVec.ofNat 32 n := by
  subst h; simp

theorem loWord_toNat (v : Word64) : (loWord v).toNat = v.toNat % 2 ^ 32 := by simp [loWord]

theorem hiWord_toNat (v : Word64) : (hiWord v).toNat = v.toNat / 2 ^ 32 := by
  have := v.isLt
  simp [hiWord, Nat.shiftRight_eq_div_pow]
  omega

/-- What a register offset outside the named registers and the buffers reads as. -/
theorem readRegister_other (s : State) (off : BitVec 12) (h : 0x054 ≤ off.toNat) :
    readRegister s off =
      if isBufferAddr off.toNat then
        bufferWord (if off.toNat < Config.rxBase then s.mem else (s.shownRegs off).mem) off.toNat
      else 0 := by
  unfold readRegister
  split <;> first | rfl | (exfalso; revert h; decide)

/-- The offsets of the two buffers (`20_memory.md` R62). -/
theorem isBufferAddr_iff (a : ℕ) : isBufferAddr a = true ↔ (0x100 ≤ a ∧ a < 0x120) ∨ (0x200 ≤ a ∧ a < 0x300) := by
  rw [isBufferAddr, Bool.or_eq_true, decide_eq_true_iff, decide_eq_true_iff]
  exact Iff.rfl

/-- A write of a register other than OPW changes OPA, OPB, EXPLEN, TIMEOUT and COLL at most (`20_memory.md` R62). -/
theorem writeRegister_frame (off : BitVec 12) (v : Word32) (s : State) :
    ∃ a b e m c, writeRegister off v s = { s with opa := a, opb := b, explen := e, timeout := m, coll := c } := by
  unfold writeRegister
  split <;> first
    | exact ⟨_, _, _, _, _, rfl⟩
    | (split <;> exact ⟨_, _, _, _, _, rfl⟩)

/-- A step that runs a host write of OPW. -/
theorem writeOpw_step {s : State} {w : Word32} {rest : List Event} (he : s.events = .hostWrite .word 0x000 w :: rest) :
    step s = writeOpw w (moved rest s) := by
  unfold step
  rw [he]
  rfl

end Sys2Proof.Machine
end

