-- ==== Sys2Proof/Laws/Link.lean ====
section
/-! SUPPORT. What a step can do, said once: the TX sink's taking of a byte, the end of an attempt, the engine's steps, and
the moves of a step. -/

namespace Sys2Proof.Machine

/-! ### The TX sink -/

/-- A wire opcode at a request boundary, and a sub-command code inside a passthrough frame, change the TX sink alone, and
the stream takes that very byte. -/
theorem exec_sinkInstr {s : State} {b : Byte} {j : Instr} (h : sinkInstr s.sink b = some j) :
    ∃ k : TxSink, exec j s = .next { s with sink := k } ∧ k.stream = s.sink.stream ++ [b] := by
  unfold sinkInstr at h
  split at h
  · unfold wireOpcode at h
    split at h <;> first | (cases h; exact ⟨_, rfl, rfl⟩) | cases h
  · split at h
    · unfold subCommand at h
      split at h <;> first | (cases h; exact ⟨_, rfl, rfl⟩) | cases h
    · cases h

/-- A plain byte changes the TX sink alone. -/
theorem takePlain_eq (b : Byte) (s : State) :
    ∃ k : TxSink, takePlain b s = { s with sink := k } ∧ k.stream = s.sink.stream ++ [b] := by
  refine ⟨(takePlain b s).sink, rfl, ?_⟩
  unfold takePlain
  split <;> rfl

/-- SEND's step hands the byte to the sink and goes on, or completes. -/
theorem emitByte_eq {l : Latch} {i : Nat} {s : State} (h1 : i < s.txlen.toNat) (h2 : i < Config.txCap) :
    ∃ k : TxSink, emitByte l i s = .next (advanceSend l i { s with sink := k }) ∧ k.stream = s.sink.stream ++ [s.txByte i] := by
  unfold emitByte
  rw [if_neg (by omega), if_neg (by omega)]
  split
  · rename_i j hj
    obtain ⟨k, hk, hs⟩ := exec_sinkInstr hj
    exact ⟨k, by rw [hk]; rfl, hs⟩
  · obtain ⟨k, hk, hs⟩ := takePlain_eq (s.txByte i) s
    exact ⟨k, by rw [hk], hs⟩

/-- What SEND's step can answer. -/
theorem emitByte_cases {l : Latch} {i : Nat} {s t : State} (h : emitByte l i s = .next t) :
    (s.txlen.toNat ≤ i ∧ t = complete s) ∨
      (i < s.txlen.toNat ∧ i < Config.txCap ∧
        ∃ k : TxSink, t = advanceSend l i { s with sink := k } ∧ k.stream = s.sink.stream ++ [s.txByte i]) := by
  by_cases h1 : s.txlen.toNat ≤ i
  · left
    rw [emitByte, if_pos h1] at h
    injection h with h
    exact ⟨h1, h.symm⟩
  · right
    by_cases h2 : i < Config.txCap
    · obtain ⟨k, hk, hs⟩ := emitByte_eq (l := l) (s := s) (by omega) h2
      rw [hk] at h
      injection h with h
      exact ⟨by omega, h2, k, h.symm, hs⟩
    · rw [emitByte, if_neg h1, if_pos (by omega)] at h
      cases h

/-! ### The end of an attempt -/

/-- RECV's attempt ends with a frame, or with one of the two framing failures. -/
theorem endRecv_cases (l : Latch) (k : Nat) (s : State) :
    (frameOutcome l.e k s = none ∧ endRecv l k s = complete (acceptFrame l.e (recordRead l.e k s))) ∨
      ∃ o, frameOutcome l.e k s = some o ∧
        endRecv l k s = raise (.protocol o.detail) (dropFrame (recordRead l.e k s)) := by
  unfold endRecv
  cases h : frameOutcome l.e k s with
  | none => exact .inl ⟨rfl, rfl⟩
  | some o => exact .inr ⟨o, rfl, rfl⟩

/-- PT_RECV's phase 1 ends with a frame, or goes on to the recovery read. -/
theorem endPtPhase1_cases (l : Latch) (k : Nat) (s : State) :
    (frameOutcome l.e k s = none ∧ endPtPhase1 l k s = complete (acceptFrame l.e (recordRead l.e k s))) ∨
      ∃ o, frameOutcome l.e k s = some o ∧
        endPtPhase1 l k s =
          { dropFrame (recordRead l.e k s) with inflight := some { latch := l, activity := .ptRecovery o l.t } } := by
  unfold endPtPhase1
  cases h : frameOutcome l.e k s with
  | none => exact .inl ⟨rfl, rfl⟩
  | some o => exact .inr ⟨o, rfl, rfl⟩

/-- The framing contract (`42_response_framer.md` R211). -/
theorem frameOutcome_none_iff (n : Byte) (k : Nat) (s : State) :
    frameOutcome n k s = none ↔ frameLen n ≤ k ∧ s.rxByte n.toNat = Config.term := by
  unfold frameOutcome
  split
  · simp
    omega
  · split <;> simp_all

theorem frameOutcome_short_iff (n : Byte) (k : Nat) (s : State) : frameOutcome n k s = some .short ↔ k < frameLen n := by
  unfold frameOutcome
  split
  · simp_all
  · split <;> simp_all

theorem frameOutcome_badTerm_iff (n : Byte) (k : Nat) (s : State) :
    frameOutcome n k s = some .badTerm ↔ frameLen n ≤ k ∧ s.rxByte n.toNat ≠ Config.term := by
  unfold frameOutcome
  split
  · simp
    omega
  · split <;> simp_all

/-- How an attempt in flight can end by a timeout. -/
theorem expireAttempt_cases (f : InFlight) (s : State) :
    (∃ i, f.activity = .send i ∧ expireAttempt f s = s) ∨
      (∃ k m, f.activity = .recv k m ∧ expireAttempt f s = endRecv f.latch k s) ∨
      (∃ k m, f.activity = .ptRecv k m ∧ expireAttempt f s = endPtPhase1 f.latch k s) ∨
      (∃ o m, f.activity = .ptRecovery o m ∧ expireAttempt f s = recoveryFailed o s) := by
  obtain ⟨l, a⟩ := f
  cases a with
  | send i => exact .inl ⟨i, rfl, rfl⟩
  | recv k m => exact .inr (.inl ⟨k, m, rfl, rfl⟩)
  | ptRecv k m => exact .inr (.inr (.inl ⟨k, m, rfl, rfl⟩))
  | ptRecovery o m => exact .inr (.inr (.inr ⟨o, m, rfl, rfl⟩))

/-! ### The engine -/

/-- What one engine step can do: nothing, the end of an attempt whose timer is 0, a byte stored, a byte stored and the
attempt ended, an attempt that has all its bytes ended, or the recovery byte taken. -/
theorem engineStep_cases (f : InFlight) (s : State) :
    engineStep f s = s ∨
      (s.rx = [] ∧ engineStep f s = expireAttempt f s) ∨
      (∃ k m b rest, s.rx = b :: rest ∧
        ((f.activity = .recv k m ∧ k + 1 < frameLen f.latch.e ∧
            engineStep f s = { storeRx k b rest s with inflight := some { f with activity := .recv (k + 1) m } }) ∨
          (f.activity = .ptRecv k m ∧ k + 1 < frameLen f.latch.e ∧
            engineStep f s = { storeRx k b rest s with inflight := some { f with activity := .ptRecv (k + 1) m } }) ∨
          (f.activity = .recv k m ∧ k + 1 = frameLen f.latch.e ∧
            engineStep f s = endRecv f.latch (k + 1) (storeRx k b rest s)) ∨
          (f.activity = .ptRecv k m ∧ k + 1 = frameLen f.latch.e ∧
            engineStep f s = endPtPhase1 f.latch (k + 1) (storeRx k b rest s)))) ∨
      (∃ k m, frameLen f.latch.e ≤ k ∧
        ((f.activity = .recv k m ∧ engineStep f s = endRecv f.latch k s) ∨
          (f.activity = .ptRecv k m ∧ engineStep f s = endPtPhase1 f.latch k s))) ∨
      (∃ o m x rest, f.activity = .ptRecovery o m ∧ s.rx = x :: rest ∧
        engineStep f s = recoveryByte o x { s with rx := rest }) := by
  obtain ⟨l, a⟩ := f
  cases a with
  | send i => exact .inl rfl
  | recv k m =>
    simp only [engineStep]
    split
    · rename_i hk
      cases hrx : s.rx with
      | nil =>
        simp only [waitRx]
        split
        · exact .inr (.inl ⟨trivial, rfl⟩)
        · exact .inl rfl
      | cons b rest =>
        refine .inr (.inr (.inl ⟨k, m, b, rest, rfl, ?_⟩))
        simp only
        split
        · exact .inl ⟨trivial, ‹_›, rfl⟩
        · exact .inr (.inr (.inl ⟨trivial, by omega, rfl⟩))
    · exact .inr (.inr (.inr (.inl ⟨k, m, by omega, .inl ⟨rfl, rfl⟩⟩)))
  | ptRecv k m =>
    simp only [engineStep]
    split
    · rename_i hk
      cases hrx : s.rx with
      | nil =>
        simp only [waitRx]
        split
        · exact .inr (.inl ⟨trivial, rfl⟩)
        · exact .inl rfl
      | cons b rest =>
        refine .inr (.inr (.inl ⟨k, m, b, rest, rfl, ?_⟩))
        simp only
        split
        · exact .inr (.inl ⟨trivial, ‹_›, rfl⟩)
        · exact .inr (.inr (.inr ⟨trivial, by omega, rfl⟩))
    · exact .inr (.inr (.inr (.inl ⟨k, m, by omega, .inr ⟨rfl, rfl⟩⟩)))
  | ptRecovery o m =>
    simp only [engineStep]
    cases hrx : s.rx with
    | nil =>
      simp only [waitRx]
      split
      · exact .inr (.inl ⟨trivial, rfl⟩)
      · exact .inl rfl
    | cons x rest => exact .inr (.inr (.inr (.inr ⟨o, m, x, rest, rfl, rfl, rfl⟩)))

/-- With no byte waiting and the timer above 0, the engine waits (`00_scope.md` R9, `10_state.md` R34). -/
theorem waitRx_of_ne {f : InFlight} {timer : Word32} {s : State} (h : timer ≠ 0) : waitRx f timer s = s := if_neg h

/-- With no byte waiting and TIMEOUT = 0, the attempt ends (`10_state.md` R34). -/
theorem waitRx_zero (f : InFlight) (s : State) : waitRx f 0 s = expireAttempt f s := rfl

/-- What an attempt does with no agent's move pending: the engine's step, or the end by a timeout where no byte is
waiting. -/
theorem attemptGoesOn_cases (f : InFlight) (s : State) :
    (s.rx = [] ∧ attemptGoesOn f s = expireAttempt f s) ∨ (s.rx ≠ [] ∧ attemptGoesOn f s = engineStep f s) := by
  unfold attemptGoesOn
  cases h : s.rx with
  | nil => exact .inl ⟨rfl, rfl⟩
  | cons b rest => exact .inr ⟨by simp, rfl⟩

/-- RECV stores a byte that is not its last. -/
theorem engineStep_recv_more {l : Latch} {k : Nat} {m : Word32} {b : Byte} {rest : List Byte} {s : State}
    (hrx : s.rx = b :: rest) (hk : k + 1 < frameLen l.e) :
    engineStep { latch := l, activity := .recv k m } s =
      { storeRx k b rest s with inflight := some { latch := l, activity := .recv (k + 1) m } } := by
  unfold engineStep
  simp only
  rw [if_pos (by omega), hrx]
  simp only
  rw [if_pos hk]

/-- RECV stores its last byte, and its attempt ends. -/
theorem engineStep_recv_last {l : Latch} {k : Nat} {m : Word32} {b : Byte} {rest : List Byte} {s : State}
    (hrx : s.rx = b :: rest) (hk : k + 1 = frameLen l.e) :
    engineStep { latch := l, activity := .recv k m } s = endRecv l (k + 1) (storeRx k b rest s) := by
  unfold engineStep
  simp only
  rw [if_pos (by omega), hrx]
  simp only
  rw [if_neg (by omega)]

/-- PT_RECV's phase 1 stores a byte that is not its last. -/
theorem engineStep_ptRecv_more {l : Latch} {k : Nat} {m : Word32} {b : Byte} {rest : List Byte} {s : State}
    (hrx : s.rx = b :: rest) (hk : k + 1 < frameLen l.e) :
    engineStep { latch := l, activity := .ptRecv k m } s =
      { storeRx k b rest s with inflight := some { latch := l, activity := .ptRecv (k + 1) m } } := by
  unfold engineStep
  simp only
  rw [if_pos (by omega), hrx]
  simp only
  rw [if_pos hk]

/-- PT_RECV's phase 1 stores its last byte, and its attempt ends. -/
theorem engineStep_ptRecv_last {l : Latch} {k : Nat} {m : Word32} {b : Byte} {rest : List Byte} {s : State}
    (hrx : s.rx = b :: rest) (hk : k + 1 = frameLen l.e) :
    engineStep { latch := l, activity := .ptRecv k m } s = endPtPhase1 l (k + 1) (storeRx k b rest s) := by
  unfold engineStep
  simp only
  rw [if_pos (by omega), hrx]
  simp only
  rw [if_neg (by omega)]

/-- PT_RECV's recovery read takes its byte. -/
theorem engineStep_ptRecovery {l : Latch} {o : FrameFail} {m : Word32} {x : Byte} {rest : List Byte} {s : State}
    (hrx : s.rx = x :: rest) :
    engineStep { latch := l, activity := .ptRecovery o m } s = recoveryByte o x { s with rx := rest } := by
  unfold engineStep
  simp only
  rw [hrx]

/-! ### Runs -/

/-- The host's run of a core takes its first step. -/
theorem core_run_succ (M : Host.Core) (n : ℕ) (s : M.State) :
    M.run (n + 1) s =
      (match M.step s with
        | .next t => M.run n t
        | .fault r => .fault r
        | .refused r => .refused r) := by
  cases h : M.step s <;> simp only [Host.Core.run, h]

/-- `runSteps` is the host's own run of the core. -/
theorem runSteps_eq_run (n : ℕ) (s : State) : runSteps n s = Host.Core.run Sys2Proof.core n s := by
  induction n generalizing s with
  | zero => rfl
  | succ n ih =>
    refine Eq.trans ?_ (core_run_succ Sys2Proof.core n s).symm
    have hc : Sys2Proof.core.step s = step s := rfl
    rw [runSteps]
    cases h : step s with
    | next t =>
      rw [h] at hc
      simp only [hc]
      exact ih t
    | fault r =>
      rw [h] at hc
      simp only [hc]
      rfl
    | refused r =>
      rw [h] at hc
      simp only [hc]
      rfl

/-- A run takes its first step. -/
theorem runSteps_succ (n : ℕ) {s t : State} (h : step s = .next t) : runSteps (n + 1) s = runSteps n t := by
  rw [runSteps, h]

/-- A run goes on where a shorter one ended. -/
theorem runSteps_add {n : ℕ} (m : ℕ) {s t : State} (h : runSteps n s = .next t) : runSteps (n + m) s = runSteps m t := by
  induction n generalizing s with
  | zero =>
    injection h with h
    rw [h, Nat.zero_add]
  | succ n ih =>
    rw [show n + 1 + m = n + m + 1 by omega]
    rw [runSteps] at h ⊢
    cases hs : step s with
    | next u =>
      rw [hs] at h
      exact ih h
    | fault r =>
      rw [hs] at h
      cases h
    | refused r =>
      rw [hs] at h
      cases h

/-- With no agent's move pending, a step is what goes on by itself. -/
theorem step_unattended {s : State} (h : s.events = []) : step s = unattended s := by
  unfold step
  rw [h]

/-! ### A step -/

/-- The step of an engine move, with an operation in flight. -/
theorem step_engine {s : State} {f : InFlight} {rest : List Event} (he : s.events = .engine :: rest)
    (hf : s.inflight = some f) : step s = .next (engineStep f (moved rest s)) := by
  have h : step s = .next (engineTurn (moved rest s)) := by
    unfold step
    rw [he]
    rfl
  rw [h, engineTurn, show (moved rest s).inflight = some f from hf]

/-- The step of a timeout, with an operation in flight. -/
theorem step_timeout {s : State} {f : InFlight} {rest : List Event} (he : s.events = .timeout :: rest)
    (hf : s.inflight = some f) : step s = .next (expireAttempt f (moved rest s)) := by
  have h : step s = .next (timeoutTurn (moved rest s)) := by
    unfold step
    rw [he]
    rfl
  rw [h, timeoutTurn, show (moved rest s).inflight = some f from hf]

/-- The step of the TX sink's move, with a SEND in flight. -/
theorem step_txTake {s : State} {l : Latch} {i : Nat} {rest : List Event} (he : s.events = .txTake :: rest)
    (hf : s.inflight = some { latch := l, activity := .send i }) : step s = emitByte l i (moved rest s) := by
  have h : step s = sinkStep (moved rest s) := by
    unfold step
    rw [he]
    rfl
  rw [h, sinkStep, show (moved rest s).inflight = some { latch := l, activity := .send i } from hf]

/-- With no move pending, counting a move is all that happens to the moves. -/
theorem tick_eq_moved {s : State} (he : s.events = []) : tick s = moved [] s := by
  unfold tick moved
  rw [← he]

/-- The step with no move pending and a SEND in flight: the TX sink takes the next byte. -/
theorem step_sendGoesOn {s : State} {l : Latch} {i : Nat} (he : s.events = [])
    (hf : s.inflight = some { latch := l, activity := .send i }) : step s = emitByte l i (moved [] s) := by
  rw [step_unattended he, unattended, hf, ← tick_eq_moved he]

/-- The step with no move pending and a read in flight: the engine's step where a byte is waiting, else the end of its
attempt. -/
theorem step_readGoesOn {s : State} {f : InFlight} (he : s.events = []) (hf : s.inflight = some f)
    (hn : ∀ i, f.activity ≠ .send i) :
    step s = .next (if s.rx = [] then expireAttempt f (moved [] s) else engineStep f (moved [] s)) := by
  have hg : attemptGoesOn f (tick s) = if s.rx = [] then expireAttempt f (moved [] s) else engineStep f (moved [] s) := by
    rw [← tick_eq_moved he]
    rcases attemptGoesOn_cases f (tick s) with ⟨hr, hg⟩ | ⟨hr, hg⟩ <;> rw [hg]
    · exact (if_pos (show s.rx = [] from hr)).symm
    · exact (if_neg (show s.rx ≠ [] from hr)).symm
  rw [step_unattended he, unattended, hf, ← hg]
  obtain ⟨l, a⟩ := f
  cases a with
  | send i => exact absurd rfl (hn i)
  | recv k m => rfl
  | ptRecv k m => rfl
  | ptRecovery o m => rfl

/-- A link operation in flight goes on: the engine's step, the end of its attempt, or the sink's taking of a byte. -/
def LinkMove (f : InFlight) (s t : State) : Prop :=
  t = engineStep f s ∨ t = expireAttempt f s ∨ ∃ i, f.activity = .send i ∧ emitByte f.latch i s = .next t

/-- What a step that answers a next state can have done. -/
theorem step_cases {s t : State} (h : step s = .next t) :
    (s.events = [] ∧ s.inflight = none ∧ t = s) ∨
      (∃ off rest, s.events = .hostRead .word off :: rest ∧ off.toNat % 4 = 0 ∧ t = hostRead off { s with events := rest }) ∨
      (∃ off v rest, s.events = .hostWrite .word off v :: rest ∧ off.toNat % 4 = 0 ∧ off ≠ 0 ∧
        t = writeRegister off v (moved rest s)) ∨
      (∃ w rest, s.events = .hostWrite .word 0 w :: rest ∧ writeOpw w (moved rest s) = .next t) ∨
      (∃ bytes rest, s.events = .rxAppend bytes :: rest ∧ t = { s with events := rest, rx := s.rx ++ bytes }) ∨
      (∃ rest, s.events = .reset :: rest ∧ t = resetMachine (moved rest s)) ∨
      (∃ e rest, s.events = e :: rest ∧ (e = .engine ∨ e = .txTake ∨ e = .timeout) ∧ t = moved rest s) ∨
      (∃ f rest, s.inflight = some f ∧ LinkMove f (moved rest s) t ∧
        (s.events = [] ∧ rest = [] ∨
          ∃ e, s.events = e :: rest ∧ (e = .engine ∨ e = .txTake ∨ e = .timeout))) := by
  unfold step at h
  cases he : s.events with
  | nil =>
    rw [he] at h
    simp only [unattended] at h
    cases hf : s.inflight with
    | none =>
      rw [hf] at h
      injection h with h
      exact .inl ⟨rfl, rfl, h.symm⟩
    | some f =>
      rw [hf] at h
      have hm : moved [] s = tick s := by
        cases s
        simp_all [moved, tick]
      refine .inr (.inr (.inr (.inr (.inr (.inr (.inr ⟨f, [], rfl, ?_, .inl ⟨rfl, rfl⟩⟩))))))
      rw [hm]
      have goesOn (f : InFlight) (ht : t = attemptGoesOn f (tick s)) : LinkMove f (tick s) t := by
        rcases attemptGoesOn_cases f (tick s) with ⟨-, hg⟩ | ⟨-, hg⟩
        · exact .inr (.inl (ht.trans hg))
        · exact .inl (ht.trans hg)
      obtain ⟨l, a⟩ := f
      cases a with
      | send i => exact .inr (.inr ⟨i, rfl, h⟩)
      | recv k m => injection h with h; exact goesOn _ h.symm
      | ptRecv k m => injection h with h; exact goesOn _ h.symm
      | ptRecovery o m => injection h with h; exact goesOn _ h.symm
  | cons e rest =>
    rw [he] at h
    simp only [agentMove] at h
    have hm : tick { s with events := rest } = moved rest s := rfl
    cases e with
    | hostRead size off =>
      simp only at h
      split at h
      · rename_i hok
        injection h with h
        simp only [accessOk, Bool.and_eq_true, beq_iff_eq] at hok
        obtain ⟨rfl, hoff⟩ := hok
        exact .inr (.inl ⟨off, rest, rfl, by simpa using hoff, h.symm⟩)
      · cases h
    | hostWrite size off v =>
      simp only at h
      split at h
      · rename_i hok
        simp only [accessOk, Bool.and_eq_true, beq_iff_eq] at hok
        obtain ⟨rfl, hoff⟩ := hok
        split at h
        · rename_i h0
          subst h0
          exact .inr (.inr (.inr (.inl ⟨v, rest, rfl, h⟩)))
        · rename_i h0
          injection h with h
          exact .inr (.inr (.inl ⟨off, v, rest, rfl, by simpa using hoff, h0, h.symm⟩))
      · cases h
    | engine =>
      injection h with h
      simp only [engineTurn, hm] at h
      cases hf : s.inflight with
      | none =>
        rw [show (moved rest s).inflight = none from hf] at h
        exact .inr (.inr (.inr (.inr (.inr (.inr (.inl ⟨_, rest, rfl, .inl rfl, h.symm⟩))))))
      | some f =>
        rw [show (moved rest s).inflight = some f from hf] at h
        exact .inr (.inr (.inr (.inr (.inr (.inr (.inr ⟨f, rest, rfl, .inl h.symm, .inr ⟨_, rfl, .inl rfl⟩⟩))))))
    | txTake =>
      simp only [sinkStep, hm] at h
      cases hf : s.inflight with
      | none =>
        rw [show (moved rest s).inflight = none from hf] at h
        injection h with h
        exact .inr (.inr (.inr (.inr (.inr (.inr (.inl ⟨_, rest, rfl, .inr (.inl rfl), h.symm⟩))))))
      | some f =>
        rw [show (moved rest s).inflight = some f from hf] at h
        obtain ⟨l, a⟩ := f
        cases a with
        | send i =>
          exact .inr (.inr (.inr (.inr (.inr (.inr (.inr
            ⟨_, rest, rfl, .inr (.inr ⟨i, rfl, h⟩), .inr ⟨_, rfl, .inr (.inl rfl)⟩⟩))))))
        | recv k m =>
          injection h with h
          exact .inr (.inr (.inr (.inr (.inr (.inr (.inl ⟨_, rest, rfl, .inr (.inl rfl), h.symm⟩))))))
        | ptRecv k m =>
          injection h with h
          exact .inr (.inr (.inr (.inr (.inr (.inr (.inl ⟨_, rest, rfl, .inr (.inl rfl), h.symm⟩))))))
        | ptRecovery o m =>
          injection h with h
          exact .inr (.inr (.inr (.inr (.inr (.inr (.inl ⟨_, rest, rfl, .inr (.inl rfl), h.symm⟩))))))
    | rxAppend bytes =>
      injection h with h
      exact .inr (.inr (.inr (.inr (.inl ⟨bytes, rest, rfl, h.symm⟩))))
    | timeout =>
      injection h with h
      simp only [timeoutTurn, hm] at h
      cases hf : s.inflight with
      | none =>
        rw [show (moved rest s).inflight = none from hf] at h
        exact .inr (.inr (.inr (.inr (.inr (.inr (.inl ⟨_, rest, rfl, .inr (.inr rfl), h.symm⟩))))))
      | some f =>
        rw [show (moved rest s).inflight = some f from hf] at h
        exact .inr (.inr (.inr (.inr (.inr (.inr (.inr ⟨f, rest, rfl, .inr (.inl h.symm), .inr ⟨_, rfl, .inr (.inr rfl)⟩⟩))))))
    | reset =>
      injection h with h
      exact .inr (.inr (.inr (.inr (.inr (.inl ⟨rest, rfl, h.symm⟩)))))

end Sys2Proof.Machine
end

