-- ==== Sys2Proof/Laws/Numeric.lean ====
section
/-! SUPPORT. The numeric primitives mean what `00_scope.md` R10 says: rounding to an integer, rounding to a binary64
value, and the exact value of a binary64 pattern. -/

namespace Sys2Proof.Machine

/-! ### Units -/

theorem two_pow_cast (n : ℕ) : ((2 ^ n : ℕ) : ℚ) = 2 ^ (n : ℤ) := by
  rw [Nat.cast_pow, zpow_natCast]
  rfl

theorem unitsPerOne_eq : ∃ K, unitsPerOne = 2 ^ K ∧ K = 1074 := by
  obtain ⟨K, hK⟩ : ∃ K, K = 179 * 6 := ⟨_, rfl⟩
  exact ⟨K, by rw [hK, Nat.pow_mul]; rfl, hK⟩

theorem unitsPerOne_pos : 0 < unitsPerOne := by
  obtain ⟨K, h, -⟩ := unitsPerOne_eq
  exact h ▸ Nat.pow_pos Nat.two_pos

theorem unitsPerOne_cast : (unitsPerOne : ℚ) = 2 ^ (1074 : ℤ) := by
  obtain ⟨K, h, hK⟩ := unitsPerOne_eq
  rw [h, two_pow_cast, hK]
  rfl

/-! ### Rounding to an integer -/

/-- `rne` is rounding to the nearest integer, ties to even (`00_scope.md` R10). -/
theorem rne_isRne (num den : ℕ) (hd : 0 < den) : IsRne ((num : ℚ) / den) (rne num den : ℕ) := by
  have hq : (num : ℚ) / den = (num / den : ℕ) + ((num % den : ℕ) : ℚ) / den := by
    have h : (num : ℚ) = den * (num / den : ℕ) + (num % den : ℕ) := by exact_mod_cast (Nat.div_add_mod num den).symm
    have hd' : (den : ℚ) ≠ 0 := by positivity
    field_simp
    linarith
  have hdq : (0 : ℚ) < den := by exact_mod_cast hd
  have hr : num % den < den := Nat.mod_lt _ hd
  unfold rne IsRne
  rw [hq]
  generalize num / den = q
  generalize num % den = r at hr ⊢
  have hr0 : (0 : ℚ) ≤ (r : ℚ) / den := by positivity
  have hr1 : (r : ℚ) / den < 1 := by rw [div_lt_one hdq]; exact_mod_cast hr
  split
  · rename_i h
    have h2 : (r : ℚ) / den < 1 / 2 := by
      rw [div_lt_div_iff₀ hdq two_pos]
      have : ((2 * r : ℕ) : ℚ) < den := by exact_mod_cast h
      push_cast at this
      linarith
    have he : |((q : ℚ) + (r : ℚ) / den) - ((q : ℤ) : ℚ)| = (r : ℚ) / den := by
      rw [show ((q : ℚ) + (r : ℚ) / den) - ((q : ℤ) : ℚ) = (r : ℚ) / den by push_cast; ring]
      exact abs_of_nonneg hr0
    rw [he]
    exact ⟨le_of_lt h2, fun e => absurd e (ne_of_lt h2)⟩
  · split
    · rename_i h
      have h2 : 1 / 2 < (r : ℚ) / den := by
        rw [div_lt_div_iff₀ two_pos hdq]
        have : (den : ℚ) < ((2 * r : ℕ) : ℚ) := by exact_mod_cast h
        push_cast at this
        linarith
      have he : |((q : ℚ) + (r : ℚ) / den) - (((q + 1 : ℕ) : ℤ) : ℚ)| = 1 - (r : ℚ) / den := by
        rw [show ((q : ℚ) + (r : ℚ) / den) - (((q + 1 : ℕ) : ℤ) : ℚ) = -(1 - (r : ℚ) / den) by push_cast; ring]
        rw [abs_neg]
        exact abs_of_nonneg (by linarith)
      rw [he]
      exact ⟨by linarith, fun e => absurd e (by linarith)⟩
    · have h2 : (r : ℚ) / den = 1 / 2 := by
        rw [div_eq_div_iff (ne_of_gt hdq) two_ne_zero]
        have : 2 * r = den := by omega
        have : ((2 * r : ℕ) : ℚ) = den := by exact_mod_cast this
        push_cast at this
        linarith
      rcases Nat.even_or_odd q with hev | hod
      · have hm : q % 2 = 0 := Nat.even_iff.mp hev
        have he : |((q : ℚ) + (r : ℚ) / den) - (((q + q % 2 : ℕ) : ℤ) : ℚ)| = 1 / 2 := by
          rw [hm, h2, show ((q : ℚ) + 1 / 2) - (((q + 0 : ℕ) : ℤ) : ℚ) = 1 / 2 by push_cast; ring]
          exact abs_of_pos (by norm_num)
        rw [he]
        exact ⟨le_refl _, fun _ => by rw [hm]; exact_mod_cast hev⟩
      · have hm : q % 2 = 1 := Nat.odd_iff.mp hod
        have he : |((q : ℚ) + (r : ℚ) / den) - (((q + q % 2 : ℕ) : ℤ) : ℚ)| = 1 / 2 := by
          rw [hm, h2, show ((q : ℚ) + 1 / 2) - (((q + 1 : ℕ) : ℤ) : ℚ) = -(1 / 2) by push_cast; ring, abs_neg]
          exact abs_of_pos (by norm_num)
        rw [he]
        exact ⟨le_refl _, fun _ => by rw [hm]; exact_mod_cast hod.add_one⟩

/-- Another integer is at least half away, and at a half the rounded one is even. -/
theorem IsRne.le_dist {r : ℚ} {q k : ℤ} (h : IsRne r q) :
    |r - q| ≤ |r - k| ∧ (|r - k| = |r - q| → k ≠ q → Even q) := by
  by_cases hk : k = q
  · subst hk
    exact ⟨le_refl _, fun _ hn => absurd rfl hn⟩
  · have h1 : (1 : ℚ) ≤ |((k : ℚ) - q)| := by
      have : (1 : ℤ) ≤ |k - q| := Int.one_le_abs (sub_ne_zero.mpr hk)
      exact_mod_cast this
    have h2 : |((k : ℚ) - q)| ≤ |r - q| + |r - k| := by
      have : (k : ℚ) - q = (r - q) - (r - k) := by ring
      rw [this]
      exact abs_sub _ _
    exact ⟨by linarith [h.1], fun e _ => h.2 (by linarith [h.1])⟩

/-! ### Rounding to a binary64 value -/

/-- The scale at which `fl64Units` rounds: the quotient's significant bits beyond 53. -/
theorem fl64_scale (x : ℕ) :
    (x < 2 ^ 53 * 2 ^ (Nat.log2 x - 52)) ∧ (Nat.log2 x - 52 = 0 ∨ 2 ^ 52 * 2 ^ (Nat.log2 x - 52) ≤ x) := by
  rcases Nat.eq_zero_or_pos x with rfl | hx
  · simp
  · have h1 : x < 2 ^ (Nat.log2 x + 1) := Nat.lt_log2_self
    have h2 : 2 ^ Nat.log2 x ≤ x := Nat.log2_self_le (by omega)
    refine ⟨lt_of_lt_of_le h1 ?_, ?_⟩
    · rw [← pow_add]
      exact Nat.pow_le_pow_right (by omega) (by omega)
    · by_cases h : Nat.log2 x - 52 = 0
      · exact .inl h
      · right
        rw [← pow_add, show 52 + (Nat.log2 x - 52) = Nat.log2 x by omega]
        exact h2

/-- Rounding at a scale of 2^sh units: the nearest binary64 magnitude, in units. -/
theorem nearest_at_scale {x : ℚ} {sh m0 : ℕ} (hlo : sh = 0 ∨ (2 : ℚ) ^ 52 * 2 ^ sh ≤ x)
    (h : IsRne (x / 2 ^ sh) (m0 : ℕ)) (m' E : ℕ) (hm' : m' < 2 ^ 53) :
    |x - m0 * 2 ^ sh| ≤ |x - m' * 2 ^ E| ∧
      (|x - m' * 2 ^ E| = |x - m0 * 2 ^ sh| → (m' : ℚ) * 2 ^ E ≠ m0 * 2 ^ sh → Even m0) := by
  have hp : (0 : ℚ) < 2 ^ sh := by positivity
  have hx : x = x / 2 ^ sh * 2 ^ sh := by field_simp
  have hv : |x - m0 * 2 ^ sh| = |x / 2 ^ sh - ((m0 : ℤ) : ℚ)| * 2 ^ sh := by
    rw [← abs_of_pos hp, ← abs_mul, abs_of_pos hp, sub_mul, ← hx]
    push_cast
    rfl
  rcases Nat.lt_or_ge E sh with hE | hE
  · have hlo' : (2 : ℚ) ^ 52 * 2 ^ sh ≤ x := hlo.resolve_left (by omega)
    have hy : (m' : ℚ) * 2 ^ E ≤ 2 ^ 52 * 2 ^ sh - 2 ^ sh / 2 := by
      obtain ⟨d, rfl⟩ : ∃ d, sh = E + 1 + d := ⟨sh - E - 1, by omega⟩
      have hm1 : (m' : ℚ) ≤ 2 ^ 53 - 1 := by
        have : m' ≤ 2 ^ 53 - 1 := by omega
        have h3 : (m' : ℚ) ≤ ((2 ^ 53 - 1 : ℕ) : ℚ) := by exact_mod_cast this
        refine le_trans h3 (by norm_num)
      have hd : (1 : ℚ) ≤ 2 ^ d := one_le_pow₀ (by norm_num)
      have hpE : (0 : ℚ) < 2 ^ E := by positivity
      have e1 : (2 : ℚ) ^ (E + 1 + d) = 2 * 2 ^ E * 2 ^ d := by rw [pow_add, pow_add]; ring
      rw [e1]
      have : (m' : ℚ) * 2 ^ E ≤ (2 ^ 53 - 1) * 2 ^ E := by gcongr
      have h4 : (2 ^ 53 - 1) * 2 ^ E ≤ ((2 : ℚ) ^ 53 - 1) * 2 ^ E * 2 ^ d :=
        le_mul_of_one_le_right (by positivity) hd
      calc (m' : ℚ) * 2 ^ E ≤ ((2 : ℚ) ^ 53 - 1) * 2 ^ E * 2 ^ d := le_trans this h4
        _ = 2 ^ 52 * (2 * 2 ^ E * 2 ^ d) - 2 * 2 ^ E * 2 ^ d / 2 := by ring
    have hfar : (2 : ℚ) ^ sh / 2 ≤ |x - m' * 2 ^ E| := le_trans (by linarith) (le_abs_self _)
    have hnear : |x - m0 * 2 ^ sh| ≤ 2 ^ sh / 2 := by
      rw [hv]
      have := mul_le_mul_of_nonneg_right h.1 (le_of_lt hp)
      linarith
    refine ⟨le_trans hnear hfar, fun e _ => ?_⟩
    have : |x / 2 ^ sh - ((m0 : ℤ) : ℚ)| = 1 / 2 := by
      have h5 : |x / 2 ^ sh - ((m0 : ℤ) : ℚ)| * 2 ^ sh = 1 / 2 * 2 ^ sh := by rw [← hv]; linarith
      exact mul_right_cancel₀ (ne_of_gt hp) h5
    exact_mod_cast h.2 this
  · obtain ⟨d, rfl⟩ : ∃ d, E = sh + d := ⟨E - sh, by omega⟩
    have hy : (m' : ℚ) * 2 ^ (sh + d) = (((m' * 2 ^ d : ℕ) : ℤ) : ℚ) * 2 ^ sh := by push_cast; rw [pow_add]; ring
    have hw : |x - m' * 2 ^ (sh + d)| = |x / 2 ^ sh - (((m' * 2 ^ d : ℕ) : ℤ) : ℚ)| * 2 ^ sh := by
      rw [← abs_of_pos hp, ← abs_mul, abs_of_pos hp, sub_mul, ← hx, hy]
    obtain ⟨g1, g2⟩ := h.le_dist (k := ((m' * 2 ^ d : ℕ) : ℤ))
    rw [hv, hw]
    refine ⟨mul_le_mul_of_nonneg_right g1 (le_of_lt hp), fun e hn => ?_⟩
    have e' := mul_right_cancel₀ (ne_of_gt hp) e
    have hne : ((m' * 2 ^ d : ℕ) : ℤ) ≠ (m0 : ℤ) := by
      intro hc
      exact hn (by rw [hy, hc]; push_cast; rfl)
    exact_mod_cast g2 e' hne

/-- `fl64Units` is rounding to the nearest binary64 magnitude, ties to even (`00_scope.md` R10). -/
theorem fl64Units_isFl64 (num den : ℕ) (hd : 0 < den) :
    IsFl64 ((num : ℚ) / den) ((fl64Units num den : ℕ) / unitsPerOne) := by
  obtain ⟨hhi, hlo⟩ := fl64_scale (num * unitsPerOne / den)
  unfold fl64Units
  simp only
  generalize hsh : Nat.log2 (num * unitsPerOne / den) - 52 = sh at *
  have hdq : (0 : ℚ) < den := by exact_mod_cast hd
  have hU : (0 : ℚ) < unitsPerOne := by exact_mod_cast unitsPerOne_pos
  have hp : (0 : ℚ) < 2 ^ sh := by positivity
  set x : ℚ := (num : ℚ) / den * unitsPerOne with hxdef
  have hxU : (num : ℚ) / den = x / unitsPerOne := by rw [hxdef]; field_simp
  have hrne : IsRne (x / 2 ^ sh) (rne (num * unitsPerOne) (den * 2 ^ sh) : ℕ) := by
    have := rne_isRne (num * unitsPerOne) (den * 2 ^ sh) (by positivity)
    rwa [show ((num * unitsPerOne : ℕ) : ℚ) / ((den * 2 ^ sh : ℕ) : ℚ) = x / 2 ^ sh by
      rw [hxdef]; push_cast; field_simp] at this
  have hxlo : sh = 0 ∨ (2 : ℚ) ^ 52 * 2 ^ sh ≤ x := by
    refine hlo.imp id fun h => ?_
    have h1 : ((2 ^ 52 * 2 ^ sh : ℕ) : ℚ) ≤ ((num * unitsPerOne / den : ℕ) : ℚ) := by exact_mod_cast h
    have h2 : ((num * unitsPerOne / den : ℕ) : ℚ) ≤ ((num * unitsPerOne : ℕ) : ℚ) / den := Nat.cast_div_le
    rw [hxdef]
    push_cast at h1 h2 ⊢
    calc _ ≤ _ := h1
      _ ≤ _ := h2
      _ = _ := by ring
  have hxhi : x < (2 : ℚ) ^ 53 * 2 ^ sh := by
    have h1 : num * unitsPerOne < 2 ^ 53 * 2 ^ sh * den := (Nat.div_lt_iff_lt_mul hd).mp hhi
    have h2 : ((num * unitsPerOne : ℕ) : ℚ) < ((2 ^ 53 * 2 ^ sh * den : ℕ) : ℚ) := by exact_mod_cast h1
    push_cast at h2
    rw [hxdef, div_mul_eq_mul_div, div_lt_iff₀ hdq]
    exact h2
  generalize rne (num * unitsPerOne) (den * 2 ^ sh) = m0 at hrne ⊢
  clear_value x
  -- the rounded significand has at most 53 bits, or is 2^53
  have hm_hi : m0 ≤ 2 ^ 53 := by
    have h1 : (m0 : ℚ) - x / 2 ^ sh ≤ 1 / 2 := by
      have := hrne.1
      rw [abs_sub_comm] at this
      exact le_trans (le_abs_self _) (by simpa using this)
    have h2 : x / 2 ^ sh < 2 ^ 53 := by rw [div_lt_iff₀ hp]; exact hxhi
    have h3 : (m0 : ℚ) < ((2 ^ 53 + 1 : ℕ) : ℚ) := by push_cast; linarith
    have : m0 < 2 ^ 53 + 1 := by exact_mod_cast h3
    omega
  have hm_lo : sh = 0 ∨ 2 ^ 52 ≤ m0 := by
    refine hxlo.imp id fun h => ?_
    have h1 : x / 2 ^ sh - m0 ≤ 1 / 2 := le_trans (le_abs_self _) (by simpa using hrne.1)
    have h2 : (2 : ℚ) ^ 52 ≤ x / 2 ^ sh := by rw [le_div_iff₀ hp]; exact h
    have h3 : ((2 ^ 52 : ℕ) : ℚ) < ((m0 + 1 : ℕ) : ℚ) := by push_cast; linarith
    have : 2 ^ 52 < m0 + 1 := by exact_mod_cast h3
    omega
  -- values in units
  have hunits : ∀ (m : ℕ) (e : ℤ), -1074 ≤ e → (m : ℚ) * 2 ^ e = m * 2 ^ (e + 1074).toNat / unitsPerOne := by
    intro m e he
    rw [unitsPerOne_cast, ← zpow_natCast (2 : ℚ) (e + 1074).toNat, Int.toNat_of_nonneg (by omega), mul_div_assoc,
      ← zpow_sub₀ (by norm_num)]
    rw [show e + 1074 - (1074 : ℤ) = e by omega]
  have hnearest : ∀ (m' : ℕ) (e' : ℤ), F64Mag m' e' →
      |(num : ℚ) / den - (m0 * 2 ^ sh : ℕ) / unitsPerOne| ≤ |(num : ℚ) / den - m' * 2 ^ e'| ∧
        (|(num : ℚ) / den - m' * 2 ^ e'| = |(num : ℚ) / den - (m0 * 2 ^ sh : ℕ) / unitsPerOne| →
          (m' : ℚ) * 2 ^ e' ≠ (m0 * 2 ^ sh : ℕ) / unitsPerOne → Even m0) := by
    intro m' e' hm'
    obtain ⟨g1, g2⟩ := nearest_at_scale hxlo hrne m' (e' + 1074).toNat hm'.1
    rw [hunits m' e' hm'.2, hxU, ← sub_div, ← sub_div, abs_div, abs_div, abs_of_pos hU, Nat.cast_mul, Nat.cast_pow,
      Nat.cast_ofNat]
    refine ⟨div_le_div_of_nonneg_right g1 (le_of_lt hU), fun e hn => g2 ((div_left_inj' (ne_of_gt hU)).mp e) ?_⟩
    intro hc
    exact hn (by rw [hc])
  rcases Nat.lt_or_ge m0 (2 ^ 53) with hlt | hge
  · refine ⟨m0, (sh : ℤ) - 1074, ⟨hlt, by omega⟩, ?_, ?_, hnearest⟩
    · rcases hm_lo with h | h
      · right; omega
      · exact .inl h
    · rw [hunits m0 _ (by omega), show ((sh : ℤ) - 1074 + 1074).toNat = sh by omega]
      push_cast
      rfl
  · obtain rfl : m0 = 2 ^ 53 := by omega
    refine ⟨2 ^ 52, (sh : ℤ) + 1 - 1074, ⟨by norm_num, by omega⟩, .inl (le_refl _), ?_, fun m' e' hm' => ?_⟩
    · rw [hunits (2 ^ 52) _ (by omega), show ((sh : ℤ) + 1 - 1074 + 1074).toNat = sh + 1 by omega, pow_succ]
      push_cast
      ring
    · exact ⟨(hnearest m' e' hm').1, fun _ _ => by decide⟩

/-! ### Binary64 patterns -/

theorem expField_eq (x : Word64) : expField x = x.toNat / 2 ^ 52 % 2 ^ 11 := by
  simp [expField, BitVec.extractLsb'_toNat, Nat.shiftRight_eq_div_pow]

theorem fracField_eq (x : Word64) : fracField x = x.toNat % 2 ^ 52 := by
  simp [fracField, BitVec.extractLsb'_toNat]

theorem signBit_eq (x : Word64) : signBit x = decide (2 ^ 63 ≤ x.toNat) := by
  rw [signBit, show x.getLsbD 63 = x.msb from rfl, BitVec.msb_eq_decide]

theorem f64Finite_iff (x : Word64) : f64Finite x ↔ isFinite x = true := by
  simp [f64Finite, isFinite, expField_eq]

/-- The exact value of a pattern, in units of 2^-1074 (`00_scope.md` R10). -/
theorem f64Val_eq (x : Word64) :
    f64Val x = (if signBit x then -1 else 1) * ((magUnits x : ℕ) / unitsPerOne) := by
  have hsign : (if x.toNat < 2 ^ 63 then (1 : ℚ) else -1) = if signBit x then -1 else 1 := by
    rw [signBit_eq]
    by_cases h : x.toNat < 2 ^ 63
    · rw [if_pos h, decide_eq_false (by omega), if_neg Bool.false_ne_true]
    · rw [if_neg h, decide_eq_true (by omega), if_pos rfl]
  unfold f64Val
  rw [hsign, ← expField_eq, ← fracField_eq, mul_assoc]
  congr 1
  unfold magUnits
  rw [unitsPerOne_cast]
  split
  · rename_i h
    rw [h, show ((max 0 1 : ℕ) - 1075 : ℤ) = -1074 by norm_num, zpow_neg, div_eq_mul_inv]
  · rename_i h
    obtain ⟨e, he⟩ : ∃ e, expField x = e + 1 := ⟨expField x - 1, by omega⟩
    rw [he, show max (e + 1) 1 = e + 1 by omega, show e + 1 - 1 = e by omega,
      show (((e + 1 : ℕ) : ℤ) - 1075) = (e : ℤ) - 1074 by push_cast; ring, zpow_sub₀ (by norm_num), zpow_natCast]
    push_cast
    ring

theorem isNegative_iff (x : Word64) : isNegative x = true ↔ f64Val x < 0 := by
  have hU : (0 : ℚ) < unitsPerOne := by exact_mod_cast unitsPerOne_pos
  rw [f64Val_eq, isNegative, Bool.and_eq_true]
  by_cases hs : signBit x = true
  · rw [if_pos hs, neg_one_mul, neg_lt_zero]
    simp only [hs, true_and, bne_iff_ne, ne_eq]
    constructor
    · intro h
      exact div_pos (by exact_mod_cast Nat.pos_of_ne_zero h) hU
    · intro h h0
      rw [h0, Nat.cast_zero, zero_div] at h
      exact lt_irrefl _ h
  · rw [if_neg hs, one_mul]
    exact iff_of_false (fun h => hs h.1) (not_lt.mpr (div_nonneg (Nat.cast_nonneg _) hU.le))

theorem abs_f64Val (x : Word64) : |f64Val x| = (magUnits x : ℕ) / unitsPerOne := by
  have h : (0 : ℚ) ≤ (magUnits x : ℚ) / unitsPerOne := div_nonneg (Nat.cast_nonneg _) (Nat.cast_nonneg _)
  rw [f64Val_eq]
  split
  · rw [neg_one_mul, abs_neg, abs_of_nonneg h]
  · rw [one_mul, abs_of_nonneg h]

/-- The quantizer's precondition (`40_transform.md` R130). -/
theorem inCircle_iff (x : Word64) : inCircle x = true ↔ InCircle x := by
  have hU : (0 : ℚ) < unitsPerOne := by exact_mod_cast unitsPerOne_pos
  unfold inCircle InCircle
  rw [Bool.and_eq_true, Bool.and_eq_true, f64Finite_iff, and_assoc]
  refine and_congr_right fun _ => ?_
  have hn : (!isNegative x) = true ↔ 0 ≤ f64Val x := by
    rw [← not_lt, ← isNegative_iff]
    simp
  rw [hn, decide_eq_true_eq]
  refine and_congr_right fun h0 => ?_
  rw [← abs_of_nonneg h0, abs_f64Val, div_lt_iff₀ hU]
  constructor
  · intro h
    exact_mod_cast h
  · intro h
    exact_mod_cast h

/-- The pattern of a magnitude with at most 53 significant bits has that magnitude and that sign. -/
theorem patternOf_spec (neg : Bool) (u : ℕ) (hu : u < 2 ^ 2000) (hd : 2 ^ (Nat.log2 u - 52) ∣ u) :
    f64Finite (patternOf neg u) ∧ (signBit (patternOf neg u) = neg) ∧ magUnits (patternOf neg u) = u := by
  obtain ⟨hhi, hlo⟩ := fl64_scale u
  have hsh : Nat.log2 u - 52 < 2000 := by
    rcases Nat.eq_zero_or_pos u with rfl | hpos
    · simp
    · have := (Nat.log2_lt (by omega)).mpr hu
      omega
  unfold patternOf
  simp only
  generalize Nat.log2 u - 52 = sh at *
  obtain ⟨m, rfl⟩ := hd
  have hp : 0 < 2 ^ sh := Nat.pow_pos Nat.two_pos
  have hm : m < 2 ^ 53 := by
    rw [mul_comm (2 ^ 53)] at hhi
    exact lt_of_mul_lt_mul_left hhi (Nat.zero_le _)
  have hm' : sh = 0 ∨ 2 ^ 52 ≤ m := by
    refine hlo.imp id fun h => ?_
    rw [mul_comm (2 ^ 52)] at h
    exact le_of_mul_le_mul_left h hp
  rw [Nat.mul_div_cancel_left m hp]
  set s : ℕ := if neg then 2 ^ 63 else 0 with hs
  have hs' : s = 0 ∧ neg = false ∨ s = 2 ^ 63 ∧ neg = true := by cases neg <;> simp [hs]
  have hval : (BitVec.ofNat 64 (s + sh * 2 ^ 52 + m)).toNat = s + sh * 2 ^ 52 + m := by
    rw [BitVec.toNat_ofNat, Nat.mod_eq_of_lt]
    omega
  have hexp : expField (BitVec.ofNat 64 (s + sh * 2 ^ 52 + m)) = sh + m / 2 ^ 52 := by
    rw [expField_eq, hval]
    omega
  have hfrac : fracField (BitVec.ofNat 64 (s + sh * 2 ^ 52 + m)) = m % 2 ^ 52 := by
    rw [fracField_eq, hval]
    omega
  refine ⟨?_, ?_, ?_⟩
  · unfold f64Finite
    rw [← expField_eq, hexp]
    omega
  · rw [signBit_eq, hval]
    rcases hs' with ⟨h, rfl⟩ | ⟨h, rfl⟩
    · simp only [decide_eq_false_iff_not]
      omega
    · simp only [decide_eq_true_eq]
      omega
  · unfold magUnits
    rw [hexp, hfrac]
    split
    · obtain rfl : sh = 0 := by omega
      omega
    · by_cases h : 2 ^ 52 ≤ m
      · rw [show m / 2 ^ 52 = 1 by omega, show m % 2 ^ 52 = m - 2 ^ 52 by omega,
          show 2 ^ 52 + (m - 2 ^ 52) = m by omega, Nat.add_sub_cancel, mul_comm]
      · omega

/-- A value that `fl64Units` gives is a whole number of its own significand's units, so it has a pattern. -/
theorem fl64Units_dvd (num den : ℕ) : 2 ^ (Nat.log2 (fl64Units num den) - 52) ∣ fl64Units num den := by
  obtain ⟨hhi, -⟩ := fl64_scale (num * unitsPerOne / den)
  unfold fl64Units
  simp only
  generalize hx : num * unitsPerOne / den = x at *
  generalize hsh : Nat.log2 x - 52 = sh at *
  have hm : rne (num * unitsPerOne) (den * 2 ^ sh) ≤ 2 ^ 53 := by
    have h1 : num * unitsPerOne / (den * 2 ^ sh) < 2 ^ 53 := by
      rw [← Nat.div_div_eq_div_mul, hx]
      exact (Nat.div_lt_iff_lt_mul (Nat.pow_pos Nat.two_pos)).mpr hhi
    unfold rne
    split
    · omega
    · split <;> omega
  generalize rne (num * unitsPerOne) (den * 2 ^ sh) = m at hm ⊢
  rcases Nat.lt_or_ge m (2 ^ 53) with hlt | hge
  · refine dvd_mul_of_dvd_right (pow_dvd_pow 2 ?_) m
    rcases Nat.eq_zero_or_pos m with rfl | hpos
    · simp
    · have : Nat.log2 (m * 2 ^ sh) < 53 + sh :=
        (Nat.log2_lt (by positivity)).mpr (by rw [pow_add]; exact Nat.mul_lt_mul_of_pos_right hlt (by positivity))
      omega
  · obtain rfl : m = 2 ^ 53 := by omega
    rw [← pow_add, Nat.log2_two_pow]
    exact pow_dvd_pow 2 (by omega)

/-! ### The rounded formulas -/

section scaling
variable (U : ℕ) (hU : (U : ℚ) ≠ 0) (u k : ℕ)
include hU

theorem cast_mul_div : ((u * k : ℕ) : ℚ) / U = (u : ℚ) / U * k := by
  push_cast
  field_simp

theorem cast_div_mul (d : ℕ) (hd : (d : ℚ) ≠ 0) : ((u * k : ℕ) : ℚ) / ((d * U : ℕ) : ℚ) = (u : ℚ) / U / d * k := by
  push_cast
  field_simp

end scaling

theorem unitsPerOne_ne_zero : (unitsPerOne : ℚ) ≠ 0 := by exact_mod_cast unitsPerOne_pos.ne'

/-- `round_ARITH(val / 360 * 2^n)` (`00_scope.md` R11). -/
theorem roundAngle_spec (ar : Arith) (n u : ℕ) :
    RoundsAngle ar n ((u : ℕ) / unitsPerOne) (roundAngle ar n u : ℕ) := by
  have hU := unitsPerOne_pos
  have h360 : 0 < 360 * unitsPerOne := Nat.mul_pos (by norm_num) hU
  cases ar with
  | exact =>
    have h := rne_isRne (u * 2 ^ n) (360 * unitsPerOne) h360
    rw [cast_div_mul _ unitsPerOne_ne_zero u (2 ^ n) 360 (by norm_num), Nat.cast_pow] at h
    exact h
  | binary64 =>
    have h1 := fl64Units_isFl64 u (360 * unitsPerOne) h360
    have h2 := fl64Units_isFl64 (fl64Units u (360 * unitsPerOne) * 2 ^ n) unitsPerOne hU
    have h3 := rne_isRne (fl64Units (fl64Units u (360 * unitsPerOne) * 2 ^ n) unitsPerOne) unitsPerOne hU
    have e := cast_div_mul _ unitsPerOne_ne_zero u 1 360 (by norm_num)
    rw [mul_one, Nat.cast_one, mul_one] at e
    rw [e] at h1
    rw [cast_mul_div _ unitsPerOne_ne_zero, Nat.cast_pow] at h2
    exact ⟨_, _, h1, h2, h3⟩

/-- `round_ARITH(val * 3600)` (`00_scope.md` R11). -/
theorem roundSeconds_spec (ar : Arith) (u : ℕ) :
    RoundsSeconds ar ((u : ℕ) / unitsPerOne) (roundSeconds ar u : ℕ) := by
  have hU := unitsPerOne_pos
  cases ar with
  | exact =>
    have h := rne_isRne (u * 3600) unitsPerOne hU
    rw [cast_mul_div _ unitsPerOne_ne_zero] at h
    exact h
  | binary64 =>
    have h1 := fl64Units_isFl64 (u * 3600) unitsPerOne hU
    rw [cast_mul_div _ unitsPerOne_ne_zero] at h1
    exact ⟨_, h1, rne_isRne _ unitsPerOne hU⟩

/-- `round_ARITH(val * 3600 * 4)` (`00_scope.md` R11). -/
theorem roundRate_spec (ar : Arith) (u : ℕ) :
    RoundsRate ar ((u : ℕ) / unitsPerOne) (roundRate ar u : ℕ) := by
  have hU := unitsPerOne_pos
  cases ar with
  | exact =>
    have h := rne_isRne (u * 3600 * 4) unitsPerOne hU
    rw [cast_mul_div _ unitsPerOne_ne_zero, cast_mul_div _ unitsPerOne_ne_zero] at h
    exact h
  | binary64 =>
    have h1 := fl64Units_isFl64 (u * 3600) unitsPerOne hU
    have h2 := fl64Units_isFl64 (fl64Units (u * 3600) unitsPerOne * 4) unitsPerOne hU
    rw [cast_mul_div _ unitsPerOne_ne_zero] at h1 h2
    exact ⟨_, _, h1, h2, rne_isRne _ unitsPerOne hU⟩

end Sys2Proof.Machine
end

