-- ==== Sys2Proof/Laws/PerInstr.lean ====
section
/-! SUPPORT. Per instruction: its encoding has the bits that its row of `spec/opcode_table.json` fixes. -/

namespace Sys2Proof.Laws

/-- The code is an operation word with the bits `bits` under `mask`. -/
def OpwBits (c : Code) (mask bits : Word32) : Prop := ∃ w, c = .opw w ∧ w &&& mask = bits

/-- A word whose used fields are masked out is its FUNC. -/
theorem opWord_masked_p (f : Byte) (p : Precision) : opWord f p .raDec 0 0 &&& 0xFFFFFEFF = f.zeroExtend 32 := by
  apply BitVec.eq_of_getLsbD_eq
  intro i hi
  rw [BitVec.getLsbD_and, getLsbD_opWord]
  cases p <;> interval_cases i <;> simp [Precision.bit, CoordMode.bit]

theorem opWord_masked_pm (f : Byte) (p : Precision) (m : CoordMode) :
    opWord f p m 0 0 &&& 0xFFFFFCFF = f.zeroExtend 32 := by
  apply BitVec.eq_of_getLsbD_eq
  intro i hi
  rw [BitVec.getLsbD_and, getLsbD_opWord]
  cases p <;> cases m <;> interval_cases i <;> simp [Precision.bit, CoordMode.bit]

theorem opWord_masked_imm8 (f x : Byte) : opWord f .standard .raDec x 0 &&& 0xFF00FFFF = f.zeroExtend 32 := by
  apply BitVec.eq_of_getLsbD_eq
  intro i hi
  rw [BitVec.getLsbD_and, getLsbD_opWord]
  interval_cases i <;> simp [Precision.bit, CoordMode.bit]

theorem opWord_masked_imm8b (f x y : Byte) : opWord f .standard .raDec x y &&& 0x0000FFFF = f.zeroExtend 32 := by
  apply BitVec.eq_of_getLsbD_eq
  intro i hi
  rw [BitVec.getLsbD_and, getLsbD_opWord]
  interval_cases i <;> simp [Precision.bit, CoordMode.bit]

/-- The encoding of an instruction has the bits that its row of the opcode table fixes (`match` under `mask`). -/
def TableRow.Statement : Instr → Prop
  | .qnt p => OpwBits (encode (.qnt p)) 0xFFFFFEFF 0x00000010
  | .dqnt p => OpwBits (encode (.dqnt p)) 0xFFFFFEFF 0x00000011
  | .dmsenc => OpwBits (encode (.dmsenc)) 0xFFFFFFFF 0x00000020
  | .dmsdec => OpwBits (encode (.dmsdec)) 0xFFFFFFFF 0x00000021
  | .deg2sec => OpwBits (encode (.deg2sec)) 0xFFFFFFFF 0x00000022
  | .sec2deg => OpwBits (encode (.sec2deg)) 0xFFFFFFFF 0x00000023
  | .fbClear => OpwBits (encode (.fbClear)) 0xFFFFFFFF 0x00000030
  | .fbByte byte => OpwBits (encode (.fbByte byte)) 0xFF00FFFF 0x00000031
  | .fbUint width => OpwBits (encode (.fbUint width)) 0xFF00FFFF 0x00000032
  | .fbHex digits => OpwBits (encode (.fbHex digits)) 0xFF00FFFF 0x00000033
  | .fbDec digits => OpwBits (encode (.fbDec digits)) 0xFF00FFFF 0x00000034
  | .cbGetpos p m => OpwBits (encode (.cbGetpos p m)) 0xFFFFFCFF 0x00000040
  | .cbGoto p m => OpwBits (encode (.cbGoto p m)) 0xFFFFFCFF 0x00000041
  | .cbSync p => OpwBits (encode (.cbSync p)) 0xFFFFFEFF 0x00000042
  | .cbGettrk => OpwBits (encode (.cbGettrk)) 0xFFFFFFFF 0x00000043
  | .cbSettrk mode => OpwBits (encode (.cbSettrk mode)) 0xFF00FFFF 0x00000044
  | .cbGetloc => OpwBits (encode (.cbGetloc)) 0xFFFFFFFF 0x00000045
  | .cbSetloc => OpwBits (encode (.cbSetloc)) 0xFFFFFFFF 0x00000046
  | .cbGettime => OpwBits (encode (.cbGettime)) 0xFFFFFFFF 0x00000047
  | .cbSettime dst => OpwBits (encode (.cbSettime dst)) 0xFF00FFFF 0x00000048
  | .cbGetver => OpwBits (encode (.cbGetver)) 0xFFFFFFFF 0x00000049
  | .cbGetmodel => OpwBits (encode (.cbGetmodel)) 0xFFFFFFFF 0x0000004A
  | .cbEcho byte => OpwBits (encode (.cbEcho byte)) 0xFF00FFFF 0x0000004B
  | .cbGetalign => OpwBits (encode (.cbGetalign)) 0xFFFFFFFF 0x0000004C
  | .cbGetgoto => OpwBits (encode (.cbGetgoto)) 0xFFFFFFFF 0x0000004D
  | .cbCancel => OpwBits (encode (.cbCancel)) 0xFFFFFFFF 0x0000004E
  | .ptBuild device count => OpwBits (encode (.ptBuild device count)) 0x0000FFFF 0x00000050
  | .ptSlewfix device => OpwBits (encode (.ptSlewfix device)) 0xFF00FFFF 0x00000051
  | .ptSlewvar device => OpwBits (encode (.ptSlewvar device)) 0xFF00FFFF 0x00000052
  | .ptGetdevver device => OpwBits (encode (.ptGetdevver device)) 0xFF00FFFF 0x00000053
  | .send => OpwBits (encode (.send)) 0xFFFFFFFF 0x00000060
  | .recv => OpwBits (encode (.recv)) 0xFFFFFFFF 0x00000061
  | .ptRecv => OpwBits (encode (.ptRecv)) 0xFFFFFFFF 0x00000062
  | .decPos p => OpwBits (encode (.decPos p)) 0xFFFFFEFF 0x00000070
  | .decTrk => OpwBits (encode (.decTrk)) 0xFFFFFFFF 0x00000071
  | .decLoc => OpwBits (encode (.decLoc)) 0xFFFFFFFF 0x00000072
  | .decTime => OpwBits (encode (.decTime)) 0xFFFFFFFF 0x00000073
  | .decEcho => OpwBits (encode (.decEcho)) 0xFFFFFFFF 0x00000074
  | .decAlign => OpwBits (encode (.decAlign)) 0xFFFFFFFF 0x00000075
  | .decGoto => OpwBits (encode (.decGoto)) 0xFFFFFFFF 0x00000076
  | .wireGetPositionRaDec => encode .wireGetPositionRaDec = .wire 0x45
  | .wireGetPositionRaDecPrecise => encode .wireGetPositionRaDecPrecise = .wire 0x65
  | .wireGetPositionAzmAlt => encode .wireGetPositionAzmAlt = .wire 0x5A
  | .wireGetPositionAzmAltPrecise => encode .wireGetPositionAzmAltPrecise = .wire 0x7A
  | .wireGotoPositionRaDec => encode .wireGotoPositionRaDec = .wire 0x52
  | .wireGotoPositionRaDecPrecise => encode .wireGotoPositionRaDecPrecise = .wire 0x72
  | .wireGotoPositionAzmAlt => encode .wireGotoPositionAzmAlt = .wire 0x42
  | .wireGotoPositionAzmAltPrecise => encode .wireGotoPositionAzmAltPrecise = .wire 0x62
  | .wireSync => encode .wireSync = .wire 0x53
  | .wireSyncPrecise => encode .wireSyncPrecise = .wire 0x73
  | .wireGetTrackingMode => encode .wireGetTrackingMode = .wire 0x74
  | .wireSetTrackingMode => encode .wireSetTrackingMode = .wire 0x54
  | .wireGetLocation => encode .wireGetLocation = .wire 0x77
  | .wireSetLocation => encode .wireSetLocation = .wire 0x57
  | .wireGetTime => encode .wireGetTime = .wire 0x68
  | .wireSetTime => encode .wireSetTime = .wire 0x48
  | .wireGetVersion => encode .wireGetVersion = .wire 0x56
  | .wireGetModel => encode .wireGetModel = .wire 0x6D
  | .wireEcho => encode .wireEcho = .wire 0x4B
  | .wireGetAlignmentComplete => encode .wireGetAlignmentComplete = .wire 0x4A
  | .wireGetGotoInProgress => encode .wireGetGotoInProgress = .wire 0x4C
  | .wireCancelGoto => encode .wireCancelGoto = .wire 0x4D
  | .wirePassthrough => encode .wirePassthrough = .wire 0x50
  | .ptsubSlewVarPos => encode .ptsubSlewVarPos = .sub 0x06
  | .ptsubSlewVarNeg => encode .ptsubSlewVarNeg = .sub 0x07
  | .ptsubSlewFixPos => encode .ptsubSlewFixPos = .sub 0x24
  | .ptsubSlewFixNeg => encode .ptsubSlewFixNeg = .sub 0x25
  | .ptsubGetDeviceVersion => encode .ptsubGetDeviceVersion = .sub 0xFE

theorem TableRow.qnt (p : Precision) : TableRow.Statement (.qnt p) := ⟨_, rfl, opWord_masked_p 0x10 p⟩
theorem TableRow.dqnt (p : Precision) : TableRow.Statement (.dqnt p) := ⟨_, rfl, opWord_masked_p 0x11 p⟩
theorem TableRow.dmsenc : TableRow.Statement .dmsenc := ⟨_, rfl, by decide⟩
theorem TableRow.dmsdec : TableRow.Statement .dmsdec := ⟨_, rfl, by decide⟩
theorem TableRow.deg2sec : TableRow.Statement .deg2sec := ⟨_, rfl, by decide⟩
theorem TableRow.sec2deg : TableRow.Statement .sec2deg := ⟨_, rfl, by decide⟩
theorem TableRow.fbClear : TableRow.Statement .fbClear := ⟨_, rfl, by decide⟩
theorem TableRow.fbByte (byte : Byte) : TableRow.Statement (.fbByte byte) := ⟨_, rfl, opWord_masked_imm8 0x31 byte⟩
theorem TableRow.fbUint (width : Byte) : TableRow.Statement (.fbUint width) := ⟨_, rfl, opWord_masked_imm8 0x32 width⟩
theorem TableRow.fbHex (digits : Byte) : TableRow.Statement (.fbHex digits) := ⟨_, rfl, opWord_masked_imm8 0x33 digits⟩
theorem TableRow.fbDec (digits : Byte) : TableRow.Statement (.fbDec digits) := ⟨_, rfl, opWord_masked_imm8 0x34 digits⟩
theorem TableRow.cbGetpos (p : Precision) (m : CoordMode) : TableRow.Statement (.cbGetpos p m) := ⟨_, rfl, opWord_masked_pm 0x40 p m⟩
theorem TableRow.cbGoto (p : Precision) (m : CoordMode) : TableRow.Statement (.cbGoto p m) := ⟨_, rfl, opWord_masked_pm 0x41 p m⟩
theorem TableRow.cbSync (p : Precision) : TableRow.Statement (.cbSync p) := ⟨_, rfl, opWord_masked_p 0x42 p⟩
theorem TableRow.cbGettrk : TableRow.Statement .cbGettrk := ⟨_, rfl, by decide⟩
theorem TableRow.cbSettrk (mode : Byte) : TableRow.Statement (.cbSettrk mode) := ⟨_, rfl, opWord_masked_imm8 0x44 mode⟩
theorem TableRow.cbGetloc : TableRow.Statement .cbGetloc := ⟨_, rfl, by decide⟩
theorem TableRow.cbSetloc : TableRow.Statement .cbSetloc := ⟨_, rfl, by decide⟩
theorem TableRow.cbGettime : TableRow.Statement .cbGettime := ⟨_, rfl, by decide⟩
theorem TableRow.cbSettime (dst : Byte) : TableRow.Statement (.cbSettime dst) := ⟨_, rfl, opWord_masked_imm8 0x48 dst⟩
theorem TableRow.cbGetver : TableRow.Statement .cbGetver := ⟨_, rfl, by decide⟩
theorem TableRow.cbGetmodel : TableRow.Statement .cbGetmodel := ⟨_, rfl, by decide⟩
theorem TableRow.cbEcho (byte : Byte) : TableRow.Statement (.cbEcho byte) := ⟨_, rfl, opWord_masked_imm8 0x4B byte⟩
theorem TableRow.cbGetalign : TableRow.Statement .cbGetalign := ⟨_, rfl, by decide⟩
theorem TableRow.cbGetgoto : TableRow.Statement .cbGetgoto := ⟨_, rfl, by decide⟩
theorem TableRow.cbCancel : TableRow.Statement .cbCancel := ⟨_, rfl, by decide⟩
theorem TableRow.ptBuild (device : Byte) (count : Byte) : TableRow.Statement (.ptBuild device count) := ⟨_, rfl, opWord_masked_imm8b 0x50 device count⟩
theorem TableRow.ptSlewfix (device : Byte) : TableRow.Statement (.ptSlewfix device) := ⟨_, rfl, opWord_masked_imm8 0x51 device⟩
theorem TableRow.ptSlewvar (device : Byte) : TableRow.Statement (.ptSlewvar device) := ⟨_, rfl, opWord_masked_imm8 0x52 device⟩
theorem TableRow.ptGetdevver (device : Byte) : TableRow.Statement (.ptGetdevver device) := ⟨_, rfl, opWord_masked_imm8 0x53 device⟩
theorem TableRow.send : TableRow.Statement .send := ⟨_, rfl, by decide⟩
theorem TableRow.recv : TableRow.Statement .recv := ⟨_, rfl, by decide⟩
theorem TableRow.ptRecv : TableRow.Statement .ptRecv := ⟨_, rfl, by decide⟩
theorem TableRow.decPos (p : Precision) : TableRow.Statement (.decPos p) := ⟨_, rfl, opWord_masked_p 0x70 p⟩
theorem TableRow.decTrk : TableRow.Statement .decTrk := ⟨_, rfl, by decide⟩
theorem TableRow.decLoc : TableRow.Statement .decLoc := ⟨_, rfl, by decide⟩
theorem TableRow.decTime : TableRow.Statement .decTime := ⟨_, rfl, by decide⟩
theorem TableRow.decEcho : TableRow.Statement .decEcho := ⟨_, rfl, by decide⟩
theorem TableRow.decAlign : TableRow.Statement .decAlign := ⟨_, rfl, by decide⟩
theorem TableRow.decGoto : TableRow.Statement .decGoto := ⟨_, rfl, by decide⟩
theorem TableRow.wireGetPositionRaDec : TableRow.Statement .wireGetPositionRaDec := rfl
theorem TableRow.wireGetPositionRaDecPrecise : TableRow.Statement .wireGetPositionRaDecPrecise := rfl
theorem TableRow.wireGetPositionAzmAlt : TableRow.Statement .wireGetPositionAzmAlt := rfl
theorem TableRow.wireGetPositionAzmAltPrecise : TableRow.Statement .wireGetPositionAzmAltPrecise := rfl
theorem TableRow.wireGotoPositionRaDec : TableRow.Statement .wireGotoPositionRaDec := rfl
theorem TableRow.wireGotoPositionRaDecPrecise : TableRow.Statement .wireGotoPositionRaDecPrecise := rfl
theorem TableRow.wireGotoPositionAzmAlt : TableRow.Statement .wireGotoPositionAzmAlt := rfl
theorem TableRow.wireGotoPositionAzmAltPrecise : TableRow.Statement .wireGotoPositionAzmAltPrecise := rfl
theorem TableRow.wireSync : TableRow.Statement .wireSync := rfl
theorem TableRow.wireSyncPrecise : TableRow.Statement .wireSyncPrecise := rfl
theorem TableRow.wireGetTrackingMode : TableRow.Statement .wireGetTrackingMode := rfl
theorem TableRow.wireSetTrackingMode : TableRow.Statement .wireSetTrackingMode := rfl
theorem TableRow.wireGetLocation : TableRow.Statement .wireGetLocation := rfl
theorem TableRow.wireSetLocation : TableRow.Statement .wireSetLocation := rfl
theorem TableRow.wireGetTime : TableRow.Statement .wireGetTime := rfl
theorem TableRow.wireSetTime : TableRow.Statement .wireSetTime := rfl
theorem TableRow.wireGetVersion : TableRow.Statement .wireGetVersion := rfl
theorem TableRow.wireGetModel : TableRow.Statement .wireGetModel := rfl
theorem TableRow.wireEcho : TableRow.Statement .wireEcho := rfl
theorem TableRow.wireGetAlignmentComplete : TableRow.Statement .wireGetAlignmentComplete := rfl
theorem TableRow.wireGetGotoInProgress : TableRow.Statement .wireGetGotoInProgress := rfl
theorem TableRow.wireCancelGoto : TableRow.Statement .wireCancelGoto := rfl
theorem TableRow.wirePassthrough : TableRow.Statement .wirePassthrough := rfl
theorem TableRow.ptsubSlewVarPos : TableRow.Statement .ptsubSlewVarPos := rfl
theorem TableRow.ptsubSlewVarNeg : TableRow.Statement .ptsubSlewVarNeg := rfl
theorem TableRow.ptsubSlewFixPos : TableRow.Statement .ptsubSlewFixPos := rfl
theorem TableRow.ptsubSlewFixNeg : TableRow.Statement .ptsubSlewFixNeg := rfl
theorem TableRow.ptsubGetDeviceVersion : TableRow.Statement .ptsubGetDeviceVersion := rfl

end Sys2Proof.Laws
end

