-- ==== Sys2Proof/Laws/Quantizer.lean ====
section
/-! SUPPORT. What the quantizer and the dequantizer answer: the rounded code stays within the circle's codes, and a code
has an exact binary64 angle. The unit 2^-1074 is a power of two `2 ^ K` in the proofs, which never evaluate it. -/

namespace Sys2Proof.Machine

/-- A nonnegative value is its magnitude. -/
theorem f64Val_nonneg_eq {x : Word64} (h : 0 ≤ f64Val x) : f64Val x = (magUnits x : ℕ) / unitsPerOne := by
  rw [← abs_of_nonneg h, abs_f64Val]

/-- Rounding to the nearest integer has one answer. -/
theorem IsRne.unique {r : ℚ} {a b : ℤ} (ha : IsRne r a) (hb : IsRne r b) : a = b := by
  by_contra hne
  obtain ⟨h1, h2⟩ := ha.le_dist (k := b)
  obtain ⟨h3, h4⟩ := hb.le_dist (k := a)
  have he : |r - a| = |r - b| := le_antisymm h1 h3
  obtain ⟨u, hu⟩ := h2 he.symm (Ne.symm hne)
  obtain ⟨v, hv⟩ := h4 he hne
  have t : |(a : ℚ) - b| ≤ |r - a| + |r - b| := by
    have : (a : ℚ) - b = (r - b) - (r - a) := by ring
    rw [this, add_comm]
    exact abs_sub _ _
  have h5 : |(a : ℚ) - b| ≤ 1 := by linarith [ha.1, hb.1]
  have h6 : |a - b| ≤ 1 := by exact_mod_cast h5
  have := abs_le.mp h6
  omega

/-! ### Rounding keeps bounds -/

theorem rne_le_of_lt {num den k : ℕ} (hd : 0 < den) (h : num < k * den) : rne num den ≤ k := by
  have : num / den < k := (Nat.div_lt_iff_lt_mul hd).mpr h
  unfold rne
  split
  · omega
  · split <;> omega

theorem rne_mul (k : ℕ) {den : ℕ} (hd : 0 < den) : rne (k * den) den = k := by
  unfold rne
  rw [Nat.mul_mod_left, Nat.mul_div_cancel _ hd, if_pos (by omega)]

theorem rne_le {num den k : ℕ} (hd : 0 < den) (h : num ≤ k * den) : rne num den ≤ k := by
  rcases Nat.lt_or_eq_of_le h with h | h
  · exact rne_le_of_lt hd h
  · rw [h, rne_mul k hd]

/-- `fl64Units` with `U` units to 1. -/
def fl64At (U num den : ℕ) : ℕ :=
  let sh := Nat.log2 (num * U / den) - 52
  rne (num * U) (den * 2 ^ sh) * 2 ^ sh

theorem fl64Units_eq (num den : ℕ) : fl64Units num den = fl64At unitsPerOne num den := rfl

theorem fl64At_le (K : ℕ) (h52 : 52 ≤ K) {num den : ℕ} (j : ℕ) (hd : 0 < den) (hle : num ≤ 2 ^ j * den) :
    fl64At (2 ^ K) num den ≤ 2 ^ j * 2 ^ K := by
  unfold fl64At
  simp only
  rcases Nat.lt_or_eq_of_le hle with hlt | rfl
  · have hnum : num * 2 ^ K < 2 ^ j * den * 2 ^ K := Nat.mul_lt_mul_of_pos_right hlt (by positivity)
    have hx : num * 2 ^ K / den < 2 ^ (j + K) := by
      rw [Nat.div_lt_iff_lt_mul hd, pow_add]
      calc _ < _ := hnum
        _ = _ := by ring
    generalize hsh : Nat.log2 (num * 2 ^ K / den) - 52 = sh
    have hshle : sh ≤ j + K := by
      rcases Nat.eq_zero_or_pos (num * 2 ^ K / den) with h0 | hpos
      · rw [h0] at hsh
        simp at hsh
        omega
      · have := (Nat.log2_lt (by omega)).mpr hx
        omega
    have : rne (num * 2 ^ K) (den * 2 ^ sh) ≤ 2 ^ (j + K - sh) := by
      apply rne_le_of_lt (by positivity)
      calc _ < _ := hnum
        _ = 2 ^ (j + K) * den := by rw [pow_add]; ring
        _ = 2 ^ (j + K - sh) * 2 ^ sh * den := by rw [← pow_add, Nat.sub_add_cancel hshle]
        _ = _ := by ring
    calc _ ≤ 2 ^ (j + K - sh) * 2 ^ sh := Nat.mul_le_mul_right _ this
      _ = 2 ^ (j + K) := by rw [← pow_add, Nat.sub_add_cancel hshle]
      _ = _ := by rw [pow_add]
  · rw [show 2 ^ j * den * 2 ^ K = 2 ^ (j + K) * den by rw [pow_add]; ring, Nat.mul_div_cancel _ hd, Nat.log2_two_pow]
    have : rne (2 ^ (j + K) * den) (den * 2 ^ (j + K - 52)) ≤ 2 ^ 52 := by
      apply rne_le (by positivity)
      apply le_of_eq
      calc _ = 2 ^ 52 * 2 ^ (j + K - 52) * den := by rw [← pow_add]; congr 2; omega
        _ = _ := by ring
    calc _ ≤ 2 ^ 52 * 2 ^ (j + K - 52) := Nat.mul_le_mul_right _ this
      _ = 2 ^ (j + K) := by rw [← pow_add]; congr 1; omega
      _ = _ := by rw [pow_add]

/-- Rounding to binary64 does not pass a power of two. -/
theorem fl64Units_le {num den : ℕ} (j : ℕ) (hd : 0 < den) (hle : num ≤ 2 ^ j * den) :
    fl64Units num den ≤ 2 ^ j * unitsPerOne := by
  obtain ⟨K, hK, hKv⟩ := unitsPerOne_eq
  rw [fl64Units_eq, hK]
  exact fl64At_le K (by omega) j hd hle

theorem fl64Units_le_one {num den : ℕ} (hd : 0 < den) (h : num ≤ den) : fl64Units num den ≤ unitsPerOne := by
  have := fl64Units_le (num := num) (den := den) 0 hd (by simpa using h)
  simpa using this

theorem scale_le {v U : ℕ} (n : ℕ) (h : v ≤ U) : v * 2 ^ n ≤ 2 ^ n * U := by
  rw [mul_comm]
  exact Nat.mul_le_mul_left _ h

/-! ### The quantizer -/

/-- The rounded code of an angle below a full circle is at most 2^n, whichever the evaluation mode. -/
theorem roundAngle_le (ar : Arith) {n u : ℕ} (h : u < 360 * unitsPerOne) : roundAngle ar n u ≤ 2 ^ n := by
  have h360 : 0 < 360 * unitsPerOne := Nat.mul_pos (by norm_num) unitsPerOne_pos
  cases ar with
  | exact =>
    unfold roundAngle
    refine rne_le_of_lt h360 ?_
    rw [mul_comm]
    exact Nat.mul_lt_mul_of_pos_left h (Nat.pow_pos Nat.two_pos)
  | binary64 =>
    unfold roundAngle
    exact rne_le unitsPerOne_pos (fl64Units_le n unitsPerOne_pos (scale_le n (fl64Units_le_one h360 h.le)))

theorem codeBits_le (p : Precision) : codeBits p ≤ 32 := by cases p <;> decide

/-- What the quantizer answers (`40_transform.md` R130). -/
theorem quantize_spec (ar : Arith) (p : Precision) {x : Word64} (h : InCircle x) :
    Quantizes ar (codeBits p) (f64Val x) (quantize ar (codeBits p) x) := by
  have hu : magUnits x < 360 * unitsPerOne := by
    have := (inCircle_iff x).mpr h
    simp only [inCircle, Bool.and_eq_true, decide_eq_true_eq] at this
    exact this.2
  have hb := roundAngle_le ar (n := codeBits p) hu
  have hs := roundAngle_spec ar (codeBits p) (magUnits x)
  rw [← f64Val_nonneg_eq h.2.1] at hs
  have hp : 0 < 2 ^ codeBits p := Nat.pow_pos Nat.two_pos
  unfold quantize Quantizes
  split
  · rename_i he
    rw [he] at hs
    exact ⟨by omega, .inr ⟨rfl, by exact_mod_cast hs⟩⟩
  · exact ⟨by omega, .inl hs⟩

/-! ### The dequantizer -/

theorem fl64At_code (K : ℕ) {n c : ℕ} (hn : n ≤ 32) (hK : 100 ≤ K) (hc : c < 2 ^ n) :
    fl64At (2 ^ K) (360 * c) (2 ^ n) * 2 ^ n = 360 * c * 2 ^ K := by
  have hn2 : (2 : ℕ) ^ n ≤ 2 ^ 32 := Nat.pow_le_pow_right (by norm_num) hn
  have hU : (2 : ℕ) ^ K = 2 ^ (K - n) * 2 ^ n := by rw [← pow_add]; congr 1; omega
  unfold fl64At
  simp only
  rw [show 360 * c * 2 ^ K / 2 ^ n = 360 * c * 2 ^ (K - n) by
    rw [hU, ← mul_assoc, Nat.mul_div_cancel _ (by positivity)]]
  generalize hsh : Nat.log2 (360 * c * 2 ^ (K - n)) - 52 = sh
  have hle : sh ≤ K - n := by
    rcases Nat.eq_zero_or_pos c with rfl | hpos
    · simp at hsh
      omega
    · have h1 : 360 * c < 2 ^ 41 := by omega
      have h2 : 360 * c * 2 ^ (K - n) < 2 ^ (41 + (K - n)) := by
        rw [pow_add]
        exact Nat.mul_lt_mul_of_pos_right h1 (by positivity)
      have := (Nat.log2_lt (by positivity)).mpr h2
      omega
  have e : 360 * c * 2 ^ K = 360 * c * 2 ^ (K - n - sh) * (2 ^ n * 2 ^ sh) := by
    have : (2 : ℕ) ^ (K - n) = 2 ^ (K - n - sh) * 2 ^ sh := by rw [← pow_add, Nat.sub_add_cancel hle]
    rw [hU, this]
    ring
  rw [e, rne_mul _ (by positivity)]
  ring

/-- A code's angle is a binary64 value, without rounding (`40_transform.md` R132). -/
theorem fl64Units_code {n c : ℕ} (hn : n ≤ 32) (hc : c < 2 ^ n) :
    fl64Units (360 * c) (2 ^ n) * 2 ^ n = 360 * c * unitsPerOne := by
  obtain ⟨K, hK, hKv⟩ := unitsPerOne_eq
  rw [fl64Units_eq, hK]
  exact fl64At_code K hn (by omega) hc

/-- What the dequantizer answers (`40_transform.md` R132). -/
theorem dequantize_spec {n c : ℕ} (hn : n ≤ 32) (hc : c < 2 ^ n) :
    IsF64 (dequantize n c) (360 * (c : ℚ) / 2 ^ n) := by
  have hn2 : (2 : ℕ) ^ n ≤ 2 ^ 32 := Nat.pow_le_pow_right (by norm_num) hn
  obtain ⟨K, hK, hKv⟩ := unitsPerOne_eq
  have hexact := fl64Units_code hn hc
  have hbound : fl64Units (360 * c) (2 ^ n) < 2 ^ 2000 := by
    have h1 : fl64Units (360 * c) (2 ^ n) * 2 ^ n < 2 ^ 2000 * 2 ^ n := by
      rw [hexact]
      have h2 : 360 * c < 2 ^ 41 := by omega
      calc 360 * c * unitsPerOne < 2 ^ 41 * unitsPerOne := Nat.mul_lt_mul_of_pos_right h2 unitsPerOne_pos
        _ = 2 ^ (41 + K) := by rw [hK, ← pow_add]
        _ ≤ 2 ^ 2000 * 2 ^ n := by rw [← pow_add]; exact Nat.pow_le_pow_right (by norm_num) (by omega)
    exact lt_of_mul_lt_mul_right h1 (Nat.zero_le _)
  obtain ⟨h1, h2, h3⟩ := patternOf_spec false _ hbound (fl64Units_dvd _ _)
  refine ⟨h1, ?_, ?_⟩
  · rw [signBit_eq] at h2
    exact not_le.mp (of_decide_eq_false h2)
  · rw [f64Val_eq]
    change (if signBit (patternOf false _) then -1 else 1) * ((magUnits (patternOf false _) : ℕ) / unitsPerOne : ℚ) = _
    rw [h2, h3, if_neg Bool.false_ne_true, one_mul]
    have hq : ((fl64Units (360 * c) (2 ^ n) : ℕ) : ℚ) * 2 ^ n = 360 * c * unitsPerOne := by exact_mod_cast hexact
    rw [div_eq_div_iff unitsPerOne_ne_zero (by positivity), hq]

/-- The code of an angle fits its hex digits (`41_command_builder.md` R167). -/
theorem quantize_lt_hex (ar : Arith) (p : Precision) {x : Word64} (h : InCircle x) :
    quantize ar (codeBits p) x < 16 ^ hexDigits p := by
  have := (quantize_spec ar p h).1
  cases p <;> simpa [codeBits, hexDigits] using this

end Sys2Proof.Machine
end

