-- ==== Sys2Proof/WellFormed.lean ====
section
/-! DEFINITION. Well-formed instructions: the immediates lie in the ranges that the IMM8 column of `30_encoding.md` R92
names. Every term of `Instr` has an encoding, well formed or not (R91: immediates are used unchanged); an ill-formed
one decodes and then ends with a USAGE error before any write (`60_exceptions.md` R281). -/

namespace Sys2Proof

/-- FB_UINT's IMM8: width 1..8 (`30_encoding.md` R92, `41_command_builder.md` R163). -/
def Instr.widthOk (w : Byte) : Bool := decide (1 ≤ w.toNat ∧ w.toNat ≤ 8)

/-- FB_HEX's IMM8: digits 1..16 (`30_encoding.md` R92, `41_command_builder.md` R164). -/
def Instr.hexDigitsOk (d : Byte) : Bool := decide (1 ≤ d.toNat ∧ d.toNat ≤ 16)

/-- FB_DEC's IMM8: digits 0..20 (`30_encoding.md` R92, `41_command_builder.md` R165). -/
def Instr.decDigitsOk (d : Byte) : Bool := decide (d.toNat ≤ 20)

/-- CB_SETTRK's IMM8: mode 0..3 (`30_encoding.md` R92, `41_command_builder.md` R172). -/
def Instr.modeOk (v : Byte) : Bool := decide (v.toNat ≤ 3)

/-- CB_SETTIME's IMM8: DST flag 0 or 1 (`30_encoding.md` R92, `41_command_builder.md` R176). -/
def Instr.flagOk (v : Byte) : Bool := decide (v.toNat ≤ 1)

/-- The immediates of an instruction lie in the ranges of `30_encoding.md` R92. -/
def Instr.wellFormed : Instr → Bool
  | .fbUint w => Instr.widthOk w
  | .fbHex d => Instr.hexDigitsOk d
  | .fbDec d => Instr.decDigitsOk d
  | .cbSettrk v => Instr.modeOk v
  | .cbSettime v => Instr.flagOk v
  | .qnt _ => true
  | .dqnt _ => true
  | .dmsenc => true
  | .dmsdec => true
  | .deg2sec => true
  | .sec2deg => true
  | .fbClear => true
  | .fbByte _ => true
  | .cbGetpos _ _ => true
  | .cbGoto _ _ => true
  | .cbSync _ => true
  | .cbGettrk => true
  | .cbGetloc => true
  | .cbSetloc => true
  | .cbGettime => true
  | .cbGetver => true
  | .cbGetmodel => true
  | .cbEcho _ => true
  | .cbGetalign => true
  | .cbGetgoto => true
  | .cbCancel => true
  | .ptBuild _ _ => true
  | .ptSlewfix _ => true
  | .ptSlewvar _ => true
  | .ptGetdevver _ => true
  | .send => true
  | .recv => true
  | .ptRecv => true
  | .decPos _ => true
  | .decTrk => true
  | .decLoc => true
  | .decTime => true
  | .decEcho => true
  | .decAlign => true
  | .decGoto => true
  | .wireGetPositionRaDec => true
  | .wireGetPositionRaDecPrecise => true
  | .wireGetPositionAzmAlt => true
  | .wireGetPositionAzmAltPrecise => true
  | .wireGotoPositionRaDec => true
  | .wireGotoPositionRaDecPrecise => true
  | .wireGotoPositionAzmAlt => true
  | .wireGotoPositionAzmAltPrecise => true
  | .wireSync => true
  | .wireSyncPrecise => true
  | .wireGetTrackingMode => true
  | .wireSetTrackingMode => true
  | .wireGetLocation => true
  | .wireSetLocation => true
  | .wireGetTime => true
  | .wireSetTime => true
  | .wireGetVersion => true
  | .wireGetModel => true
  | .wireEcho => true
  | .wireGetAlignmentComplete => true
  | .wireGetGotoInProgress => true
  | .wireCancelGoto => true
  | .wirePassthrough => true
  | .ptsubSlewVarPos => true
  | .ptsubSlewVarNeg => true
  | .ptsubSlewFixPos => true
  | .ptsubSlewFixNeg => true
  | .ptsubGetDeviceVersion => true

end Sys2Proof
end

