-- ==== Sys2Proof/Tests/Slice0.lean ====
section
/-! SUPPORT. Tests: ill-formed instructions are refused; words written out from the encoding tables decode to their
instructions; one step per case of the vectors of `95_test_vectors.md`, whose sections the comments name; and for every statement with hypotheses a
state that meets them. -/

namespace Sys2Proof.Tests

-- One theorem after another: each needs little memory, all at once need a thread each.
set_option Elab.async false

open Sys2Proof Sys2Proof.Machine

/-! ### Helpers -/

/-- The next state of an outcome. -/
def nextOf : Host.Outcome State Fault Refusal → Option State
  | .next t => some t
  | .fault _ => none
  | .refused _ => none

/-- The state that an instruction leaves, or the same state where it stops. -/
def after (i : Instr) (s : State) : State := (nextOf (exec i s)).getD s

theorem exec_after {i : Instr} {s : State} (h : (nextOf (exec i s)).isSome = true) : exec i s = .next (after i s) := by
  unfold after
  cases he : exec i s <;> simp_all [nextOf]

/-- The state after the step that fetches the given bits. -/
def fetched (nbits w : Nat) (s : State) : Option State := nextOf (step (s.withFetchWord nbits w))

/-- Reset, with operands. -/
def operands (a b : Word64) : State := { State.reset with opa := a, opb := b }

/-- The operation word `w`, run on operands. -/
def ran (w : Nat) (a b : Word64) : Option State := fetched 32 w (operands a b)

/-- The frame and EXPLEN that a state holds. -/
def built (t : State) : List Byte × Byte := (txFrame t t.txlen.toNat, t.explen)

/-- A state that a successful RECV of this payload leaves. -/
def framed (payload : List Byte) : State :=
  { State.reset with
    rxvalid := true, rxlen := BitVec.ofNat 8 payload.length, mem := Memory.writeList [] 0x200 (payload ++ [0x23]) }

/-- A state whose next move is `e`. -/
def due (e : Event) (s : State) : State := { s with events := [e] }

/-- Two bytes of an echo request are being sent. -/
def sending : State :=
  startLink (.send 0)
    { State.reset with mem := [(0x100, 0x4B), (0x101, 0x41)], txlen := 2, explen := 1, echoref := 0x41 }

/-- A reply of N = 1 is being read, and has its last byte waiting. -/
def reading : State :=
  { startLink (.recv 1 1000) { State.reset with explen := 1, rx := [0x23] } with mem := [(0x200, 0x41)] }

/-- Phase 1 of a passthrough read of N = 0, whose one byte is waiting. -/
def ptReading : State := startLink (.ptRecv 0 1000) { State.reset with rx := [0x78] }

/-- A recovery read after a timeout of phase 1. -/
def recovering : State :=
  { startLink (.ptRecovery .short 1000) { State.reset with rx := [0x23], explen := 2 } with
    xfer := { expLen := 3, actLen := 0 } }

/-- An attempt for N = 1, with the bytes that wait and the moves to come. -/
def attempt (act : Activity) (rx : List Byte) (events : List Event) : State :=
  { startLink act { State.reset with explen := 1, rx := rx } with events := events }

/-! ### WellFormed refuses an ill-formed term of each check -/

theorem test_wf_width : Instr.wellFormed (.fbUint 0) = false ∧ Instr.wellFormed (.fbUint 9) = false ∧
    Instr.wellFormed (.fbUint 8) = true := by decide

theorem test_wf_hex_digits : Instr.wellFormed (.fbHex 0) = false ∧ Instr.wellFormed (.fbHex 17) = false ∧
    Instr.wellFormed (.fbHex 16) = true := by decide

theorem test_wf_dec_digits : Instr.wellFormed (.fbDec 21) = false ∧ Instr.wellFormed (.fbDec 0) = true := by decide

theorem test_wf_mode : Instr.wellFormed (.cbSettrk 4) = false ∧ Instr.wellFormed (.cbSettrk 3) = true := by decide

theorem test_wf_flag : Instr.wellFormed (.cbSettime 2) = false ∧ Instr.wellFormed (.cbSettime 1) = true := by decide

/-! ### Every constructor's decoding, from a word written out from `30_encoding.md` R90, R92, R100, R105 -/

/-- FUNC 0x10..0x23; P is bit 8. -/
theorem test_decode_transform :
    decodeTableWord 32 0x00000010 = some (.qnt .standard) ∧
    decodeTableWord 32 0x00000110 = some (.qnt .high) ∧
    decodeTableWord 32 0x00000011 = some (.dqnt .standard) ∧
    decodeTableWord 32 0x00000111 = some (.dqnt .high) ∧
    decodeTableWord 32 0x00000020 = some .dmsenc ∧
    decodeTableWord 32 0x00000021 = some .dmsdec ∧
    decodeTableWord 32 0x00000022 = some .deg2sec ∧
    decodeTableWord 32 0x00000023 = some .sec2deg := by decide

/-- FUNC 0x30..0x34; IMM8 is bits 23:16. -/
theorem test_decode_frame_builder :
    decodeTableWord 32 0x00000030 = some .fbClear ∧
    decodeTableWord 32 0x004B0031 = some (.fbByte 0x4B) ∧
    decodeTableWord 32 0x00020032 = some (.fbUint 2) ∧
    decodeTableWord 32 0x00100033 = some (.fbHex 16) ∧
    decodeTableWord 32 0x00140034 = some (.fbDec 20) := by decide

/-- FUNC 0x40..0x4E; P is bit 8, M is bit 9, IMM8 is bits 23:16. -/
theorem test_decode_command_builder :
    decodeTableWord 32 0x00000040 = some (.cbGetpos .standard .raDec) ∧
    decodeTableWord 32 0x00000340 = some (.cbGetpos .high .azmAlt) ∧
    decodeTableWord 32 0x00000141 = some (.cbGoto .high .raDec) ∧
    decodeTableWord 32 0x00000241 = some (.cbGoto .standard .azmAlt) ∧
    decodeTableWord 32 0x00000142 = some (.cbSync .high) ∧
    decodeTableWord 32 0x00000043 = some .cbGettrk ∧
    decodeTableWord 32 0x00030044 = some (.cbSettrk 3) ∧
    decodeTableWord 32 0x00000045 = some .cbGetloc ∧
    decodeTableWord 32 0x00000046 = some .cbSetloc ∧
    decodeTableWord 32 0x00000047 = some .cbGettime ∧
    decodeTableWord 32 0x00010048 = some (.cbSettime 1) ∧
    decodeTableWord 32 0x00000049 = some .cbGetver ∧
    decodeTableWord 32 0x0000004A = some .cbGetmodel ∧
    decodeTableWord 32 0x0041004B = some (.cbEcho 0x41) ∧
    decodeTableWord 32 0x0000004C = some .cbGetalign ∧
    decodeTableWord 32 0x0000004D = some .cbGetgoto ∧
    decodeTableWord 32 0x0000004E = some .cbCancel := by decide

/-- FUNC 0x50..0x53; IMM8 is bits 23:16, IMM8B is bits 31:24. -/
theorem test_decode_passthrough :
    decodeTableWord 32 0x02B00050 = some (.ptBuild 0xB0 0x02) ∧
    decodeTableWord 32 0x00110051 = some (.ptSlewfix 0x11) ∧
    decodeTableWord 32 0x00100052 = some (.ptSlewvar 0x10) ∧
    decodeTableWord 32 0x00B20053 = some (.ptGetdevver 0xB2) := by decide

/-- FUNC 0x60..0x62 and 0x70..0x76; P is bit 8. -/
theorem test_decode_link_and_decoders :
    decodeTableWord 32 0x00000060 = some .send ∧
    decodeTableWord 32 0x00000061 = some .recv ∧
    decodeTableWord 32 0x00000062 = some .ptRecv ∧
    decodeTableWord 32 0x00000070 = some (.decPos .standard) ∧
    decodeTableWord 32 0x00000170 = some (.decPos .high) ∧
    decodeTableWord 32 0x00000071 = some .decTrk ∧
    decodeTableWord 32 0x00000072 = some .decLoc ∧
    decodeTableWord 32 0x00000073 = some .decTime ∧
    decodeTableWord 32 0x00000074 = some .decEcho ∧
    decodeTableWord 32 0x00000075 = some .decAlign ∧
    decodeTableWord 32 0x00000076 = some .decGoto := by decide

/-- The ASCII codes of the letters of R100. -/
theorem test_decode_wire :
    decodeTableWord 8 69 = some .wireGetPositionRaDec ∧
    decodeTableWord 8 101 = some .wireGetPositionRaDecPrecise ∧
    decodeTableWord 8 90 = some .wireGetPositionAzmAlt ∧
    decodeTableWord 8 122 = some .wireGetPositionAzmAltPrecise ∧
    decodeTableWord 8 82 = some .wireGotoPositionRaDec ∧
    decodeTableWord 8 114 = some .wireGotoPositionRaDecPrecise ∧
    decodeTableWord 8 66 = some .wireGotoPositionAzmAlt ∧
    decodeTableWord 8 98 = some .wireGotoPositionAzmAltPrecise ∧
    decodeTableWord 8 83 = some .wireSync ∧
    decodeTableWord 8 115 = some .wireSyncPrecise ∧
    decodeTableWord 8 116 = some .wireGetTrackingMode ∧
    decodeTableWord 8 84 = some .wireSetTrackingMode ∧
    decodeTableWord 8 119 = some .wireGetLocation ∧
    decodeTableWord 8 87 = some .wireSetLocation ∧
    decodeTableWord 8 104 = some .wireGetTime ∧
    decodeTableWord 8 72 = some .wireSetTime ∧
    decodeTableWord 8 86 = some .wireGetVersion ∧
    decodeTableWord 8 109 = some .wireGetModel ∧
    decodeTableWord 8 75 = some .wireEcho ∧
    decodeTableWord 8 74 = some .wireGetAlignmentComplete ∧
    decodeTableWord 8 76 = some .wireGetGotoInProgress ∧
    decodeTableWord 8 77 = some .wireCancelGoto ∧
    decodeTableWord 8 80 = some .wirePassthrough := by decide

/-- The codes of R105, in decimal as `43_passthrough.md` R253 to R255 give them. -/
theorem test_decode_sub :
    decodeTableWord 8 6 = some .ptsubSlewVarPos ∧
    decodeTableWord 8 7 = some .ptsubSlewVarNeg ∧
    decodeTableWord 8 36 = some .ptsubSlewFixPos ∧
    decodeTableWord 8 37 = some .ptsubSlewFixNeg ∧
    decodeTableWord 8 254 = some .ptsubGetDeviceVersion := by decide

/-- Vectors E1. -/
theorem test_decode_illegal :
    decode 0x00 = .illegal .rsvdFunc ∧
    decode 0x0F = .illegal .rsvdFunc ∧
    decode 0x3F = .illegal .rsvdFunc ∧
    decode 0x4F = .illegal .rsvdFunc ∧
    decode 0x63 = .illegal .rsvdFunc ∧
    decode 0xFF = .illegal .rsvdFunc ∧
    decode 0x412 = .illegal .rsvdFunc ∧
    decode 0x410 = .illegal .rsvdBits ∧
    decode 0x8060 = .illegal .rsvdBits ∧
    decode 0xFC30 = .illegal .rsvdBits ∧
    decode 0x610 = .illegal .rsvdBits ∧
    decode 0x210 = .illegal .unusedField ∧
    decode 0x120 = .illegal .unusedField ∧
    decode 0x10060 = .illegal .unusedField ∧
    decode 0x1000031 = .illegal .unusedField ∧
    decode 0x242 = .illegal .unusedField ∧
    decode 0x171 = .illegal .unusedField ∧
    decode 0x1000053 = .illegal .unusedField := by decide

/-! ### One step per vector -/

/-- Vectors S6 and 40_transform.md R130: 123.456 degrees; the top half-step saturates. -/
theorem test_qnt_rounds :
    (ran 0x10 0x405EDD2F1A9FBE77 0).map (·.res0) = some 0x57CA ∧
    (ran 0x10 0x40767FFF97247454 0).map (·.res0) = some 0xFFFF := by decide +kernel

/-- Vectors T1: 360.0, a value below 0, a NaN, an infinity. -/
theorem test_qnt_range :
    (ran 0x10 0x4076800000000000 0).map (fun t => (t.error, t.done)) = some (some (.usage .angleRange), true) ∧
    (ran 0x10 0x81A56E1FC2F8F359 0).map (fun t => (t.error, t.done)) = some (some (.usage .angleRange), true) ∧
    (ran 0x10 0x7FF8000000000000 0).map (fun t => (t.error, t.done)) = some (some (.usage .angleRange), true) ∧
    (ran 0x110 0x7FF0000000000000 0).map (fun t => (t.error, t.done)) = some (some (.usage .angleRange), true) := by decide +kernel

/-- Vectors T2. -/
theorem test_dqnt :
    (ran 0x11 0xB6 0).map (·.res0) = some 0x3FEFFE0000000000 ∧
    (ran 0x11 0x57CA 0).map (·.res0) = some 0x405EDD0400000000 := by decide +kernel

/-- Vectors T2. -/
theorem test_dqnt_range :
    (ran 0x11 0x10000 0).map (fun t => (t.error, t.done)) = some (some (.usage .codeRange), true) ∧
    (ran 0x111 0x100000000 0).map (fun t => (t.error, t.done)) = some (some (.usage .codeRange), true) := by decide

/-- Vectors T3: -16200 and 921599 seconds. -/
theorem test_dmsenc :
    (ran 0x20 0xFFFFFFFFFFFFC0B8 0).map (·.res0) = some 0x01041E00 ∧
    (ran 0x20 921599 0).map (·.res0) = some 0xFF3B3B := by decide

/-- Vectors T3: 921600 and -2^63 seconds. -/
theorem test_dmsenc_range :
    (ran 0x20 921600 0).map (fun t => (t.error, t.done)) = some (some (.usage .dmsRange), true) ∧
    (ran 0x20 0x8000000000000000 0).map (fun t => (t.error, t.done)) = some (some (.usage .dmsRange), true) := by decide

/-- Vectors T4: a negative word, a word that is not canonical, a word with ignored bits. -/
theorem test_dmsdec :
    (ran 0x21 0x01041E00 0).map (·.res0) = some 0xFFFFFFFFFFFFC0B8 ∧
    (ran 0x21 0x3C3C 0).map (·.res0) = some 3660 ∧
    (ran 0x21 0xFFFFFFFFFE341E00 0).map (·.res0) = some 189000 := by decide

/-- Vectors T5: -4.5 degrees and two ties. -/
theorem test_deg2sec :
    (ran 0x22 0xC012000000000000 0).map (·.res0) = some 0xFFFFFFFFFFFFC0B8 ∧
    (ran 0x22 0x3FA0000000000000 0).map (·.res0) = some 112 ∧
    (ran 0x22 0x3FB8000000000000 0).map (·.res0) = some 338 := by decide +kernel

/-- Vectors T5: 2.6e15 degrees, a NaN. -/
theorem test_deg2sec_range :
    (ran 0x22 0x4322795F58D50000 0).map (fun t => (t.error, t.done)) = some (some (.usage .valueRange), true) ∧
    (ran 0x22 0x7FF8000000000000 0).map (fun t => (t.error, t.done)) = some (some (.usage .valueRange), true) := by decide +kernel

/-- Vectors T6: -1, -16200 and -2^63 seconds. -/
theorem test_sec2deg :
    (ran 0x23 0xFFFFFFFFFFFFFFFF 0).map (·.res0) = some 0xBF323456789ABCDF ∧
    (ran 0x23 0xFFFFFFFFFFFFC0B8 0).map (·.res0) = some 0xC012000000000000 ∧
    (ran 0x23 0x8000000000000000 0).map (·.res0) = some 0xC3223456789ABCDF := by decide +kernel

/-- Vectors B1, each from an empty frame. -/
theorem test_fb_appends :
    (ran 0x004B0031 0 0).map built = some ([0x4B], 0) ∧
    (ran 0x00020032 1440 0).map built = some ([0x05, 0xA0], 0) ∧
    (ran 0x00040033 0xABC 0).map built = some ([0x30, 0x41, 0x42, 0x43], 0) ∧
    (ran 0x00030034 7 0).map built = some ([0x30, 0x30, 0x37], 0) ∧
    (ran 0x00000034 42 0).map built = some ([0x34, 0x32], 0) ∧
    (ran 0x00000034 0 0).map built = some ([0x30], 0) := by decide

/-- Vectors B1. -/
theorem test_fb_errors :
    (ran 0x00020032 65536 0).map (fun t => (t.error, t.done)) = some (some (.usage .valueRange), true) ∧
    (ran 0x00090032 0 0).map (fun t => (t.error, t.done)) = some (some (.usage .badWidth), true) ∧
    (ran 0x00040033 0x10000 0).map (fun t => (t.error, t.done)) = some (some (.usage .valueRange), true) ∧
    (ran 0x00110033 0 0).map (fun t => (t.error, t.done)) = some (some (.usage .badWidth), true) ∧
    (ran 0x00030034 1000 0).map (fun t => (t.error, t.done)) = some (some (.usage .valueRange), true) ∧
    (ran 0x00150034 0 0).map (fun t => (t.error, t.done)) = some (some (.usage .badWidth), true) := by decide

/-- Vectors B1: FB_CLEAR of a frame of 10, FB_BYTE onto a frame of 32. -/
theorem test_fb_clear_and_overflow : 
    (fetched 32 0x30 { State.reset with txlen := 10 }).map (·.txlen) = some 0 ∧
    (fetched 32 0x00010031 { State.reset with txlen := 32 }).map statusWord = some 0x00000612 := by decide

/-- Vectors C1, C3. -/
theorem test_cb_queries :
    (ran 0x40 0 0).map built = some ([0x45], 9) ∧
    (ran 0x340 0 0).map built = some ([0x7A], 17) ∧
    (ran 0x43 0 0).map built = some ([0x74], 1) ∧
    (ran 0x45 0 0).map built = some ([0x77], 8) ∧
    (ran 0x47 0 0).map built = some ([0x68], 8) ∧
    (ran 0x49 0 0).map built = some ([0x56], 2) ∧
    (ran 0x4A 0 0).map built = some ([0x6D], 1) ∧
    (ran 0x4C 0 0).map built = some ([0x4A], 1) ∧
    (ran 0x4D 0 0).map built = some ([0x4C], 1) ∧
    (ran 0x4E 0 0).map built = some ([0x4D], 0) := by decide

/-- Vectors C2. -/
theorem test_cb_coordinates :
    (ran 0x241 0x4066800000000000 0x4056800000000000).map built = some ([0x42, 0x38, 0x30, 0x30, 0x30, 0x2C, 0x34, 0x30, 0x30, 0x30], 0) ∧
    (ran 0x141 0x405EDD2F1A9FBE77 0x3FF0000000000000).map built = some ([0x72, 0x35, 0x37, 0x43, 0x41, 0x37, 0x41, 0x39, 0x42, 0x2C, 0x30, 0x30, 0x42, 0x36, 0x30, 0x42, 0x36, 0x31], 0) ∧
    (ran 0x42 0 0x4070E00000000000).map built = some ([0x53, 0x30, 0x30, 0x30, 0x30, 0x2C, 0x43, 0x30, 0x30, 0x30], 0) := by decide +kernel

/-- Vectors C2, C4, C5, C6: the flag is checked before the offset. -/
theorem test_cb_errors :
    (ran 0x41 0 0xBFF0000000000000).map (fun t => (t.error, t.done)) = some (some (.usage .angleRange), true) ∧
    (ran 0x42 0x7FF8000000000000 0).map (fun t => (t.error, t.done)) = some (some (.usage .angleRange), true) ∧
    (ran 0x00040044 0 0).map (fun t => (t.error, t.done)) = some (some (.usage .badMode), true) ∧
    (ran 0x46 0 0x3C).map (fun t => (t.error, t.done)) = some (some (.usage .badDmsField), true) ∧
    (ran 0x48 0 128).map (fun t => (t.error, t.done)) = some (some (.usage .badOffset), true) ∧
    (ran 0x00020048 0 0xFFFFFFFFFFFFFF7F).map (fun t => (t.error, t.done)) = some (some (.usage .badFlag), true) := by decide +kernel

/-- Vectors C4, C5, C6. -/
theorem test_cb_settings :
    (ran 0x00020044 0 0).map built = some ([0x54, 0x02], 0) ∧
    (ran 0x46 0x341E00 0x01041E00).map built = some ([0x57, 0x34, 0x1E, 0x00, 0x00, 0x04, 0x1E, 0x00, 0x01], 0) ∧
    (ran 0x00010048 0x180B0A001E14 0xFFFFFFFFFFFFFFFB).map built = some ([0x48, 0x14, 0x1E, 0x00, 0x0A, 0x0B, 0x18, 0xFB, 0x01], 0) := by decide

/-- Vectors C4: CB_ECHO 0x23 sets ECHOREF too. -/
theorem test_cb_echo : 
    (ran 0x0023004B 0 0).map (fun t => (built t, t.echoref)) = some (([0x4B, 0x23], 1), 0x23) := by decide

/-- Vectors P1 and S3. -/
theorem test_pt_builders :
    (ran 0x00110050 0xFFFFFFFF44332211 2).map built = some ([0x50, 0x02, 0x11, 0x11, 0x22, 0x00, 0x00, 0x00], 0) ∧
    (ran 0x00110051 0xFFFFFFFFFFFFFFFD 0).map built = some ([0x50, 0x02, 0x11, 0x25, 0x03, 0x00, 0x00, 0x00], 0) ∧
    (ran 0x00100052 0xBFB999999999999A 0).map built = some ([0x50, 0x03, 0x10, 0x07, 0x05, 0xA0, 0x00, 0x00], 0) ∧
    (ran 0x00100052 0x3F80000000000000 0).map built = some ([0x50, 0x03, 0x10, 0x06, 0x00, 0x70, 0x00, 0x00], 0) ∧
    (ran 0x00100052 0xBEB0C6F7A0B5ED8D 0).map built = some ([0x50, 0x03, 0x10, 0x07, 0x00, 0x00, 0x00, 0x00], 0) ∧
    (ran 0x00B00053 0 0).map built = some ([0x50, 0x01, 0xB0, 0xFE, 0x00, 0x00, 0x00, 0x02], 2) := by decide +kernel

/-- Vectors P1: the device is checked before the rate. -/
theorem test_pt_errors :
    (ran 0x00100050 0 5).map (fun t => (t.error, t.done)) = some (some (.usage .badSublen), true) ∧
    (ran 0x00100050 0 0x100000001).map (fun t => (t.error, t.done)) = some (some (.usage .badSublen), true) ∧
    (ran 0x00110051 10 0).map (fun t => (t.error, t.done)) = some (some (.usage .badRate), true) ∧
    (ran 0x00B00051 99 0).map (fun t => (t.error, t.done)) = some (some (.usage .badDevice), true) ∧
    (ran 0x00100052 0x4012344D5E6F8092 0).map (fun t => (t.error, t.done)) = some (some (.usage .badRate), true) ∧
    (ran 0x00B20052 0x3FF0000000000000 0).map (fun t => (t.error, t.done)) = some (some (.usage .badDevice), true) := by decide +kernel

/-- Vectors P1, the ARITH-sensitive one: magnitude 1 under EXACT, 2 under BINARY64. -/
theorem test_pt_slewvar_arith : 
    ((ran 0x00100052 0x3F1B4E81B4E81B4E 0).map fun t => t.txByte 5) = some 1 ∧
    ((fetched 32 0x00100052
      { operands 0x3F1B4E81B4E81B4E 0 with params := { Params.recommended with arith := .binary64 } }).map
        fun t => t.txByte 5) = some 2 := by decide +kernel

/-- Vectors L1: an empty frame; a frame of two bytes. -/
theorem test_send_starts : 
    (ran 0x60 0 0).map statusWord = some 0x00000712 ∧
    (fetched 32 0x60 { State.reset with txlen := 2, rxvalid := true, rxlen := 1 }).map
      (fun t => (statusWord t, t.rxlen, t.sink.stream)) = some (1, 0, []) := by decide

/-- Vectors L1: the second byte of two; SEND completes. -/
theorem test_send_last_byte : 
    (nextOf (step { sending with inflight := some { latch := sending.latched, activity := .send 1 } })).map
      (fun t => (statusWord t, t.sink.stream)) = some (2, [0x41]) := by decide

/-- Vectors L2: the last byte of "A#", and of "AB" with a byte left over. -/
theorem test_recv_last_byte : 
    (nextOf (step reading)).map (fun t => (statusWord t, t.rxlen, xferWord t.xfer, xbyteWord t.xbyte)) =
      some (0x0000000A, 1, 0x00020002, 0x00000023) ∧
    (nextOf (step { reading with rx := [0x42, 0x23] })).map (fun t => (statusWord t, xbyteWord t.xbyte, t.rx)) =
      some (0x00000222, 0x00000042, [0x23]) := by decide

/-- Vectors L2: N = 0 with no byte; `42_response_framer.md` R214: the same while a byte waits. -/
theorem test_recv_timeout : 
    (nextOf (step (due .timeout (after .recv State.reset)))).map (fun t => (statusWord t, xferWord t.xfer)) =
      some (0x00000122, 0x00000001) ∧
    (nextOf (step (due .timeout { after .recv State.reset with rx := [0x23] }))).map (fun t => (statusWord t, t.rx)) =
      some (0x00000122, [0x23]) := by decide

/-- Vectors L3: N = 0 and "x": BAD_TERM starts the recovery read; "#" is a frame. -/
theorem test_pt_recv_phase1 : 
    (nextOf (step ptReading)).map (fun t => (t.inflight.map (·.activity), xferWord t.xfer)) =
      some (some (.ptRecovery .badTerm 1000), 0x00010001) ∧
    (nextOf (step { ptReading with rx := [0x23] })).map statusWord = some 0x0000000A := by decide

/-- Vectors L3: after a timeout, "#" is NO_ANSWER; a second timeout is SHORT with RECOV. -/
theorem test_pt_recv_recovery : 
    (nextOf (step recovering)).map (fun t => (statusWord t, xferWord t.xfer, xbyteWord t.xbyte)) =
      some (0x00000132, 0x00000003, 0x00012300) ∧
    (nextOf (step (due .timeout recovering))).map statusWord = some 0x00010122 := by decide

/-- Vectors D1: lowercase digits; a missing comma. -/
theorem test_dec_pos : 
    (fetched 32 0x70 (framed [0x66, 0x66, 0x66, 0x66, 0x2C, 0x30, 0x30, 0x30, 0x31])).map (fun t => (t.res0, t.res1, t.res2, t.res3)) =
      some (0x40767FE980000000, 0x3F76800000000000, 0xFFFF, 1) ∧
    (fetched 32 0x70 (framed [0x38, 0x30, 0x30, 0x30, 0x3B, 0x34, 0x30, 0x30, 0x30])).map statusWord = some 0x0000042A := by decide +kernel

/-- Vectors S1 and D1: a length that does not match P. -/
theorem test_dec_pos_high : 
    (fetched 32 0x170 (framed [0x38, 0x30, 0x30, 0x30, 0x30, 0x30, 0x30, 0x30, 0x2C, 0x34, 0x30, 0x30, 0x30, 0x30, 0x30, 0x30, 0x30])).map (fun t => (t.res0, t.res1)) =
      some (0x4066800000000000, 0x4056800000000000) ∧
    (fetched 32 0x170 (framed [0x38, 0x30, 0x30, 0x30, 0x2C, 0x34, 0x30, 0x30, 0x30])).map statusWord = some 0x00000D1A := by decide +kernel

/-- Vectors D1. -/
theorem test_dec_trk : 
    (fetched 32 0x71 (framed [3])).map (·.res0) = some 3 ∧
    (fetched 32 0x71 (framed [4])).map statusWord = some 0x0000042A := by decide

/-- Vectors D1. -/
theorem test_dec_loc : 
    (fetched 32 0x72 (framed [0x34, 0x1E, 0x00, 0x00, 0x04, 0x1E, 0x00, 0x01])).map (fun t => (t.res0, t.res1)) =
      some (0x341E00, 0x01041E00) ∧
    (fetched 32 0x72 (framed [0, 0, 0, 2, 0, 0, 0, 0])).map statusWord = some 0x0000042A := by decide

/-- Vectors D1. -/
theorem test_dec_time : 
    (fetched 32 0x73 (framed [0x14, 0x1E, 0x00, 0x0A, 0x0B, 0x18, 0xFB, 0x01])).map (fun t => (t.res0, t.res1, t.res2)) =
      some (0x180B0A001E14, 0xFFFFFFFFFFFFFFFB, 1) ∧
    (fetched 32 0x73 (framed [0, 0, 0, 0, 0, 0, 0, 2])).map statusWord = some 0x0000042A := by decide

/-- Vectors D1: DEC_ECHO, DEC_ALIGN, DEC_GOTO; each refuses what the other takes. -/
theorem test_dec_one_byte : 
    (fetched 32 0x74 { framed [0x41] with echoref := 0x41 }).map (·.res0) = some 0x41 ∧
    (fetched 32 0x74 { framed [0x42] with echoref := 0x41 }).map statusWord = some 0x0000032A ∧
    (fetched 32 0x75 (framed [1])).map (·.res0) = some 1 ∧ (fetched 32 0x75 (framed [0x31])).map statusWord = some 0x0000042A ∧
    (fetched 32 0x76 (framed [0x31])).map (·.res0) = some 1 ∧ (fetched 32 0x76 (framed [1])).map statusWord = some 0x0000042A := by decide

/-- Vectors E1: CB_ECHO 66 while SEND is in flight is dropped. -/
theorem test_collision : 
    (nextOf (step (due (.hostWrite .word 0 0x0042004B) sending))).map (fun t => (t.coll, t.opw, t.echoref)) =
      some (true, 0, 0x41) := by decide

/-- Vectors R1: a half of OPA, TIMEOUT after reset, a TXBUF word of S3, COLL cleared by writing one. -/
theorem test_host_registers : 
    (nextOf (step (due (.hostWrite .word 0x014 0x40668000) State.reset))).map (·.opa) = some 0x4066800000000000 ∧
    (nextOf (step (due (.hostRead .word 0x050) State.reset))).map (·.busData) = some (some 0x3E8) ∧
    (nextOf (step (due (.hostRead .word 0x100)
      { State.reset with mem := [(0x100, 0x50), (0x101, 3), (0x102, 16), (0x103, 7)] }))).map (·.busData) =
        some (some 0x07100350) ∧
    (nextOf (step (due (.hostWrite .word 0x004 0xFFFFFFFF) { State.reset with coll := true, done := true }))).map statusWord =
      some 2 := by decide

/-- `60_exceptions.md` R301, `10_state.md` R34: with no move pending and no byte on its way an attempt times out; an engine move only waits, but ends it where TIMEOUT = 0. -/
theorem test_attempts_end : 
    (nextOf (step (attempt (.recv 1 1000) [] []))).map (fun t => (t.error, t.done, t.xfer.actLen)) =
      some (some (.protocol .short), true, 1) ∧
    (nextOf (step (attempt (.recv 1 1000) [] [.engine]))).map (·.done) = some false ∧
    (nextOf (step (attempt (.recv 1 0) [] [.engine]))).map (fun t => (t.error, t.done)) =
      some (some (.protocol .short), true) := by decide

/-- Vectors R1: reset does not drain the RX stream. -/
theorem test_reset_keeps_the_stream : 
    (nextOf (step (due .reset { reading with rx := [0x41, 0x23] }))).map (fun t => (t.rx, t.mem, t.inflight, t.timeout)) =
      some ([0x41, 0x23], [], none, 1000) := by decide

/-- `30_encoding.md` R101, R102: 'Z', fetched as an 8-bit row, opens a request of one byte with a reply of 9. -/
theorem test_fetch_wire_byte : 
    (fetched 8 0x5A State.reset).map (fun t => (t.sink.stream, t.sink.left, t.sink.reply, t.done)) =
      some ([0x5A], 0, some 9, true) := by decide

/-- `30_encoding.md` R105: 37, fetched as an 8-bit row, is a sub-command with L = 2. -/
theorem test_fetch_sub_code : 
    (fetched 8 37 State.reset).map (fun t => (t.sink.stream, t.sink.sub)) = some ([37], some { code := 37, len := 2 }) := by decide

/-- `30_encoding.md` R108: setTrackingMode(2). -/
theorem test_pseudo_expands : 
    (Pseudo.setTrackingMode 2).expand.flatMap (HostStmt.moves []) =
      [.hostWrite .word 0 0x00020044, .hostWrite .word 0 0x60, .hostRead .word 4, .hostWrite .word 0 0x61, .hostRead .word 4] := by decide

/-! ### The hypotheses of the statements are met -/

theorem witness_EncodeInvertsDecode : decodeCode (.opw 0x03100050) = .op (.ptBuild 0x10 0x03) ∧
    decodeCode (.wire 0x7A) = .op .wireGetPositionAzmAltPrecise ∧ decodeCode (.sub 0xFE) = .op .ptsubGetDeviceVersion := by
  decide

/-- A field that the FUNC does not use is not 0, in the words of DecodeRejectsReservedWords. -/
def unusedSet (w : Word32) : Prop :=
  (w.getLsbD 8 = true ∧ w.extractLsb' 0 8 ∉ funcsWithP) ∨ (w.getLsbD 9 = true ∧ w.extractLsb' 0 8 ∉ funcsWithM) ∨
    (w.extractLsb' 16 8 ≠ 0#8 ∧ w.extractLsb' 0 8 ∉ funcsWithImm8) ∨
    (w.extractLsb' 24 8 ≠ 0#8 ∧ w.extractLsb' 0 8 ∉ funcsWithImm8b)

/-- A FUNC that is not listed; a reserved bit. -/
theorem witness_DecodeRejectsReservedWords : (0x0F : Word32).extractLsb' 0 8 ∉ listedFuncs ∧
    (0x8060 : Word32).extractLsb' 0 8 ∈ listedFuncs ∧ (0x8060 : Word32).extractLsb' 10 6 ≠ 0#6 := by decide

/-- DMSENC with P, CB_SYNC with M, SEND with IMM8, FB_BYTE with IMM8B. -/
theorem witness_DecodeRejectsReservedWords_unused : ∀ w ∈ [(0x120 : Word32), 0x242, 0x10060, 0x1000031],
    w.extractLsb' 0 8 ∈ listedFuncs ∧ w.extractLsb' 10 6 = 0#6 ∧ unusedSet w := by
  simp [listedFuncs, unusedSet, funcsWithP, funcsWithM, funcsWithImm8, funcsWithImm8b]

/-- QNT with no field set; CB_GOTO with P and M; PT_BUILD with IMM8 and IMM8B. -/
theorem witness_DecodeRejectsReservedWords_used : ∀ w ∈ [(0x10 : Word32), 0x341, 0xFFFF0050],
    w.extractLsb' 0 8 ∈ listedFuncs ∧ w.extractLsb' 10 6 = 0#6 ∧ ¬ unusedSet w := by
  simp [listedFuncs, unusedSet, funcsWithP, funcsWithM, funcsWithImm8, funcsWithImm8b]

theorem witness_AcceptedWordRuns : (due (.hostWrite .word 0 0x4A) State.reset).events = [.hostWrite .word 0 0x4A] ∧
    (due (.hostWrite .word 0 0x4A) State.reset).busy = false ∧ decode 0x4A = .op .cbGetmodel := by decide

theorem witness_IllegalWordRaises : (due (.hostWrite .word 0 0x412) State.reset).events = [.hostWrite .word 0 0x412] ∧
    (due (.hostWrite .word 0 0x412) State.reset).busy = false ∧ decode 0x412 = .illegal .rsvdFunc ∧
    decode 0x610 = .illegal .rsvdBits ∧ decode 0x242 = .illegal .unusedField := by decide

theorem witness_CollisionDropsTheWord : (due (.hostWrite .word 0 0x0042004B) sending).events = [.hostWrite .word 0 0x0042004B] ∧
    (due (.hostWrite .word 0 0x0042004B) sending).busy = true := by decide

/-- A byte that opens a request, in the last place of a frame. -/
theorem witness_WireByteRuns : (due .txTake { sending with txlen := 1 }).events = [.txTake] ∧
    ({ sending with txlen := 1 } : State).inflight = some { latch := { a := 0, b := 0, e := 1, t := 1000 }, activity := .send 0 } ∧
    0 < ({ sending with txlen := 1 } : State).txlen.toNat ∧ ({ sending with txlen := 1 } : State).txlen.toNat ≤ 32 ∧
    sending.sink.left = 0 ∧ decodeCode (.wire (sending.txByte 0)) = .op .wireEcho ∧
    (nextOf (exec .wireEcho (moved [] sending))).isSome = true := by decide

/-- Byte 3 of a passthrough frame. -/
theorem witness_WireByteRuns_sub :
    let s : State :=
      { State.reset with
        mem := [(0x100, 0x50), (0x101, 1), (0x102, 16), (0x103, 0xFE)], txlen := 8, events := [.txTake]
        inflight := some { latch := State.reset.latched, activity := .send 3 }
        sink := { stream := [], request := [0x50, 1, 16], left := 5, reply := none, sub := none } }
    s.inflight = some { latch := State.reset.latched, activity := .send 3 } ∧ 3 < s.txlen.toNat ∧ s.txlen.toNat ≤ 32 ∧
    s.sink.inPassthrough 3 = true ∧ decodeCode (.sub (s.txByte 3)) = .op .ptsubGetDeviceVersion ∧
    (nextOf (exec .ptsubGetDeviceVersion (moved [] s))).isSome = true := by decide

/-- The ends of the reserved ranges, a state with each kind of error, and a busy state whose old and new values differ. -/
theorem witness_HostReadsTheRegisterMap : (∀ off ∈ [(0x054 : BitVec 12), 0x0FC, 0x120, 0x1FC, 0x300, 0xFFC],
      off.toNat % 4 = 0 ∧ (0x054 ≤ off.toNat ∧ off.toNat < 0x100 ∨ 0x120 ≤ off.toNat ∧ off.toNat < 0x200 ∨ 0x300 ≤ off.toNat)) ∧
    (∀ e ∈ [none, some (OpError.usage .angleRange), some (.usage .badFlag), some (.protocol .badPayload), some .noAnswer,
      some (.illegal .unusedField)], ({ State.reset with error := e } : State).error = e) ∧
    reading.busy = true ∧ reading.before.mem.read 0x200 = 0 ∧ reading.rxByte 0 = 0x41 := by
  refine ⟨by simp, by decide, by decide, by decide, by decide⟩

/-- Read-only and reserved offsets: XFER, RES0, TXLEN, the ends of the buffers and of the register space. -/
theorem witness_HostWritesTheRegisterMap :
    ∀ off ∈ [(0x008 : BitVec 12), 0x020, 0x040, 0x054, 0x100, 0x11C, 0x200, 0x2FC, 0xFFC], off.toNat % 4 = 0 ∧
      off ∉ [(0x000 : BitVec 12), 0x004, 0x010, 0x014, 0x018, 0x01C, 0x044, 0x050] := by simp

theorem witness_ReadsAreIdempotent : (0x000 : BitVec 12).toNat % 4 = 0 ∧ (0xFFC : BitVec 12).toNat % 4 = 0 := by decide

theorem witness_OtherAccessesAreRefused :
    (AccessSize.byte ≠ .word ∨ (0x100 : BitVec 12).toNat % 4 ≠ 0) ∧ (AccessSize.word ≠ .word ∨ (0xFFF : BitVec 12).toNat % 4 ≠ 0) ∧
    (due (.hostRead .byte 0x100) State.reset).events = [.hostRead .byte 0x100] ∧
    (due (.hostWrite .word 0xFFF 1) State.reset).events = [.hostWrite .word 0xFFF 1] := by decide

theorem witness_HostCannotTouchTheOperationInFlight :
    ∀ e ∈ [Event.hostRead .word 0x200, .hostWrite .word 0 0x30, .hostWrite .word 0x044 9, .rxAppend [0x41]],
      (due e sending).events = [e] ∧ (due e sending).busy = true ∧ (nextOf (step (due e sending))).isSome = true := by decide

theorem witness_ResetClearsEverything : (due .reset sending).events = [.reset] := by decide

theorem witness_SoundAfterReset : (due .reset reading).events = [.reset] ∧ reading ≠ State.reset := by decide

theorem sound_sending : Sound sending where
  memWf := by decide
  memMapped := by decide
  txlenLe := by decide
  frameHeld := by decide
  activity := by
    intro f hf
    cases hf
    change (0 < sending.txlen.toNat) ∧ _
    decide
  busyNotDone := by decide
  errorDone := by decide
  recovCause := by decide
  xferLe := by decide
  recByte := by decide
  beforeMem := by decide

theorem sound_reading : Sound reading where
  memWf := by decide
  memMapped := by decide
  txlenLe := by decide
  frameHeld := by decide
  activity := by
    intro f hf
    cases hf
    refine ⟨by decide, by decide, by decide, by decide, by decide, fun x hx => ?_⟩
    change (if 0x200 = x then 0x41 else Memory.unlisted) = Memory.unlisted
    rw [if_neg (by simp only [rxAddr, Config.rxBase] at hx; omega)]
  busyNotDone := by decide
  errorDone := by decide
  recovCause := by decide
  xferLe := by decide
  recByte := by decide
  beforeMem := by decide

theorem witness_StepKeepsSound : Sound sending ∧ (nextOf (step sending)).isSome = true ∧
    Sound reading ∧ (nextOf (step reading)).isSome = true :=
  ⟨sound_sending, by decide, sound_reading, by decide⟩

theorem witness_SoundRunsNeverStop : Sound reading ∧ ∀ e ∈ reading.events, eventOk e = true :=
  ⟨sound_reading, by decide⟩

theorem witness_OperationsKeepTheirOperands : (nextOf (exec .recv State.reset)).isSome = true ∧
    (∀ b, Instr.recv ≠ .cbEcho b) ∧
    (nextOf (step (due (.hostWrite .word 0 0x0041004B) State.reset))).map (·.echoref) = some 0x41 :=
  ⟨by decide, fun _ h => (by cases h), by decide⟩

theorem witness_ErrorsArePrecise : State.reset.error = none ∧ exec .send State.reset = .next (after .send State.reset) ∧
    (after .send State.reset).error = some (.usage .txEmpty) := ⟨by decide, exec_after (by decide), by decide⟩

/-- RXVALID set by the last byte of a read. -/
theorem witness_RxValidChangesOnlyOnReads : Sound reading ∧ reading.rxvalid = false ∧
    (nextOf (step reading)).map (·.rxvalid) = some true := ⟨sound_reading, by decide, by decide⟩

/-- RXVALID cleared by a SEND. -/
theorem witness_RxValidChangesOnlyOnReads_send :
    let s : State :=
      { State.reset with
        mem := [(0x100, 0x4B), (0x200, 0x23)], txlen := 1, rxvalid := true, events := [.hostWrite .word 0 0x60] }
    s.rxByte s.rxlen.toNat = Config.term ∧ s.rxvalid = true ∧ (nextOf (step s)).map (·.rxvalid) = some false := by decide

/-- A byte taken, with and without an engine move pending: the first and the last byte of RECV and of PT_RECV, and the
recovery byte; and a byte that arrives. -/
theorem witness_RxStreamIsTakenFromTheHead :
    (∀ act ∈ [Activity.recv 0 1, .recv 1 1, .ptRecv 0 1, .ptRecv 1 1, .ptRecovery .short 1], ∀ ev ∈ [[Event.engine], []],
      (attempt act [0x23, 0x24] ev).inflight = some { latch := { a := 0, b := 0, e := 1, t := 1000 }, activity := act } ∧
      (nextOf (step (attempt act [0x23, 0x24] ev))).map (·.rx) = some [0x24]) ∧
    (due (.rxAppend [0x41]) reading).events = [.rxAppend [0x41]] := by decide

theorem witness_TxStreamGrowsInBufferOrder : (nextOf (step sending)).map (·.sink.stream) = some [0x4B] ∧
    sending.sink.stream = [] := by decide

/-- The clauses of SEND: an empty frame, a frame of 1 and a frame of 32 bytes. -/
theorem witness_SendTransmitsTheFrame : State.reset.txlen = 0 ∧
    (∀ n ∈ [(1 : BitVec 6), 32], ({ State.reset with txlen := n } : State).txlen ≠ 0 ∧
      ({ State.reset with txlen := n } : State).events = [] ∧ ({ State.reset with txlen := n } : State).txlen.toNat ≤ 32) := by
  decide

/-- N = 0 and N = 255, with and without the terminator. -/
theorem witness_RecvFramesTheReply :
    (∀ r ∈ [((0 : Byte), [(0x23 : Byte)]), (0, [0x78]), (255, List.replicate 255 0x41 ++ [0x23])],
      r.2.length = r.1.toNat + 1) ∧
    State.reset.events = [] ∧ State.reset.mem.wf = true ∧
    ({ State.reset with rx := [0x23, 0x41] } : State).rx = [0x23] ++ [0x41] ∧
    ([0x23] : List Byte).getLast? = some 0x23 ∧ ([0x78] : List Byte).getLast? = some 0x78 ∧ (0x78 : Byte) ≠ 0x23 := by
  decide +kernel

/-- With no byte waiting: a timer of 0 and of 1, after no byte and after N bytes, with each move. -/
theorem witness_RecvTimesOutShort_attempt : ∀ k ∈ [0, 1], ∀ m ∈ [(0 : Word32), 1], ∀ ev ∈ [[Event.timeout], [.engine], []],
    (attempt (.recv k m) [] ev).inflight = some { latch := { a := 0, b := 0, e := 1, t := 1000 }, activity := .recv k m } ∧
    k ≤ (1 : Byte).toNat ∧ (attempt (.recv k m) [] ev).rx = [] ∧ (attempt (.recv k m) [] ev).events = ev :=
  fun k hk _ _ _ _ => ⟨rfl, (by revert k; decide), rfl, rfl⟩

/-- No byte, and N bytes of N + 1. -/
theorem witness_RecvTimesOutShort :
    State.reset.events = [] ∧ State.reset.mem.wf = true ∧ State.reset.rx = [] ++ [] ∧
    ([] : List Byte).length ≤ State.reset.explen.toNat ∧
    ({ State.reset with explen := 1, rx := [0x41, 0x42] } : State).rx = [0x41] ++ [0x42] ∧
    ([0x41] : List Byte).length ≤ ({ State.reset with explen := 1, rx := [0x41, 0x42] } : State).explen.toNat := by decide

/-- With no byte waiting: phase 1 after no byte and after N bytes, and the recovery read after either failure. -/
theorem witness_PtRecvHasThreeOutcomes_attempt : ∀ m ∈ [(0 : Word32), 1], ∀ ev ∈ [[Event.timeout], [.engine], []],
    ∀ act ∈ [Activity.ptRecv 0 m, .ptRecv 1 m, .ptRecovery .short m, .ptRecovery .badTerm m],
      (attempt act [] ev).inflight = some { latch := { a := 0, b := 0, e := 1, t := 1000 }, activity := act } ∧
      (attempt act [] ev).rx = [] ∧ (attempt act [] ev).events = ev := fun _ _ _ _ _ _ => ⟨rfl, rfl, rfl⟩

/-- The three outcomes: a frame, BAD_TERM, SHORT; and a recovery byte of both kinds. -/
theorem witness_PtRecvHasThreeOutcomes :
    State.reset.events = [] ∧ State.reset.mem.wf = true ∧ ({ State.reset with rx := [0x23] } : State).rx = [0x23] ++ [] ∧
    (([0x23] : List Byte).length = State.reset.explen.toNat + 1 ∧ ([0x23] : List Byte).getLast? = some 0x23) ∧
    (([0x78] : List Byte).length = State.reset.explen.toNat + 1 ∧ ([0x78] : List Byte).getLast? ≠ some 0x23) ∧
    ([] : List Byte).length ≤ State.reset.explen.toNat ∧
    ({ State.reset with rx := [0x78, 0x79] } : State).rx = [0x78] ++ [0x79] := by decide

theorem witness_BuiltFrameIsOneRequest : isBuilder (.ptGetdevver 176) = true ∧ State.reset.mem.wf = true ∧
    State.reset.events = [] ∧ State.reset.error = none ∧ State.reset.sink.left = 0 ∧
    exec (.ptGetdevver 176) State.reset = .next (after (.ptGetdevver 176) State.reset) ∧
    (after (.ptGetdevver 176) State.reset).error = none :=
  ⟨by decide, by decide, by decide, by decide, by decide, exec_after (by decide), by decide⟩

/-- The value of a pattern, from its number. -/
theorem f64Val_of {x : Word64} (n : ℕ) (h : x.toNat = n) :
    f64Val x = (if n < 2 ^ 63 then 1 else -1) *
      ((if n / 2 ^ 52 % 2 ^ 11 = 0 then n % 2 ^ 52 else 2 ^ 52 + n % 2 ^ 52 : ℕ) : ℚ) *
      2 ^ ((max (n / 2 ^ 52 % 2 ^ 11) 1 : ℕ) - 1075 : ℤ) := by
  subst h
  rfl

/-- 359.99. -/
theorem f64Val_359 : f64Val 0x40767FD70A3D70A4 = 6333011054129316 / 2 ^ 44 := by
  rw [f64Val_of 0x40767FD70A3D70A4 rfl]
  norm_num

theorem f64Val_360 : f64Val 0x4076800000000000 = 360 := by
  rw [f64Val_of 0x4076800000000000 rfl]
  norm_num

theorem inCircle_zero : InCircle 0 := by
  refine ⟨by unfold f64Finite; decide, ?_, ?_⟩ <;> norm_num [f64Val]

/-- 359.99 is inside the circle. -/
theorem inCircle_359 : InCircle 0x40767FD70A3D70A4 := by
  refine ⟨by unfold f64Finite; decide, ?_, ?_⟩ <;> norm_num [f64Val_359]

theorem not_inCircle_360 : ¬ InCircle 0x4076800000000000 := by
  rintro ⟨-, -, h⟩
  rw [f64Val_360] at h
  exact lt_irrefl _ h

theorem witness_QntQuantizes : InCircle (operands 0 0).opa ∧ InCircle (operands 0x40767FD70A3D70A4 0).opa ∧
    ¬ InCircle (operands 0x4076800000000000 0).opa := ⟨inCircle_zero, inCircle_359, not_inCircle_360⟩

theorem witness_QuantizerErrorIsBounded : (operands 0x40767FD70A3D70A4 0).params.arith = .exact ∧
    InCircle (operands 0x40767FD70A3D70A4 0).opa ∧ (operands 0 0).params.arith = .exact ∧ InCircle (operands 0 0).opa ∧
    (after (.qnt .standard) (operands 0 0)).res0 = 0 ∧
    IsRne (f64Val (operands 0 0).opa / 360 * 2 ^ codeBits .standard) ((0 : Word64).toNat : ℤ) := by
  refine ⟨by decide, inCircle_359, by decide, inCircle_zero, by decide +kernel, ?_⟩
  norm_num [IsRne, operands, f64Val]

theorem witness_DqntIsExact : (operands 0xFFFF 0).opa.toNat < 2 ^ codeBits .standard ∧
    2 ^ codeBits .standard ≤ (operands 0x10000 0).opa.toNat ∧ (operands 0xFFFFFFFF 0).opa.toNat < 2 ^ codeBits .high ∧
    2 ^ codeBits .high ≤ (operands 0x100000000 0).opa.toNat := by decide

theorem witness_DmsencPacksSeconds : (operands 921599 0).opa.toInt.natAbs < 921600 ∧
    (operands 0xFFFFFFFFFFFFFFFF 0).opa.toInt < 0 ∧ 921600 ≤ (operands 921600 0).opa.toInt.natAbs ∧
    921600 ≤ (operands 0x8000000000000000 0).opa.toInt.natAbs := by decide

theorem witness_DmsRoundTrips : (operands 921599 0).opa.toInt.natAbs ≤ 921599 ∧
    (operands (-921599) 0).opa.toInt.natAbs ≤ 921599 := by decide

/-- 52.5 degrees, a rounding that does not fit, and an infinity. -/
theorem witness_DegreesToSecondsRounds : f64Finite (operands 0x404A400000000000 0).opa ∧
    RoundsSeconds .exact |f64Val 0x404A400000000000| 189000 ∧ f64Finite (operands 0x4322795F58D50000 0).opa ∧
    RoundsSeconds .exact |f64Val 0x4322795F58D50000| 9360000000000000000 ∧
    ¬ f64Finite (operands 0x7FF0000000000000 0).opa := by
  refine ⟨by unfold f64Finite; decide, ?_, by unfold f64Finite; decide, ?_, by unfold f64Finite; decide⟩
  · rw [f64Val_of 0x404A400000000000 rfl]
    norm_num [RoundsSeconds, IsRne]
  · rw [f64Val_of 0x4322795F58D50000 rfl]
    norm_num [RoundsSeconds, IsRne]

theorem witness_SecondsToDegreesDivides : (operands 0xFFFFFFFFFFFFFFFF 0).opa.toInt < 0 ∧ 0 ≤ (operands 0 0).opa.toInt := by
  decide

theorem witness_FbClearAndByteBuild : State.reset.mem.wf = true ∧
    ({ State.reset with txlen := 31 } : State).txlen.toNat < 32 ∧ 32 ≤ ({ State.reset with txlen := 32 } : State).txlen.toNat := by
  decide

/-- Widths 0, 9, 1 and 8; a value that does not fit; a frame that the value fills, and one that it overflows. -/
theorem witness_FbUintAppendsBigEndian : (0 : Byte).toNat < 1 ∧ 8 < (9 : Byte).toNat ∧ 1 ≤ (8 : Byte).toNat ∧
    (8 : Byte).toNat ≤ 8 ∧ 2 ^ (8 * (1 : Byte).toNat) ≤ (operands 256 0).opa.toNat ∧
    (operands 255 0).opa.toNat < 2 ^ (8 * (1 : Byte).toNat) ∧
    (operands 0xFFFFFFFFFFFFFFFF 0).opa.toNat < 2 ^ (8 * (8 : Byte).toNat) ∧ State.reset.mem.wf = true ∧
    32 < ({ State.reset with txlen := 25 } : State).txlen.toNat + (8 : Byte).toNat ∧
    ({ State.reset with txlen := 24 } : State).txlen.toNat + (8 : Byte).toNat ≤ 32 := by decide

theorem witness_FbHexAppendsText : (0 : Byte).toNat < 1 ∧ 16 < (17 : Byte).toNat ∧ 1 ≤ (16 : Byte).toNat ∧
    (16 : Byte).toNat ≤ 16 ∧ 16 ^ (4 : Byte).toNat ≤ (operands 0x10000 0).opa.toNat ∧
    (operands 0xFFFF 0).opa.toNat < 16 ^ (4 : Byte).toNat ∧ State.reset.mem.wf = true ∧
    32 < ({ State.reset with txlen := 29 } : State).txlen.toNat + (4 : Byte).toNat ∧
    ({ State.reset with txlen := 28 } : State).txlen.toNat + (4 : Byte).toNat ≤ 32 := by decide

theorem witness_FbDecAppendsText : 20 < (21 : Byte).toNat ∧ (20 : Byte).toNat ≤ 20 ∧ (0 : Byte).toNat = 0 ∧
    10 ^ (3 : Byte).toNat ≤ (operands 1000 0).opa.toNat ∧ (operands 999 0).opa.toNat < 10 ^ (3 : Byte).toNat ∧
    State.reset.mem.wf = true ∧ 32 < ({ State.reset with txlen := 30 } : State).txlen.toNat + 3 ∧
    ({ State.reset with txlen := 29 } : State).txlen.toNat + 3 ≤ 32 := by decide

/-- For OneByteQueriesBuild, OpenLengthQueriesBuild, EchoBuilds and PtGetdevverBuilds. -/
theorem witness_OneByteQueriesBuild : State.reset.mem.wf = true := by decide

theorem witness_OpenLengthQueriesBuild : ({ State.reset with mem := [(0x100, 1)] } : State).mem.wf = true := by decide

theorem witness_EchoBuilds : ({ State.reset with mem := [(0x101, 1)] } : State).mem.wf = true := by decide

theorem witness_PtGetdevverBuilds : ({ State.reset with mem := [(0x107, 9)] } : State).mem.wf = true := by decide

theorem witness_CoordinateRequestsBuild : State.reset.mem.wf = true ∧ InCircle (operands 0x40767FD70A3D70A4 0).opa ∧
    InCircle (operands 0x40767FD70A3D70A4 0).opb ∧
    ¬ (InCircle (operands 0 0x4076800000000000).opa ∧ InCircle (operands 0 0x4076800000000000).opb) := by
  refine ⟨by decide, ?_, ?_, ?_⟩
  · exact inCircle_359
  · exact inCircle_zero
  · rintro ⟨-, h⟩
    exact not_inCircle_360 h

theorem witness_SetTrackingBuilds : (3 : Byte).toNat ≤ 3 ∧ State.reset.mem.wf = true ∧ 4 ≤ (4 : Byte).toNat := by decide

/-- Fields of 59 in both words, and a second field of 60. -/
theorem witness_SetLocationBuilds :
    let f (w : Word64) := decide (w.toNat / 2 ^ 8 % 2 ^ 6 ≤ 59 ∧ w.toNat % 2 ^ 6 ≤ 59)
    (f (operands 0xFF3B3B 0x01003B3B).opa && f (operands 0xFF3B3B 0x01003B3B).opb) = true ∧
    (f (operands 0 0x3C).opa && f (operands 0 0x3C).opb) = false ∧ State.reset.mem.wf = true := by decide

theorem witness_SetTimeBuilds : 2 ≤ (2 : Byte).toNat ∧ (1 : Byte).toNat ≤ 1 ∧ (operands 0 (-129)).opb.toInt < -128 ∧
    127 < (operands 0 128).opb.toInt ∧ -128 ≤ (operands 0 (-128)).opb.toInt ∧ (operands 0 (-128)).opb.toInt ≤ 127 ∧
    -128 ≤ (operands 0 127).opb.toInt ∧ (operands 0 127).opb.toInt ≤ 127 ∧ State.reset.mem.wf = true := by decide

theorem witness_PtBuildBuilds : 1 ≤ (operands 0 1).opb.toNat ∧ (operands 0 4).opb.toNat ≤ 4 ∧ (operands 0 0).opb.toNat < 1 ∧
    4 < (operands 0 5).opb.toNat ∧ State.reset.mem.wf = true := by decide

theorem witness_PtSlewfixBuilds : (176 : Byte) ≠ 16 ∧ (176 : Byte) ≠ 17 ∧ ((17 : Byte) = 16 ∨ (17 : Byte) = 17) ∧
    (operands (-10) 0).opa.toInt < -9 ∧ 9 < (operands 10 0).opa.toInt ∧ -9 ≤ (operands (-9) 0).opa.toInt ∧
    (operands 9 0).opa.toInt ≤ 9 ∧ State.reset.mem.wf = true := by decide

/-- A NaN; 65535/14400 and 65535.5/14400 degrees a second; a rate below 0 and a rate of 0. -/
theorem witness_PtSlewvarBuilds : (178 : Byte) ≠ 16 ∧ (178 : Byte) ≠ 17 ∧ ((16 : Byte) = 16 ∨ (16 : Byte) = 17) ∧
    ¬ f64Finite (operands 0x7FF8000000000000 0).opa ∧ f64Finite (operands 0x4012344444444444 0).opa ∧
    RoundsRate .exact |f64Val 0x4012344444444444| 65535 ∧ RoundsRate .exact |f64Val 0x4012344D5E6F8092| 65536 ∧
    f64Val 0xBFB999999999999A < 0 ∧ 0 ≤ f64Val 0x8000000000000000 ∧ State.reset.mem.wf = true := by
  refine ⟨by decide, by decide, by decide, by unfold f64Finite; decide, by unfold f64Finite; decide, ?_, ?_, ?_, ?_, by decide⟩
  · rw [f64Val_of 0x4012344444444444 rfl]
    norm_num [RoundsRate, IsRne, abs_le, abs_of_pos]
  · rw [f64Val_of 0x4012344D5E6F8092 rfl]
    norm_num [RoundsRate, IsRne, abs_le, abs_of_pos]
  · rw [f64Val_of 0xBFB999999999999A rfl]
    norm_num
  · rw [f64Val_of 0x8000000000000000 rfl]
    norm_num

theorem witness_DecodersNeedAFrame : State.reset.rxvalid = false ∧ (framed [1, 2]).rxvalid = true ∧
    ((framed [1, 2]).rxvalid = false ∨ (framed [1, 2]).rxlen ≠ 1) := by decide

/-- A payload that decodes, one without the comma, one with a character that is no digit, and a wrong length. -/
theorem witness_DecPosDecodes :
    let ok := framed [0x66, 0x46, 0x30, 0x39, 0x2C, 0x34, 0x30, 0x30, 0x30]
    let bad := framed [0x66, 0x47, 0x30, 0x39, 0x2C, 0x34, 0x30, 0x30, 0x30]
    ok.rxvalid = true ∧ ok.rxlen.toNat = 2 * hexDigits .standard + 1 ∧ ok.rxByte (hexDigits .standard) = 0x2C ∧
    HexReads (ok.rxBytes 0 (hexDigits .standard)) 0xFF09 ∧ HexReads (ok.rxBytes (hexDigits .standard + 1) (hexDigits .standard)) 0x4000 ∧
    bad.rxvalid = true ∧ bad.rxlen.toNat = 2 * hexDigits .standard + 1 ∧ (¬ ∃ c, HexReads (bad.rxBytes 0 (hexDigits .standard)) c) ∧
    (framed [0x30, 0x30, 0x30, 0x30, 0x3B, 0x30, 0x30, 0x30, 0x30]).rxByte (hexDigits .standard) ≠ 0x2C ∧
    ok.rxlen.toNat ≠ 2 * hexDigits .high + 1 := by
  refine ⟨by decide, by decide, by decide, ?_, ?_, by decide, by decide, ?_, by decide, by decide⟩
  · exact ⟨[15, 15, 0, 9], by simp [framed, State.rxBytes, State.rxByte, hexDigits, Memory.writeList, Memory.write,
      Memory.read, rxAddr, Config.rxBase, List.range_succ, IsHexDigit, Memory.unlisted], by decide⟩
  · exact ⟨[4, 0, 0, 0], by simp [framed, State.rxBytes, State.rxByte, hexDigits, Memory.writeList, Memory.write,
      Memory.read, rxAddr, Config.rxBase, List.range_succ, IsHexDigit, Memory.unlisted], by decide⟩
  · rintro ⟨c, ds, h, -⟩
    simp [framed, State.rxBytes, State.rxByte, hexDigits, Memory.writeList, Memory.write, Memory.read, rxAddr,
      Config.rxBase, List.range_succ, Memory.unlisted] at h
    obtain _ | ⟨_, _ | ⟨h2, _⟩⟩ := h
    rcases h2 with h2 | h2 | h2 <;> revert h2 <;> simp

/-- The ends of the ranges of each layout: mode 3 and 4; a minute of 59 and of 60; a DST flag of 1 and of 2. -/
theorem witness_DefaultLayoutsDecode :
    (∀ b ∈ [(3 : Byte), 4], (framed [b]).rxvalid = true ∧ (framed [b]).rxlen = (framed [b]).params.respLen.getTrackingMode ∧
      (framed [b]).rxlen = 1 ∧ (framed [b]).rxByte 0 = b) ∧
    (∀ b ∈ [(59 : Byte), 60],
      (framed [255, b, 59, 1, 255, 59, 59, 1]).rxvalid = true ∧
      (framed [255, b, 59, 1, 255, 59, 59, 1]).rxlen = State.reset.params.respLen.getLocation ∧
      (framed [255, b, 59, 1, 255, 59, 59, 1]).rxlen = 8 ∧ (framed [255, b, 59, 1, 255, 59, 59, 1]).rxByte 1 = b) ∧
    (∀ b ∈ [(1 : Byte), 2],
      (framed [0, 0, 0, 0, 0, 0, 128, b]).rxvalid = true ∧
      (framed [0, 0, 0, 0, 0, 0, 128, b]).rxlen = State.reset.params.respLen.getTime ∧
      (framed [0, 0, 0, 0, 0, 0, 128, b]).rxlen = 8 ∧ (framed [0, 0, 0, 0, 0, 0, 128, b]).rxByte 7 = b) := by decide

/-- A reply length that is not the default. -/
theorem witness_DefaultLayoutsDecode_other :
    let s : State :=
      { framed [1, 2] with
        params := { Params.recommended with respLen := { Params.recommended.respLen with getTrackingMode := 2 } } }
    s.rxvalid = true ∧ s.rxlen = s.params.respLen.getTrackingMode ∧ s.rxlen ≠ 1 := by decide

theorem witness_OneByteRepliesDecode : State.reset.rxvalid = false ∧ (framed [1, 2]).rxlen ≠ 1 ∧
    (∀ b ∈ [(0x00 : Byte), 0x01, 0x30, 0x31, 0x02], (framed [b]).rxvalid = true ∧ (framed [b]).rxlen = 1 ∧
      (framed [b]).rxByte 0 = b) ∧
    (framed [0]).rxByte 0 = (framed [0]).echoref ∧ (framed [1]).rxByte 0 ≠ (framed [1]).echoref ∧
    (framed [2]).rxByte 0 ∉ [(0x00 : Byte), 0x01, 0x30, 0x31] := by decide

/-- A set-time and a set-location request of `operands`, and their replies. -/
theorem witness_RepliesInvertRequests :
    let s := operands 0x180B0A001E14 0xFFFFFFFFFFFFFFFB
    let t := after (.cbSettime 1) s
    let u := framed [0x14, 0x1E, 0x00, 0x0A, 0x0B, 0x18, 0xFB, 0x01]
    s.mem.wf = true ∧ s.error = none ∧ exec (.cbSettime 1) s = .next t ∧ t.error = none ∧ u.rxvalid = true ∧
    (∀ i < u.rxlen.toNat, u.rxByte i = t.txByte (i + 1)) ∧ u.params.respLen.getTime = 8 ∧ u.rxlen = 8 :=
  ⟨by decide, by decide, exec_after (by decide), by decide, by decide, by decide, by decide, by decide⟩

theorem witness_RepliesInvertRequests_location :
    let s := operands 0x341E00 0x01041E00
    let t := after .cbSetloc s
    let u := framed [0x34, 0x1E, 0x00, 0x00, 0x04, 0x1E, 0x00, 0x01]
    s.mem.wf = true ∧ s.error = none ∧ exec .cbSetloc s = .next t ∧ t.error = none ∧ u.rxvalid = true ∧
    (∀ i < u.rxlen.toNat, u.rxByte i = t.txByte (i + 1)) ∧ u.params.respLen.getLocation = 8 ∧ u.rxlen = 8 :=
  ⟨by decide, by decide, exec_after (by decide), by decide, by decide, by decide, by decide, by decide⟩

theorem witness_RepliesInvertRequests_echo :
    let t := after (.cbEcho 0x41) State.reset
    let u : State := { framed [0x41] with echoref := 0x41 }
    State.reset.mem.wf = true ∧ State.reset.error = none ∧ exec (.cbEcho 0x41) State.reset = .next t ∧ t.error = none ∧
    u.rxvalid = true ∧ (∀ i < u.rxlen.toNat, u.rxByte i = t.txByte (i + 1)) ∧ u.echoref = t.echoref ∧ u.rxlen = 1 :=
  ⟨by decide, by decide, exec_after (by decide), by decide, by decide, by decide, by decide, by decide⟩

theorem witness_PositionTextReadsBack :
    let s := operands 0x4066800000000000 0x4056800000000000
    let t := after (.cbGoto .standard .raDec) s
    let u := framed [0x38, 0x30, 0x30, 0x30, 0x2C, 0x34, 0x30, 0x30, 0x30]
    s.mem.wf = true ∧ s.error = none ∧ t.error = none ∧ exec (.cbGoto .standard .raDec) s = .next t ∧ u.rxvalid = true ∧
    u.rxlen.toNat = 2 * hexDigits .standard + 1 ∧ (∀ i < u.rxlen.toNat, u.rxByte i = t.txByte (i + 1)) :=
  ⟨by decide, by decide, by decide +kernel, exec_after (by decide +kernel), by decide, by decide, by decide +kernel⟩

/-- The byte at k = 0 and k = N, the terminator and another byte, of RECV, of PT_RECV and of a recovery read, with and
without an engine move pending. -/
theorem witness_EngineTakesOneByte : ∀ b ∈ [(0x23 : Byte), 0x78], ∀ ev ∈ [[Event.engine], []],
    ∀ act ∈ [Activity.recv 0 9, .recv 1 9, .ptRecv 0 9, .ptRecv 1 9, .ptRecovery .short 9, .ptRecovery .badTerm 9],
      (attempt act [b] ev).events = ev ∧ (attempt act [b] ev).mem.wf = true ∧ (attempt act [b] ev).rx = [b] ∧
      (attempt act [b] ev).inflight = some { latch := { a := 0, b := 0, e := 1, t := 1000 }, activity := act } := by decide

theorem witness_EveryOperationCompletes : Sound reading ∧ (∀ e ∈ reading.events, eventOk e = true) ∧ reading.events = [] ∧
    reading.busy = true ∧ Sound (due (.hostWrite .word 0 0x61) State.reset) ∧
    ∀ e ∈ (due (.hostWrite .word 0 0x61) State.reset).events, eventOk e = true :=
  ⟨sound_reading, by decide, rfl, by decide, ⟨by decide, by decide, by decide, by decide, (fun _ h => by cases h), by decide,
    by decide, by decide, by decide, by decide, by decide⟩, by decide⟩

end Sys2Proof.Tests
end

section
/-! SUPPORT. What a link operation's move can do, said once for all of them, with RECV and phase 1 of PT_RECV as one framing
read (`42_response_framer.md` R211, `43_passthrough.md` R256). -/

namespace Sys2Proof.Machine

/-! ### The two framing reads -/

/-- The framing reads: RECV, and phase 1 of PT_RECV. -/
inductive ReadKind where
  | recv
  | ptRecv

/-- The activity of a framing read after `k` bytes. -/
def ReadKind.activity : ReadKind → ℕ → Word32 → Activity
  | .recv => .recv
  | .ptRecv => .ptRecv

/-- The end of a framing read's attempt after `k` bytes. -/
def ReadKind.ends : ReadKind → Latch → ℕ → State → State
  | .recv => endRecv
  | .ptRecv => endPtPhase1

theorem ReadKind.activity_ne_send (r : ReadKind) (k : ℕ) (m : Word32) (i : ℕ) : r.activity k m ≠ .send i := by
  cases r <;> exact nofun

/-- An attempt ends with a frame, with a framing failure of RECV, or with PT_RECV's recovery read. -/
theorem ReadKind.ends_cases (r : ReadKind) (l : Latch) (k : ℕ) (s : State) :
    (frameOutcome l.e k s = none ∧ r.ends l k s = complete (acceptFrame l.e (recordRead l.e k s))) ∨
      ∃ o, frameOutcome l.e k s = some o ∧
        (r = .recv ∧ r.ends l k s = raise (.protocol o.detail) (dropFrame (recordRead l.e k s)) ∨
          r = .ptRecv ∧ r.ends l k s =
            { dropFrame (recordRead l.e k s) with inflight := some { latch := l, activity := .ptRecovery o l.t } }) := by
  cases r with
  | recv =>
    rcases endRecv_cases l k s with h | ⟨o, ho, h⟩
    · exact .inl h
    · exact .inr ⟨o, ho, .inl ⟨rfl, h⟩⟩
  | ptRecv =>
    rcases endPtPhase1_cases l k s with h | ⟨o, ho, h⟩
    · exact .inl h
    · exact .inr ⟨o, ho, .inr ⟨rfl, h⟩⟩

/-- The end of an attempt writes the diagnostics, the frame's registers and what the end of an operation writes. -/
theorem ReadKind.ends_frame (r : ReadKind) (l : Latch) (k : ℕ) (s : State) :
    ∃ x b n v f d e,
      r.ends l k s = { s with xfer := x, xbyte := b, rxlen := n, rxvalid := v, inflight := f, done := d, error := e } := by
  rcases r.ends_cases l k s with ⟨-, h⟩ | ⟨o, -, ⟨-, h⟩ | ⟨-, h⟩⟩
  · exact ⟨_, _, _, _, _, _, _, h⟩
  · exact ⟨_, _, _, _, _, _, _, h⟩
  · exact ⟨_, _, _, _, _, _, _, h⟩

/-- The end of an attempt takes no byte. -/
theorem ReadKind.ends_rx (r : ReadKind) (l : Latch) (k : ℕ) (s : State) : (r.ends l k s).rx = s.rx := by
  obtain ⟨x, b, n, v, f, d, e, h⟩ := r.ends_frame l k s
  rw [h]

/-- The end of an attempt sends no byte. -/
theorem ReadKind.ends_sink (r : ReadKind) (l : Latch) (k : ℕ) (s : State) : (r.ends l k s).sink = s.sink := by
  obtain ⟨x, b, n, v, f, d, e, h⟩ := r.ends_frame l k s
  rw [h]

/-- A timeout ends the attempt of a framing read. -/
theorem expireAttempt_read (r : ReadKind) (l : Latch) (k : ℕ) (m : Word32) (s : State) :
    expireAttempt { latch := l, activity := r.activity k m } s = r.ends l k s := by
  cases r <;> rfl

/-- A framing read stores a byte that is not its last. -/
theorem engineStep_read_more (r : ReadKind) {l : Latch} {k : ℕ} {m : Word32} {b : Byte} {rest : List Byte} {s : State}
    (hrx : s.rx = b :: rest) (hk : k + 1 < frameLen l.e) :
    engineStep { latch := l, activity := r.activity k m } s =
      { storeRx k b rest s with inflight := some { latch := l, activity := r.activity (k + 1) m } } := by
  cases r with
  | recv => exact engineStep_recv_more hrx hk
  | ptRecv => exact engineStep_ptRecv_more hrx hk

/-- A framing read stores its last byte, and its attempt ends. -/
theorem engineStep_read_last (r : ReadKind) {l : Latch} {k : ℕ} {m : Word32} {b : Byte} {rest : List Byte} {s : State}
    (hrx : s.rx = b :: rest) (hk : k + 1 = frameLen l.e) :
    engineStep { latch := l, activity := r.activity k m } s = r.ends l (k + 1) (storeRx k b rest s) := by
  cases r with
  | recv => exact engineStep_recv_last hrx hk
  | ptRecv => exact engineStep_ptRecv_last hrx hk

/-- With no byte waiting, a framing read waits, or its attempt ends where its timer is 0 (`10_state.md` R34). -/
theorem engineStep_read_wait (r : ReadKind) {l : Latch} {k : ℕ} {m : Word32} {s : State} (hrx : s.rx = [])
    (hk : k < frameLen l.e) :
    engineStep { latch := l, activity := r.activity k m } s = if m = 0 then r.ends l k s else s := by
  cases r <;> simp only [engineStep, ReadKind.activity, if_pos hk, hrx] <;> rfl

/-- With no byte waiting, a recovery read waits, or ends where its timer is 0 (`10_state.md` R34). -/
theorem engineStep_ptRecovery_wait {l : Latch} {o : FrameFail} {m : Word32} {s : State} (hrx : s.rx = []) :
    engineStep { latch := l, activity := .ptRecovery o m } s = if m = 0 then recoveryFailed o s else s := by
  simp only [engineStep, hrx]
  rfl

/-! ### A link operation's move -/

/-- What the move of a framing read after `k` bytes can do, if it does anything: a byte stored, the last byte stored and
the attempt ended, or the attempt ended. -/
def ReadMove (r : ReadKind) (l : Latch) (k : ℕ) (m : Word32) (s t : State) : Prop :=
  (∃ b rest, s.rx = b :: rest ∧ k + 1 < frameLen l.e ∧
      t = { storeRx k b rest s with inflight := some { latch := l, activity := r.activity (k + 1) m } }) ∨
    (∃ b rest, s.rx = b :: rest ∧ k + 1 = frameLen l.e ∧ t = r.ends l (k + 1) (storeRx k b rest s)) ∨
    t = r.ends l k s

/-- What the move of a recovery read can do, if it does anything: the read fails, or takes its byte. -/
def RecoveryMove (o : FrameFail) (s t : State) : Prop :=
  t = recoveryFailed o s ∨ ∃ x rest, s.rx = x :: rest ∧ t = recoveryByte o x { s with rx := rest }

/-- What a link operation's move has done: nothing, the hand-over of SEND's next byte, a framing read's move, or a
recovery read's. -/
inductive LinkResult (s t : State) : InFlight → Prop where
  | idles {f : InFlight} : t = s → LinkResult s t f
  | sends {l : Latch} {i : ℕ} : emitByte l i s = .next t → LinkResult s t { latch := l, activity := .send i }
  | reads {l : Latch} (r : ReadKind) {k : ℕ} {m : Word32} :
    ReadMove r l k m s t → LinkResult s t { latch := l, activity := r.activity k m }
  | recovers {l : Latch} {o : FrameFail} {m : Word32} :
    RecoveryMove o s t → LinkResult s t { latch := l, activity := .ptRecovery o m }

/-- A timeout of the operation in flight. -/
theorem linkResult_expire (f : InFlight) (s : State) : LinkResult s (expireAttempt f s) f := by
  obtain ⟨l, a⟩ := f
  cases a with
  | send i => exact .idles rfl
  | recv k m => exact .reads .recv (.inr (.inr rfl))
  | ptRecv k m => exact .reads .ptRecv (.inr (.inr rfl))
  | ptRecovery o m => exact .recovers (.inl rfl)

/-- An engine step of the operation in flight. -/
theorem linkResult_engine (f : InFlight) (s : State) : LinkResult s (engineStep f s) f := by
  rcases engineStep_cases f s with h | ⟨-, h⟩ | ⟨k, m, b, rest, hrx, h⟩ | ⟨k, m, -, h⟩ | ⟨o, m, x, rest, ha, hrx, h⟩
  · exact .idles h
  · exact h ▸ linkResult_expire f s
  · obtain ⟨l, a⟩ := f
    rcases h with ⟨rfl, hk, h⟩ | ⟨rfl, hk, h⟩ | ⟨rfl, hk, h⟩ | ⟨rfl, hk, h⟩
    · exact .reads .recv (.inl ⟨b, rest, hrx, hk, h⟩)
    · exact .reads .ptRecv (.inl ⟨b, rest, hrx, hk, h⟩)
    · exact .reads .recv (.inr (.inl ⟨b, rest, hrx, hk, h⟩))
    · exact .reads .ptRecv (.inr (.inl ⟨b, rest, hrx, hk, h⟩))
  · obtain ⟨l, a⟩ := f
    rcases h with ⟨rfl, h⟩ | ⟨rfl, h⟩
    · exact .reads .recv (.inr (.inr h))
    · exact .reads .ptRecv (.inr (.inr h))
  · obtain ⟨l, a⟩ := f
    cases ha
    exact .recovers (.inr ⟨x, rest, hrx, h⟩)

/-- What a link operation's move can do. -/
theorem linkMove_cases {f : InFlight} {s t : State} (h : LinkMove f s t) : LinkResult s t f := by
  rcases h with rfl | rfl | ⟨i, hi, ht⟩
  · exact linkResult_engine f s
  · exact linkResult_expire f s
  · obtain ⟨l, a⟩ := f
    cases hi
    exact .sends ht

/-- The recovery byte is the terminator, and PT_RECV has no answer, or the recovery has failed. -/
theorem recoveryByte_cases (o : FrameFail) (x : Byte) (s : State) :
    recoveryByte o x s = raise .noAnswer { s with xbyte := { s.xbyte with recGot := true, recByte := x } } ∨
      recoveryByte o x s = recoveryFailed o { s with xbyte := { s.xbyte with recGot := true, recByte := x } } := by
  unfold recoveryByte
  simp only
  split
  · exact .inl rfl
  · exact .inr rfl

/-! ### A write of OPW -/

/-- What a write of OPW that answers a next state has done: a collision, the meaning of an accepted operation word, or an
ILLEGAL error (`30_encoding.md` R95, R96). -/
theorem writeOpw_cases {w : Word32} {s t : State} (h : writeOpw w s = .next t) :
    (s.busy = true ∧ t = { s with coll := true }) ∨
      (s.busy = false ∧ ∃ i v, decode w = .op i ∧ encode i = .opw v ∧ exec i (accept w s) = .next t) ∨
      (s.busy = false ∧ ∃ e, t = raise e (accept w s)) := by
  unfold writeOpw at h
  split at h
  · injection h with h
    exact .inl ⟨‹_›, h.symm⟩
  · have hb : s.busy = false := by simpa using ‹¬ s.busy = true›
    split at h
    · rename_i i hi
      obtain ⟨v, hv⟩ := encode_of_decode hi
      exact .inr (.inl ⟨hb, i, v, hi, hv, h⟩)
    · injection h with h
      exact .inr (.inr ⟨hb, _, h.symm⟩)
    · injection h with h
      exact .inr (.inr ⟨hb, _, h.symm⟩)

end Sys2Proof.Machine
end

section
/-! SUPPORT. The invariant `Sound` holds after reset and is kept by every step. Its clauses about registers and buffers alone
are `RegsOk`, which the pieces of a move keep one by one; a state that satisfies them is sound once the operation has ended
or is in flight in agreement with them. -/

namespace Sys2Proof.Machine

/-! ### The clauses about registers and buffers alone -/

/-- The clauses of `Sound` that hold in the middle of a move too. -/
structure RegsOk (s : State) : Prop where
  memWf : s.mem.wf = true
  memMapped : s.mem.mapped = true
  txlenLe : s.txlen.toNat ≤ Config.txCap
  xferLe : s.xfer.actLen.toNat ≤ s.xfer.expLen.toNat ∧ s.xfer.expLen.toNat ≤ Config.rxCap
  recByte : s.xbyte.recGot = false → s.xbyte.recByte = 0
  beforeMem : s.before.mem.wf = true ∧ s.before.mem.mapped = true

/-- RECOV stands only with a framing error. -/
def RecovHasCause (s : State) : Prop :=
  s.recov = true → s.error = some (.protocol .short) ∨ s.error = some (.protocol .badTerm)

theorem recovHasCause_of_not {s : State} (h : s.recov = false) : RecovHasCause s := fun hr => by
  rw [h] at hr
  cases hr

/-- RXBUF holds a terminated frame, if RXVALID says that it holds one. -/
def FrameEnds (s : State) : Prop := s.rxvalid = true → s.rxByte s.rxlen.toNat = Config.term

/-- An operation is under way that has reported nothing yet. -/
structure Underway (s : State) : Prop where
  notDone : s.done = false
  noError : s.error = none
  noRecov : s.recov = false

theorem Sound.regsOk {s : State} (h : Sound s) : RegsOk s :=
  ⟨h.memWf, h.memMapped, h.txlenLe, h.xferLe, h.recByte, h.beforeMem⟩

/-- These clauses speak of the buffers, TXLEN, XFER, XBYTE and the old values only. -/
theorem RegsOk.of_eq {s t : State} (h : RegsOk s) (hm : t.mem = s.mem) (hn : t.txlen = s.txlen) (hx : t.xfer = s.xfer)
    (hb : t.xbyte = s.xbyte) (hold : t.before = s.before) : RegsOk t :=
  ⟨hm ▸ h.memWf, hm ▸ h.memMapped, hn ▸ h.txlenLe, hx ▸ h.xferLe, hb ▸ h.recByte, hold ▸ h.beforeMem⟩

theorem Sound.underway {s : State} {f : InFlight} (h : Sound s) (hf : s.inflight = some f) : Underway s := by
  have hd : s.done = false := h.busyNotDone ((busy_eq_true_iff s).mpr ⟨f, hf⟩)
  obtain ⟨he, hr⟩ := h.errorDone hd
  exact ⟨hd, he, hr⟩

theorem filling_of_idle {s : State} (h : s.inflight = none) : filling s = false := by
  unfold filling
  rw [h]

theorem filling_of_read {s : State} {l : Latch} {k : ℕ} {m : Word32} (r : ReadKind)
    (h : s.inflight = some { latch := l, activity := r.activity k m }) : filling s = true := by
  unfold filling
  rw [h]
  cases r <;> rfl

/-- An idle sound machine's frame is terminated. -/
theorem Sound.frameEnds {s : State} (h : Sound s) (hi : s.inflight = none) : FrameEnds s :=
  fun hv => h.frameHeld hv (filling_of_idle hi)

/-- A state in which no operation is in flight any more is sound. -/
theorem RegsOk.sound_of_ended {t : State} (h : RegsOk t) (hi : t.inflight = none) (hd : t.done = true)
    (hframe : FrameEnds t) (hrecov : RecovHasCause t) : Sound t where
  memWf := h.memWf
  memMapped := h.memMapped
  txlenLe := h.txlenLe
  frameHeld hv _ := hframe hv
  activity f hf := by rw [hi] at hf; cases hf
  busyNotDone hb := by rw [(busy_eq_false_iff t).mpr hi] at hb; cases hb
  errorDone hn := by rw [hd] at hn; cases hn
  recovCause := hrecov
  xferLe := h.xferLe
  recByte := h.recByte
  beforeMem := h.beforeMem

/-- A state with an operation in flight that agrees with the registers is sound. -/
theorem RegsOk.sound_of_inFlight {t : State} {f : InFlight} (h : RegsOk t) (hi : t.inflight = some f)
    (ha : activityOk t f) (hu : Underway t) (hframe : t.rxvalid = true → filling t = true) : Sound t where
  memWf := h.memWf
  memMapped := h.memMapped
  txlenLe := h.txlenLe
  frameHeld hv hn := by rw [hframe hv] at hn; cases hn
  activity g hg := by
    rw [hi] at hg
    cases hg
    exact ha
  busyNotDone _ := hu.notDone
  errorDone _ := ⟨hu.noError, hu.noRecov⟩
  recovCause hr := by rw [hu.noRecov] at hr; cases hr
  xferLe := h.xferLe
  recByte := h.recByte
  beforeMem := h.beforeMem

/-- The invariant does not speak of the registers that the host writes, of ECHOREF, the streams and the moves. -/
theorem Sound.otherFields {s : State} (h : Sound s) (a b : Word64) (e er : Byte) (m : Word32) (c : Bool) (rx : List Byte)
    (k : TxSink) (ev : List Event) (d : Option Word32) (n : ℕ) :
    Sound { s with
      opa := a, opb := b, explen := e, echoref := er, timeout := m, coll := c, rx := rx, sink := k, events := ev
      busData := d, freeCount := n } :=
  ⟨h.memWf, h.memMapped, h.txlenLe, h.frameHeld, h.activity, h.busyNotDone, h.errorDone, h.recovCause, h.xferLe,
    h.recByte, h.beforeMem⟩

/-- Taking a move off keeps the invariant. -/
theorem Sound.moveTaken {s : State} (h : Sound s) (rest : List Event) : Sound (moved rest s) := h.otherFields ..

/-! ### Reset -/

/-- The state that reset leaves is sound, whatever the state before. -/
theorem sound_resetMachine (s : State) : Sound (resetMachine s) where
  memWf := rfl
  memMapped := rfl
  txlenLe := Nat.zero_le _
  frameHeld := nofun
  activity := nofun
  busyNotDone := nofun
  errorDone _ := ⟨rfl, rfl⟩
  recovCause := nofun
  xferLe := ⟨le_refl _, Nat.zero_le _⟩
  recByte _ := rfl
  beforeMem := ⟨rfl, rfl⟩

/-- The step that runs reset. -/
theorem step_reset {s : State} {rest : List Event} (he : s.events = .reset :: rest) :
    step s = .next (resetMachine (moved rest s)) := by
  unfold step
  rw [he]
  rfl

/-! ### The pieces of a framing read -/

theorem frameLen_le (n : Byte) : frameLen n ≤ Config.rxCap := n.isLt

theorem toNat_ofNat_frameLen (n : Byte) : (BitVec.ofNat 9 (frameLen n)).toNat = frameLen n := by
  have := frameLen_le n
  rw [BitVec.toNat_ofNat, Nat.mod_eq_of_lt (by simp only [Config.rxCap] at this; omega)]

theorem toNat_ofNat_read {n : Byte} {k : ℕ} (hk : k ≤ frameLen n) : (BitVec.ofNat 9 k).toNat = k := by
  have := frameLen_le n
  rw [BitVec.toNat_ofNat, Nat.mod_eq_of_lt (by simp only [Config.rxCap] at this; omega)]

/-- A framing read's byte goes into RXBUF. -/
theorem RegsOk.storeRx {s : State} (h : RegsOk s) {k : ℕ} (hk : k < Config.rxCap) (b : Byte) (rest : List Byte) :
    RegsOk (storeRx k b rest s) :=
  ⟨Memory.wf_write _ b h.memWf, Memory.mapped_write b h.memMapped (isBufferAddr_rxAddr hk), h.txlenLe, h.xferLe,
    h.recByte, h.beforeMem⟩

/-- The diagnostics of a framing read are in range. -/
theorem RegsOk.recordRead {s : State} (h : RegsOk s) {n : Byte} {k : ℕ} (hk : k ≤ frameLen n) :
    RegsOk (recordRead n k s) where
  memWf := h.memWf
  memMapped := h.memMapped
  txlenLe := h.txlenLe
  xferLe := by
    rw [recordRead_xfer, toNat_ofNat_frameLen, toNat_ofNat_read hk]
    exact ⟨hk, frameLen_le n⟩
  recByte := h.recByte
  beforeMem := h.beforeMem

/-- One more byte in RXBUF leaves the rest as it was. -/
theorem keptOutside_write {m0 m : Memory} {a k : ℕ} (h : KeptOutside m0 m a k) (b : Byte) :
    KeptOutside m0 (m.write (a + k) b) a (k + 1) := fun x hx => by
  rw [Memory.read_write_other m b (by omega)]
  exact h x (by omega)

/-- The agreement of a framing read's registers does not depend on which of the two it is. -/
theorem activityOk_read (s : State) (r : ReadKind) (l : Latch) (k : ℕ) (m : Word32) :
    activityOk s { latch := l, activity := r.activity k m } ↔ readingOk s l k m := by
  cases r <;> rfl

/-- What the end of an attempt after `k` bytes needs of the state. -/
structure AttemptOk (l : Latch) (k : ℕ) (s : State) : Prop where
  regs : RegsOk s
  underway : Underway s
  countLe : k ≤ frameLen l.e
  notGot : s.xbyte.recGot = false
  kept : KeptOutside s.before.mem s.mem (rxAddr 0) k

/-- A framing read in flight may end its attempt. -/
theorem Sound.attemptOk {s : State} (h : Sound s) {r : ReadKind} {l : Latch} {k : ℕ} {m : Word32}
    (hf : s.inflight = some { latch := l, activity := r.activity k m }) : AttemptOk l k s := by
  obtain ⟨hk, -, -, hxb, -, hkept⟩ := (activityOk_read s r l k m).mp (h.activity _ hf)
  exact ⟨h.regsOk, h.underway hf, hk.le, by rw [hxb], hkept⟩

/-- So it may after one more byte. -/
theorem AttemptOk.storeRx {l : Latch} {k : ℕ} {s : State} (h : AttemptOk l k s) (hk : k + 1 ≤ frameLen l.e) (b : Byte)
    (rest : List Byte) : AttemptOk l (k + 1) (storeRx k b rest s) where
  regs := h.regs.storeRx (lt_of_lt_of_le hk (frameLen_le l.e)) b rest
  underway := ⟨h.underway.notDone, h.underway.noError, h.underway.noRecov⟩
  countLe := hk
  notGot := h.notGot
  kept := keptOutside_write h.kept b

/-- The kind of a framing failure is told by the count of bytes. -/
theorem frameOutcome_some_iff {n : Byte} {k : ℕ} {s : State} {o : FrameFail} (h : frameOutcome n k s = some o) :
    o = .short ↔ k < frameLen n := by
  rw [← frameOutcome_short_iff n k s, h, Option.some.injEq]

/-- The end of an attempt leaves a sound state. -/
theorem AttemptOk.sound_ends {l : Latch} {k : ℕ} {s : State} (h : AttemptOk l k s) (r : ReadKind) :
    Sound (r.ends l k s) := by
  have hregs := h.regs.recordRead h.countLe
  rcases r.ends_cases l k s with ⟨ho, he⟩ | ⟨o, ho, ⟨-, he⟩ | ⟨-, he⟩⟩ <;> rw [he]
  · obtain ⟨-, hterm⟩ := (frameOutcome_none_iff l.e k s).mp ho
    exact RegsOk.sound_of_ended (hregs.of_eq rfl rfl rfl rfl rfl)
      rfl rfl (fun _ => hterm) (recovHasCause_of_not h.underway.noRecov)
  · exact RegsOk.sound_of_ended (hregs.of_eq rfl rfl rfl rfl rfl)
      rfl rfl nofun (recovHasCause_of_not h.underway.noRecov)
  · refine RegsOk.sound_of_inFlight
      (hregs.of_eq rfl rfl rfl rfl rfl) rfl ?_
      ⟨h.underway.notDone, h.underway.noError, h.underway.noRecov⟩ nofun
    refine ⟨rfl, rfl, rfl, toNat_ofNat_frameLen l.e, ?_, h.notGot, ?_⟩
    · change o = .short ↔ (BitVec.ofNat 9 k).toNat < frameLen l.e
      rw [toNat_ofNat_read h.countLe]
      exact frameOutcome_some_iff ho
    · change KeptOutside s.before.mem s.mem (rxAddr 0) (BitVec.ofNat 9 k).toNat
      rw [toNat_ofNat_read h.countLe]
      exact h.kept

/-! ### The moves of a link operation -/

/-- Every move of a framing read keeps the invariant. -/
theorem ReadMove.sound {r : ReadKind} {l : Latch} {k : ℕ} {m : Word32} {s t : State} (hm : ReadMove r l k m s t)
    (h : Sound s) (hf : s.inflight = some { latch := l, activity := r.activity k m }) : Sound t := by
  have ha := h.attemptOk hf
  rcases hm with ⟨b, rest, -, hk, rfl⟩ | ⟨b, rest, -, hk, rfl⟩ | rfl
  · have hs := ha.storeRx hk.le b rest
    obtain ⟨-, ht, hx, hxb, hbefore, -⟩ := (activityOk_read s r l k m).mp (h.activity _ hf)
    refine RegsOk.sound_of_inFlight (hs.regs.of_eq rfl rfl rfl rfl rfl) rfl
      ((activityOk_read _ r l (k + 1) m).mpr ?_) ⟨hs.underway.notDone, hs.underway.noError, hs.underway.noRecov⟩
      (fun _ => filling_of_read r rfl)
    exact ⟨hk, ht, hx, hxb, hbefore, hs.kept⟩
  · exact (ha.storeRx hk.le b rest).sound_ends r
  · exact ha.sound_ends r

/-- A recovery that fails ends in a sound state. -/
theorem sound_recoveryFailed {s : State} (h : RegsOk s) (hv : s.rxvalid = false) (o : FrameFail) :
    Sound (recoveryFailed o s) :=
  RegsOk.sound_of_ended (h.of_eq rfl rfl rfl rfl rfl) rfl rfl
    (fun ht => by cases hv.symm.trans ht) (fun _ => by cases o <;> [left; right] <;> rfl)

/-- Every move of a recovery read keeps the invariant. -/
theorem RecoveryMove.sound {l : Latch} {o : FrameFail} {m : Word32} {s t : State} (hm : RecoveryMove o s t) (h : Sound s)
    (hf : s.inflight = some { latch := l, activity := .ptRecovery o m }) : Sound t := by
  obtain ⟨-, hv, -⟩ := h.activity _ hf
  rcases hm with rfl | ⟨x, rest, -, rfl⟩
  · exact sound_recoveryFailed h.regsOk hv o
  · have hregs : RegsOk { s with rx := rest, xbyte := { s.xbyte with recGot := true, recByte := x } } :=
      ⟨h.memWf, h.memMapped, h.txlenLe, h.xferLe, nofun, h.beforeMem⟩
    rcases recoveryByte_cases o x { s with rx := rest } with he | he <;> rw [he]
    · exact RegsOk.sound_of_ended ⟨hregs.memWf, hregs.memMapped, hregs.txlenLe, hregs.xferLe, nofun, hregs.beforeMem⟩
        rfl rfl (fun ht => by cases hv.symm.trans ht) (recovHasCause_of_not (h.underway hf).noRecov)
    · exact sound_recoveryFailed hregs hv o

/-- SEND's move keeps the invariant. -/
theorem sound_emitByte {l : Latch} {i : ℕ} {s t : State} (he : emitByte l i s = .next t) (h : Sound s)
    (hf : s.inflight = some { latch := l, activity := .send i }) : Sound t := by
  obtain ⟨-, hv, hn, hb⟩ := h.activity _ hf
  have ended : Sound (complete s) :=
    RegsOk.sound_of_ended (h.regsOk.of_eq rfl rfl rfl rfl rfl) rfl rfl
      (fun ht => by cases hv.symm.trans ht) (recovHasCause_of_not (h.underway hf).noRecov)
  rcases emitByte_cases he with ⟨-, rfl⟩ | ⟨-, -, k, rfl, -⟩
  · exact ended
  · unfold advanceSend
    split
    · rename_i hi
      exact RegsOk.sound_of_inFlight (h.regsOk.of_eq rfl rfl rfl rfl rfl) rfl
        ⟨hi, hv, hn, hb⟩ ⟨(h.underway hf).notDone, (h.underway hf).noError, (h.underway hf).noRecov⟩
        (fun ht => by cases hv.symm.trans ht)
    · exact ended.otherFields ..

/-- Every move of a link operation keeps the invariant. -/
theorem LinkMove.sound {f : InFlight} {s t : State} (hm : LinkMove f s t) (h : Sound s) (hf : s.inflight = some f) :
    Sound t := by
  cases linkMove_cases hm with
  | idles ht => exact ht ▸ h
  | sends he => exact sound_emitByte he h hf
  | reads r hr => exact hr.sound h hf
  | recovers hr => exact hr.sound h hf

/-! ### Acceptance and the meaning of an operation -/

/-- What acceptance leaves for an operation's meaning. -/
structure Fresh (s : State) : Prop where
  regs : RegsOk s
  underway : Underway s
  xferZero : s.xfer = { expLen := 0, actLen := 0 }
  xbyteZero : s.xbyte = { last := 0, recByte := 0, recGot := false }
  frame : FrameEnds s

theorem fresh_accept {s : State} (h : Sound s) (hi : s.inflight = none) (w : Word32) : Fresh (accept w s) where
  regs := ⟨h.memWf, h.memMapped, h.txlenLe, by simp, fun _ => rfl, h.beforeMem⟩
  underway := ⟨rfl, rfl, rfl⟩
  xferZero := rfl
  xbyteZero := rfl
  frame := h.frameEnds hi

/-- An error in an operation's own step leaves a sound state. -/
theorem Fresh.sound_raise {s : State} (h : Fresh s) (e : OpError) : Sound (raise e s) :=
  RegsOk.sound_of_ended (h.regs.of_eq rfl rfl rfl rfl rfl) rfl rfl h.frame (recovHasCause_of_not h.underway.noRecov)

/-- An atomic operation that completes leaves a sound state: it writes inside TXBUF only. -/
theorem Fresh.sound_atomic {s t : State} (h : Fresh s) (ht : AtomicResult s t) : Sound t := by
  obtain ⟨r0, r1, r2, r3, a, bs, n, e, r, rfl, hfit, hn⟩ := ht
  have haddr : ∀ i, i < bs.length → isBufferAddr (txAddr a + i) = true := fun i hi => by
    have : txAddr a + i = txAddr (a + i) := Nat.add_assoc ..
    rw [this]
    exact isBufferAddr_txAddr (by omega)
  refine RegsOk.sound_of_ended ⟨Memory.wf_writeList _ bs h.regs.memWf, Memory.mapped_writeList _ bs h.regs.memMapped haddr,
    ?_, h.regs.xferLe, h.regs.recByte, h.regs.beforeMem⟩ rfl rfl (fun hv => ?_) (recovHasCause_of_not h.underway.noRecov)
  · rcases hn with rfl | hn
    · exact h.regs.txlenLe
    · exact hn
  · exact (rxByte_of_keptOutside (fun _ hx => Memory.read_writeList_outside s.mem bs hx) hfit _).trans (h.frame hv)

/-- A framing read that begins agrees with the registers. -/
theorem Fresh.sound_startRead {s : State} (h : Fresh s) (r : ReadKind) :
    Sound (startLink (r.activity 0 s.timeout) s) := by
  refine RegsOk.sound_of_inFlight (f := { latch := s.latched, activity := r.activity 0 s.timeout })
    ⟨h.regs.memWf, h.regs.memMapped, h.regs.txlenLe, h.regs.xferLe, h.regs.recByte, h.regs.memWf, h.regs.memMapped⟩ rfl
    ((activityOk_read _ r _ _ _).mpr ?_) ⟨h.underway.notDone, h.underway.noError, h.underway.noRecov⟩
    (fun _ => filling_of_read r rfl)
  exact ⟨Nat.succ_pos _, rfl, h.xferZero, h.xbyteZero, rfl, fun _ _ => rfl⟩

/-- A SEND that begins agrees with the registers. -/
theorem Fresh.sound_startSend {s : State} (h : Fresh s) (hn : s.txlen ≠ 0) :
    Sound { startLink (.send 0) s with rxvalid := false, rxlen := 0 } :=
  RegsOk.sound_of_inFlight
    ⟨h.regs.memWf, h.regs.memMapped, h.regs.txlenLe, h.regs.xferLe, h.regs.recByte, h.regs.memWf, h.regs.memMapped⟩ rfl
    ⟨Nat.pos_of_ne_zero fun h0 => hn (BitVec.eq_of_toNat_eq h0), rfl, rfl, rfl⟩
    ⟨h.underway.notDone, h.underway.noError, h.underway.noRecov⟩ nofun

/-- The meaning of an accepted operation word leaves a sound state. -/
theorem Fresh.sound_exec {i : Instr} {s t : State} (h : Fresh s) {v : Word32} (hv : encode i = .opw v)
    (he : exec i s = .next t) : Sound t := by
  rcases exec_cases he with ⟨e, rfl⟩ | ht | ⟨-, hn, rfl⟩ | ⟨-, rfl⟩ | ⟨-, rfl⟩ | ⟨hw, -⟩
  · exact h.sound_raise e
  · exact h.sound_atomic ht
  · exact h.sound_startSend hn
  · exact h.sound_startRead .recv
  · exact h.sound_startRead .ptRecv
  · exact absurd hv (hw v)

/-- A write of OPW keeps the invariant. -/
theorem sound_writeOpw {w : Word32} {s t : State} (h : Sound s) (ht : writeOpw w s = .next t) : Sound t := by
  rcases writeOpw_cases ht with ⟨-, rfl⟩ | ⟨hb, i, v, -, hv, he⟩ | ⟨hb, e, rfl⟩
  · exact h.otherFields ..
  · exact (fresh_accept h ((busy_eq_false_iff s).mp hb) w).sound_exec hv he
  · exact (fresh_accept h ((busy_eq_false_iff s).mp hb) w).sound_raise e

/-! ### Every step -/

/-- Settles O17: each of the moves that a step can make keeps the invariant. -/
theorem stepKeepsSound : Obligations.StepKeepsSound := by
  intro s t h hstep
  rcases step_cases hstep with ⟨-, -, rfl⟩ | ⟨off, rest, -, -, rfl⟩ | ⟨off, v, rest, -, -, -, rfl⟩ | ⟨w, rest, -, hw⟩ |
    ⟨bytes, rest, -, rfl⟩ | ⟨rest, -, rfl⟩ | ⟨e, rest, -, -, rfl⟩ | ⟨f, rest, hf, hm, -⟩
  · exact h
  · exact h.otherFields ..
  · obtain ⟨a, b, e, m, c, hw⟩ := writeRegister_frame off v (moved rest s)
    exact hw ▸ (h.moveTaken rest).otherFields ..
  · exact sound_writeOpw (h.moveTaken rest) hw
  · exact h.otherFields ..
  · exact sound_resetMachine _
  · exact h.moveTaken rest
  · exact hm.sound (h.moveTaken rest) hf

/-- Settles O16: the reset state is what reset makes of itself, and reset leaves a sound state whatever came before. -/
theorem soundAfterReset : Obligations.SoundAfterReset :=
  ⟨sound_resetMachine State.reset, fun _ _ he => ⟨_, step_reset he, sound_resetMachine _⟩⟩

end Sys2Proof.Machine
end

section
/-! SUPPORT. Rules of the whole machine: what no operation writes, what an error leaves, who sets and clears RXVALID, and who
moves the two streams. -/

namespace Sys2Proof.Machine

/-! ### An operation's own step -/

/-- Settles O20: of the things a meaning can do, only raising leaves an error that was not there. -/
theorem errorsArePrecise : Obligations.ErrorsArePrecise := by
  intro i s t e hs h ht
  have keeps (hsame : t.error = s.error) : t = { s with error := some e, done := true, inflight := none } := by
    rw [hsame, hs] at ht
    cases ht
  rcases exec_cases h with ⟨e', rfl⟩ | hm
  · cases ht
    rfl
  · refine keeps ?_
    rcases hm with ⟨r0, r1, r2, r3, a, bs, n, x, r, rfl, -⟩ | ⟨-, -, rfl⟩ | ⟨-, rfl⟩ | ⟨-, rfl⟩ | ⟨-, k, rfl⟩ <;> rfl

/-- What no meaning writes (`10_state.md` R21, `60_exceptions.md` R284). -/
structure ExecFrame (s t : State) : Prop where
  opa : t.opa = s.opa
  opb : t.opb = s.opb
  opw : t.opw = s.opw
  timeout : t.timeout = s.timeout
  coll : t.coll = s.coll
  rx : t.rx = s.rx
  params : t.params = s.params
  events : t.events = s.events
  busData : t.busData = s.busData
  freeCount : t.freeCount = s.freeCount

theorem exec_frame {i : Instr} {s t : State} (h : exec i s = .next t) : ExecFrame s t := by
  rcases exec_cases h with
    ⟨e, rfl⟩ | ⟨r0, r1, r2, r3, a, bs, n, x, r, rfl, -⟩ | ⟨-, -, rfl⟩ | ⟨-, rfl⟩ | ⟨-, rfl⟩ | ⟨-, k, rfl⟩ <;>
    exact ⟨rfl, rfl, rfl, rfl, rfl, rfl, rfl, rfl, rfl, rfl⟩

/-- The meaning of an operation word does not touch the TX sink. -/
theorem exec_opw_sink {i : Instr} {v : Word32} {s t : State} (hv : encode i = .opw v) (h : exec i s = .next t) :
    t.sink = s.sink := by
  rcases exec_cases h with
    ⟨e, rfl⟩ | ⟨r0, r1, r2, r3, a, bs, n, x, r, rfl, -⟩ | ⟨-, -, rfl⟩ | ⟨-, rfl⟩ | ⟨-, rfl⟩ | ⟨hw, -⟩
  · rfl
  · rfl
  · rfl
  · rfl
  · rfl
  · exact absurd hv (hw v)

/-- A meaning leaves RXVALID alone, or begins a SEND and clears it. -/
theorem exec_rxvalid {i : Instr} {s t : State} (h : exec i s = .next t) :
    t.rxvalid = s.rxvalid ∨
      t.rxvalid = false ∧ t.inflight = some { latch := s.latched, activity := .send 0 } := by
  rcases exec_cases h with
    ⟨e, rfl⟩ | ⟨r0, r1, r2, r3, a, bs, n, x, r, rfl, -⟩ | ⟨-, -, rfl⟩ | ⟨-, rfl⟩ | ⟨-, rfl⟩ | ⟨-, k, rfl⟩
  · exact .inl rfl
  · exact .inl rfl
  · exact .inr ⟨rfl, rfl⟩
  · exact .inl rfl
  · exact .inl rfl
  · exact .inl rfl

/-! ### A link operation's move -/

/-- SEND's move changes the TX sink, the operation in flight and DONE alone. -/
theorem emitByte_frame {l : Latch} {i : ℕ} {s t : State} (h : emitByte l i s = .next t) :
    ∃ k f d, t = { s with sink := k, inflight := f, done := d } := by
  rcases emitByte_cases h with ⟨-, rfl⟩ | ⟨-, -, k, rfl, -⟩
  · exact ⟨_, _, _, rfl⟩
  · unfold advanceSend
    split <;> exact ⟨_, _, _, rfl⟩

/-- The recovery byte touches XBYTE, the error, RECOV, DONE and the operation in flight alone. -/
theorem recoveryByte_frame (o : FrameFail) (x : Byte) (s : State) :
    ∃ b e r, recoveryByte o x s = { s with xbyte := b, error := e, recov := r, done := true, inflight := none } := by
  rcases recoveryByte_cases o x s with h | h <;> exact ⟨_, _, _, h⟩

/-- What a link operation's move can change. -/
theorem linkMove_frame {f : InFlight} {s t : State} (h : LinkMove f s t) :
    ∃ m x b n v i d e c rx k,
      t = { s with mem := m, xfer := x, xbyte := b, rxlen := n, rxvalid := v, inflight := i, done := d, error := e
                   recov := c, rx := rx, sink := k } := by
  cases linkMove_cases h with
  | idles ht => exact ⟨_, _, _, _, _, _, _, _, _, _, _, ht⟩
  | sends he =>
    obtain ⟨k, f', d, rfl⟩ := emitByte_frame he
    exact ⟨_, _, _, _, _, _, _, _, _, _, _, rfl⟩
  | @reads l r k m hr =>
    rcases hr with ⟨b, rest, -, -, rfl⟩ | ⟨b, rest, -, -, rfl⟩ | rfl
    · exact ⟨_, _, _, _, _, _, _, _, _, _, _, rfl⟩
    · obtain ⟨x, b', n, v, f', d, e, h⟩ := r.ends_frame l (k + 1) (storeRx k b rest s)
      exact ⟨_, _, _, _, _, _, _, _, _, _, _, h⟩
    · obtain ⟨x, b, n, v, f', d, e, h⟩ := r.ends_frame l k s
      exact ⟨_, _, _, _, _, _, _, _, _, _, _, h⟩
  | recovers hr =>
    rcases hr with rfl | ⟨x, rest, -, rfl⟩
    · exact ⟨_, _, _, _, _, _, _, _, _, _, _, rfl⟩
    · obtain ⟨b, e, c, h⟩ := recoveryByte_frame _ x { s with rx := rest }
      exact ⟨_, _, _, _, _, _, _, _, _, _, _, h⟩

/-- A link operation's move leaves ECHOREF alone. -/
theorem linkMove_echoref {f : InFlight} {s t : State} (h : LinkMove f s t) : t.echoref = s.echoref := by
  obtain ⟨m, x, b, n, v, i, d, e, c, rx, k, rfl⟩ := linkMove_frame h
  rfl

/-- A link operation's move leaves the pending moves alone. -/
theorem linkMove_events {f : InFlight} {s t : State} (h : LinkMove f s t) : t.events = s.events := by
  obtain ⟨m, x, b, n, v, i, d, e, c, rx, k, rfl⟩ := linkMove_frame h
  rfl

/-- A link operation's move leaves the RX stream alone, or is the move of a read that takes the byte at its head. -/
theorem linkMove_rx {f : InFlight} {s t : State} (h : LinkMove f s t) :
    t.rx = s.rx ∨ (∃ b, s.rx = b :: t.rx) ∧ ∀ i, f.activity ≠ .send i := by
  cases linkMove_cases h with
  | idles ht => exact .inl (by rw [ht])
  | sends he =>
    obtain ⟨k, f', d, rfl⟩ := emitByte_frame he
    exact .inl rfl
  | reads r hr =>
    rcases hr with ⟨b, rest, hrx, -, rfl⟩ | ⟨b, rest, hrx, -, rfl⟩ | rfl
    · exact .inr ⟨⟨b, hrx⟩, r.activity_ne_send _ _⟩
    · exact .inr ⟨⟨b, by rw [r.ends_rx]; exact hrx⟩, r.activity_ne_send _ _⟩
    · exact .inl (r.ends_rx ..)
  | recovers hr =>
    rcases hr with rfl | ⟨x, rest, hrx, rfl⟩
    · exact .inl rfl
    · obtain ⟨b, e, c, h⟩ := recoveryByte_frame _ x { s with rx := rest }
      exact .inr ⟨⟨x, by rw [h]; exact hrx⟩, nofun⟩

/-- A SEND in flight at index `i` has handed over its byte, and goes on or has completed with its last byte. -/
def HandsOver (l : Latch) (i : ℕ) (s t : State) : Prop :=
  i < s.txlen.toNat ∧ t.sink.stream = s.sink.stream ++ [s.txByte i] ∧
    (t.inflight = some { latch := l, activity := .send (i + 1) } ∨
      t.inflight = none ∧ i + 1 = s.txlen.toNat ∧ t.done = true)

theorem emitByte_handsOver {l : Latch} {i : ℕ} {s t : State} (h : emitByte l i s = .next t) :
    t.sink.stream = s.sink.stream ∨ HandsOver l i s t := by
  rcases emitByte_cases h with ⟨-, rfl⟩ | ⟨hi, -, k, rfl, hk⟩
  · exact .inl rfl
  · unfold advanceSend
    split
    · exact .inr ⟨hi, hk, .inl rfl⟩
    · rename_i hlast
      have hlast : ¬ i + 1 < s.txlen.toNat := hlast
      exact .inr ⟨hi, hk, .inr ⟨rfl, by omega, rfl⟩⟩

/-- A link operation's move leaves the TX stream alone, or is SEND's hand-over of its next byte. -/
theorem linkMove_stream {f : InFlight} {s t : State} (h : LinkMove f s t) :
    t.sink.stream = s.sink.stream ∨ ∃ l i, f = { latch := l, activity := .send i } ∧ HandsOver l i s t := by
  cases linkMove_cases h with
  | idles ht => exact .inl (by rw [ht])
  | sends he => exact (emitByte_handsOver he).imp_right fun hh => ⟨_, _, rfl, hh⟩
  | reads r hr =>
    left
    rcases hr with ⟨b, rest, -, -, rfl⟩ | ⟨b, rest, -, -, rfl⟩ | rfl
    · rfl
    · rw [r.ends_sink]; rfl
    · rw [r.ends_sink]
  | recovers hr =>
    left
    rcases hr with rfl | ⟨x, rest, -, rfl⟩
    · rfl
    · obtain ⟨b, e, c, h⟩ := recoveryByte_frame _ x { s with rx := rest }
      rw [h]

/-! ### ECHOREF -/

/-- A write of OPW leaves ECHOREF alone, or is an accepted CB_ECHO, which gives it the word's byte. -/
theorem writeOpw_echoref {w : Word32} {s t : State} (h : writeOpw w s = .next t) :
    t.echoref = s.echoref ∨ ∃ b, s.busy = false ∧ decode w = .op (.cbEcho b) ∧ t.echoref = b := by
  rcases writeOpw_cases h with ⟨-, rfl⟩ | ⟨hb, i, v, hi, -, he⟩ | ⟨-, e, rfl⟩
  · exact .inl rfl
  · rcases exec_echoref he with hk | rfl
    · exact .inl hk
    · exact .inr ⟨_, hb, hi, rfl⟩
  · exact .inl rfl

/-- Settles O19: the frame of every meaning, and then the moves of a step one by one for ECHOREF. -/
theorem operationsKeepTheirOperands : Obligations.OperationsKeepTheirOperands := by
  refine ⟨fun i s t h => ?_, fun s t h => ?_⟩
  · obtain ⟨ha, hb, hw, hm, hc, hx, hp, he, hd, hn⟩ := exec_frame h
    exact ⟨ha, hb, hw, hm, hc, hx, hp, he, hd, hn, fun hi => (exec_echoref h).resolve_right (hi _)⟩
  · rcases step_cases h with ⟨-, -, rfl⟩ | ⟨off, rest, -, -, rfl⟩ | ⟨off, v, rest, -, -, -, rfl⟩ | ⟨w, rest, he, hw⟩ |
      ⟨bytes, rest, -, rfl⟩ | ⟨rest, he, -⟩ | ⟨e, rest, -, -, rfl⟩ | ⟨f, rest, -, hm, -⟩
    · exact .inl rfl
    · exact .inl rfl
    · obtain ⟨a, b, e, m, c, hw⟩ := writeRegister_frame off v (moved rest s)
      rw [hw]
      exact .inl rfl
    · rcases writeOpw_echoref hw with hk | ⟨b, hb, hd, ht⟩
      · exact .inl hk
      · exact .inr (.inr ⟨w, b, by rw [he]; rfl, hb, hd, ht⟩)
    · exact .inl rfl
    · exact .inr (.inl (by rw [he]; rfl))
    · exact .inl rfl
    · exact .inl (linkMove_echoref (s := moved rest s) hm)

/-! ### The host and the RX source while an operation is in flight -/

/-- A move of the host or of the RX source. -/
def FromOutside (e : Event) : Prop :=
  (∃ size off, e = .hostRead size off) ∨ (∃ size off v, e = .hostWrite size off v) ∨ ∃ bytes, e = .rxAppend bytes

theorem FromOutside.ne_reset {e : Event} (h : FromOutside e) : e ≠ .reset := by
  rcases h with ⟨_, _, rfl⟩ | ⟨_, _, _, rfl⟩ | ⟨_, rfl⟩ <;> exact nofun

theorem FromOutside.ne_link {e : Event} (h : FromOutside e) : ¬ (e = .engine ∨ e = .txTake ∨ e = .timeout) := by
  rcases h with ⟨_, _, rfl⟩ | ⟨_, _, _, rfl⟩ | ⟨_, rfl⟩ <;> exact nofun

/-- What such a move can change while BUSY = 1. -/
theorem outside_frame {s t : State} {e : Event} {rest : List Event} (hev : s.events = e :: rest) (hb : s.busy = true)
    (he : FromOutside e) (h : step s = .next t) :
    ∃ a b x m c rx ev d n,
      t = { s with opa := a, opb := b, explen := x, timeout := m, coll := c, rx := rx, events := ev, busData := d
                   freeCount := n } := by
  rcases step_cases h with ⟨h0, -⟩ | ⟨off, r, -, -, rfl⟩ | ⟨off, v, r, -, -, -, rfl⟩ | ⟨w, r, -, hw⟩ |
    ⟨bytes, r, -, rfl⟩ | ⟨r, h0, -⟩ | ⟨e', r, h0, hl, -⟩ | ⟨f, r, -, -, ⟨h0, -⟩ | ⟨e', h0, hl⟩⟩
  · cases hev.symm.trans h0
  · exact ⟨_, _, _, _, _, _, _, _, _, rfl⟩
  · obtain ⟨a, b, e, m, c, hw⟩ := writeRegister_frame off v (moved r s)
    exact ⟨_, _, _, _, _, _, _, _, _, hw⟩
  · rcases writeOpw_cases hw with ⟨-, rfl⟩ | ⟨hn, -⟩ | ⟨hn, -⟩
    · exact ⟨_, _, _, _, _, _, _, _, _, rfl⟩
    · cases hb.symm.trans hn
    · cases hb.symm.trans hn
  · exact ⟨_, _, _, _, _, _, _, _, _, rfl⟩
  · cases hev.symm.trans h0
    exact absurd rfl he.ne_reset
  · cases hev.symm.trans h0
    exact absurd hl he.ne_link
  · cases hev.symm.trans h0
  · cases hev.symm.trans h0
    exact absurd hl he.ne_link

/-- Settles O14: all that such a move can change lies outside the operation in flight. -/
theorem hostCannotTouchTheOperationInFlight : Obligations.HostCannotTouchTheOperationInFlight := by
  intro s t e rest hev hb he h
  obtain ⟨a, b, x, m, c, rx, ev, d, n, rfl⟩ := outside_frame hev hb he h
  exact ⟨rfl, rfl, rfl, rfl, rfl, rfl, rfl, rfl, rfl, rfl, rfl, rfl, rfl, rfl, rfl, rfl, rfl, rfl⟩

/-! ### RXVALID -/

/-- A framing read in flight has completed with a frame. -/
def FrameArrived (s t : State) : Prop :=
  ∃ l k m, (s.inflight = some { latch := l, activity := .recv k m } ∨
      s.inflight = some { latch := l, activity := .ptRecv k m }) ∧
    t.inflight = none ∧ t.done = true ∧ t.error = none ∧ t.rxlen = l.e ∧ t.rxByte l.e.toNat = 0x23

/-- A SEND has begun, a read has failed, or reset was asserted. -/
def FrameDropped (s t : State) : Prop :=
  (s.inflight = none ∧ ∃ l, t.inflight = some { latch := l, activity := .send 0 }) ∨
    (∃ l k m, s.inflight = some { latch := l, activity := .recv k m } ∧ t.inflight = none ∧
      (t.error = some (.protocol .short) ∨ t.error = some (.protocol .badTerm))) ∨
    (∃ l k m o m', s.inflight = some { latch := l, activity := .ptRecv k m } ∧
      t.inflight = some { latch := l, activity := .ptRecovery o m' }) ∨
    s.events.head? = some .reset

/-- What becomes of RXVALID. -/
def RxValidFate (s t : State) : Prop :=
  t.rxvalid = s.rxvalid ∨ t.rxvalid = true ∧ FrameArrived s t ∨ t.rxvalid = false ∧ FrameDropped s t

/-- The end of a framing read's attempt sets RXVALID or clears it. -/
theorem ends_rxValidFate {s u : State} {r : ReadKind} {l : Latch} {k : ℕ} {m : Word32} (k' : ℕ)
    (hf : s.inflight = some { latch := l, activity := r.activity k m }) (he : u.error = none) :
    RxValidFate s (r.ends l k' u) := by
  rcases r.ends_cases l k' u with ⟨ho, h⟩ | ⟨o, -, ⟨rfl, h⟩ | ⟨rfl, h⟩⟩ <;> rw [h]
  · obtain ⟨-, hterm⟩ := (frameOutcome_none_iff l.e k' u).mp ho
    refine .inr (.inl ⟨rfl, l, k, m, ?_, rfl, rfl, he, rfl, hterm⟩)
    cases r
    · exact .inl hf
    · exact .inr hf
  · exact .inr (.inr ⟨rfl, .inr (.inl ⟨l, k, m, hf, rfl, by cases o <;> [left; right] <;> rfl⟩)⟩)
  · exact .inr (.inr ⟨rfl, .inr (.inr (.inl ⟨l, k, m, o, l.t, hf, rfl⟩))⟩)

/-- What a link operation's move makes of RXVALID. -/
theorem linkMove_rxValidFate {f : InFlight} {s t : State} (rest : List Event) (hm : LinkMove f (moved rest s) t)
    (hf : s.inflight = some f) (he : s.error = none) : RxValidFate s t := by
  cases linkMove_cases hm with
  | idles ht => exact .inl (by rw [ht]; rfl)
  | sends hs =>
    obtain ⟨k, f', d, rfl⟩ := emitByte_frame hs
    exact .inl rfl
  | reads r hr =>
    rcases hr with ⟨b, tl, -, -, rfl⟩ | ⟨b, tl, -, -, rfl⟩ | rfl
    · exact .inl rfl
    · exact ends_rxValidFate _ hf he
    · exact ends_rxValidFate _ hf he
  | recovers hr =>
    rcases hr with rfl | ⟨x, tl, -, rfl⟩
    · exact .inl rfl
    · obtain ⟨b, e, c, h⟩ := recoveryByte_frame _ x { moved rest s with rx := tl }
      exact .inl (by rw [h]; rfl)

/-- What a step makes of RXVALID. -/
theorem step_rxValidFate {s t : State} (hs : Sound s) (h : step s = .next t) : RxValidFate s t := by
  rcases step_cases h with ⟨-, -, rfl⟩ | ⟨off, rest, -, -, rfl⟩ | ⟨off, v, rest, -, -, -, rfl⟩ | ⟨w, rest, he, hw⟩ |
    ⟨bytes, rest, -, rfl⟩ | ⟨rest, he, rfl⟩ | ⟨e, rest, -, -, rfl⟩ | ⟨f, rest, hf, hm, -⟩
  · exact .inl rfl
  · exact .inl rfl
  · obtain ⟨a, b, e, m, c, hw⟩ := writeRegister_frame off v (moved rest s)
    exact .inl (by rw [hw]; rfl)
  · rcases writeOpw_cases hw with ⟨-, rfl⟩ | ⟨hb, i, v, -, -, hx⟩ | ⟨-, e, rfl⟩
    · exact .inl rfl
    · rcases exec_rxvalid hx with hk | ⟨hv, hi⟩
      · exact .inl hk
      · exact .inr (.inr ⟨hv, .inl ⟨(busy_eq_false_iff s).mp hb, _, hi⟩⟩)
    · exact .inl rfl
  · exact .inl rfl
  · exact .inr (.inr ⟨rfl, .inr (.inr (.inr (by rw [he]; rfl)))⟩)
  · exact .inl rfl
  · exact linkMove_rxValidFate rest hm hf (hs.underway hf).noError

/-- Settles O21: a change of RXVALID is one of the two that a step can make. -/
theorem rxValidChangesOnlyOnReads : Obligations.RxValidChangesOnlyOnReads := by
  intro s t hs h
  rcases step_rxValidFate hs h with hk | ⟨hv, ha⟩ | ⟨hv, hd⟩
  · exact ⟨fun h0 h1 => by simp [hk, h0] at h1, fun h1 h0 => by simp [hk, h1] at h0⟩
  · exact ⟨fun _ _ => ha, fun _ h0 => by simp [hv] at h0⟩
  · exact ⟨fun _ h1 => by simp [hv] at h1, fun _ _ => hd⟩

/-! ### The two streams -/

/-- A write of OPW touches neither stream. -/
theorem writeOpw_streams {w : Word32} {s t : State} (h : writeOpw w s = .next t) : t.rx = s.rx ∧ t.sink = s.sink := by
  rcases writeOpw_cases h with ⟨-, rfl⟩ | ⟨-, i, v, -, hv, he⟩ | ⟨-, e, rfl⟩
  · exact ⟨rfl, rfl⟩
  · exact ⟨(exec_frame he).rx, exec_opw_sink (s := accept w s) hv he⟩
  · exact ⟨rfl, rfl⟩

/-- Settles O23: of the moves of a step only SEND's touches the TX stream. -/
theorem txStreamGrowsInBufferOrder : Obligations.TxStreamGrowsInBufferOrder := by
  intro s t h
  rcases step_cases h with ⟨-, -, rfl⟩ | ⟨off, rest, -, -, rfl⟩ | ⟨off, v, rest, -, -, -, rfl⟩ | ⟨w, rest, -, hw⟩ |
    ⟨bytes, rest, -, rfl⟩ | ⟨rest, -, rfl⟩ | ⟨e, rest, -, -, rfl⟩ | ⟨f, rest, hf, hm, -⟩
  · exact .inl rfl
  · exact .inl rfl
  · obtain ⟨a, b, e, m, c, hw⟩ := writeRegister_frame off v (moved rest s)
    rw [hw]
    exact .inl rfl
  · exact .inl (congrArg TxSink.stream (writeOpw_streams hw).2)
  · exact .inl rfl
  · exact .inl rfl
  · exact .inl rfl
  · rcases linkMove_stream hm with hk | ⟨l, i, rfl, hi, hs, hn⟩
    · exact .inl hk
    · exact .inr ⟨l, i, hf, hi, hs, hn⟩

/-- The TX sink's turn does not touch the RX stream. -/
theorem step_txTake_rx {s t : State} {rest : List Event} (he : s.events = .txTake :: rest) (h : step s = .next t) :
    t.rx = s.rx := by
  have hs : step s = sinkStep (moved rest s) := by
    unfold step
    rw [he]
    rfl
  rw [hs] at h
  unfold sinkStep at h
  split at h
  · split at h
    · obtain ⟨k, f, d, rfl⟩ := emitByte_frame h
      rfl
    all_goals cases h; rfl
  · cases h
    rfl

/-- A timeout takes no byte. -/
theorem expireAttempt_rx (f : InFlight) (s : State) : (expireAttempt f s).rx = s.rx := by
  obtain ⟨l, a⟩ := f
  cases a with
  | send i => rfl
  | recv k m => exact ReadKind.recv.ends_rx l k s
  | ptRecv k m => exact ReadKind.ptRecv.ends_rx l k s
  | ptRecovery o m => rfl

/-- What becomes of the RX stream: nothing, bytes arrive at its end, or an engine move of a read takes its head. -/
def RxFate (s t : State) : Prop :=
  t.rx = s.rx ∨ (∃ bytes, s.events.head? = some (.rxAppend bytes) ∧ t.rx = s.rx ++ bytes) ∨
    (∃ b f, (s.events.head? = some .engine ∨ s.events = []) ∧ s.rx = b :: t.rx ∧ s.inflight = some f ∧
      ∀ i, f.activity ≠ .send i)

/-- What a step makes of the RX stream. -/
theorem step_rxFate {s t : State} (h : step s = .next t) : RxFate s t := by
  rcases step_cases h with ⟨-, -, rfl⟩ | ⟨off, rest, -, -, rfl⟩ | ⟨off, v, rest, -, -, -, rfl⟩ | ⟨w, rest, -, hw⟩ |
    ⟨bytes, rest, he, rfl⟩ | ⟨rest, -, rfl⟩ | ⟨e, rest, -, -, rfl⟩ | ⟨f, rest, hf, hm, hev⟩
  · exact .inl rfl
  · exact .inl rfl
  · obtain ⟨a, b, e, m, c, hw⟩ := writeRegister_frame off v (moved rest s)
    exact .inl (by rw [hw]; rfl)
  · exact .inl (writeOpw_streams hw).1
  · exact .inr (.inl ⟨bytes, by rw [he]; rfl, rfl⟩)
  · exact .inl rfl
  · exact .inl rfl
  · have taken (hg : s.events.head? = some .engine ∨ s.events = []) : RxFate s t :=
      (linkMove_rx hm).imp_right fun ⟨⟨b, hb⟩, hn⟩ => .inr ⟨b, f, hg, hb, hf, hn⟩
    rcases hev with ⟨he, -⟩ | ⟨e, he, rfl | rfl | rfl⟩
    · exact taken (.inr he)
    · exact taken (.inl (by rw [he]; rfl))
    · exact .inl (step_txTake_rx he h)
    · rw [step_timeout he hf] at h
      cases h
      exact .inl (expireAttempt_rx f _)

/-- Where a byte is waiting, the engine's move of a read in flight is an engine step, with or without a move pending. -/
theorem step_engineTakes {s : State} {f : InFlight} (he : s.events.head? = some .engine ∨ s.events = [])
    (hf : s.inflight = some f) (hn : ∀ i, f.activity ≠ .send i) (hrx : s.rx ≠ []) :
    ∃ rest, step s = .next (engineStep f (moved rest s)) := by
  rcases he with he | he
  · obtain ⟨rest, he⟩ := List.head?_eq_some_iff.mp he
    exact ⟨rest, step_engine he hf⟩
  · exact ⟨[], by rw [step_readGoesOn he hf hn, if_neg hrx]⟩

/-- An engine step of a framing read that wants a byte takes the one that waits. -/
theorem engineStep_read_rx (r : ReadKind) {l : Latch} {k : ℕ} {m : Word32} {b : Byte} {rest : List Byte} {s : State}
    (hrx : s.rx = b :: rest) (hk : k < frameLen l.e) :
    (engineStep { latch := l, activity := r.activity k m } s).rx = rest := by
  rcases Nat.lt_or_eq_of_le (show k + 1 ≤ frameLen l.e from hk) with hk | hk
  · rw [engineStep_read_more r hrx hk]
    rfl
  · rw [engineStep_read_last r hrx hk, r.ends_rx]
    rfl

/-- An engine step of a recovery read takes the byte that waits. -/
theorem engineStep_ptRecovery_rx {l : Latch} {o : FrameFail} {m : Word32} {x : Byte} {rest : List Byte} {s : State}
    (hrx : s.rx = x :: rest) : (engineStep { latch := l, activity := .ptRecovery o m } s).rx = rest := by
  rw [engineStep_ptRecovery hrx]
  obtain ⟨b, e, c, h⟩ := recoveryByte_frame o x { s with rx := rest }
  rw [h]

/-- Settles O22: what the moves of a step make of the RX stream, the arrival of bytes, and the engine step of each read. -/
theorem rxStreamIsTakenFromTheHead : Obligations.RxStreamIsTakenFromTheHead := by
  refine ⟨fun s t => step_rxFate, fun s bytes rest he => ?_, fun s l k m o b tl he hrx hact => ?_⟩
  · unfold step
    rw [he]
    rfl
  · have hne : s.rx ≠ [] := by rw [hrx]; exact List.cons_ne_nil _ _
    have reads (r : ReadKind) (hk : k ≤ l.e.toNat)
        (hf : s.inflight = some { latch := l, activity := r.activity k m }) : ∃ t, step s = .next t ∧ t.rx = tl := by
      obtain ⟨rest, hs⟩ := step_engineTakes he hf (r.activity_ne_send k m) hne
      exact ⟨_, hs, engineStep_read_rx r (s := moved rest s) hrx (Nat.lt_succ_of_le hk)⟩
    rcases hact with ⟨hk, hf | hf⟩ | hf
    · exact reads .recv hk hf
    · exact reads .ptRecv hk hf
    · obtain ⟨rest, hs⟩ := step_engineTakes he hf nofun hne
      exact ⟨_, hs, engineStep_ptRecovery_rx (s := moved rest s) hrx⟩

end Sys2Proof.Machine
end

section
/-! SUPPORT. The register space (`20_memory.md` R62 to R65): what the host reads at every offset, and what it stores. -/

namespace Sys2Proof.Machine

/-! ### Words as arithmetic -/

/-- STATUS as the host reads it, field by field (`10_state.md` R24). -/
theorem statusWord_eq (s : State) :
    statusWord s = BitVec.ofNat 32 (s.busy.toNat + 2 * s.done.toNat + 4 * s.coll.toNat + 8 * s.rxvalid.toNat +
      16 * (errCode s.error).toNat + 256 * (detailCode s.error).toNat + 65536 * s.recov.toNat) := by
  apply eq_ofNat_of_toNat
  unfold statusWord
  simp only [append_toNat, BitVec.toNat_ofBool]
  have h0 : (0#15).toNat = 0 := rfl
  rw [h0]
  omega

/-- XFER as the host reads it (`10_state.md` R25). -/
theorem xferWord_eq (x : Xfer) : xferWord x = BitVec.ofNat 32 (x.expLen.toNat + 2 ^ 16 * x.actLen.toNat) := by
  apply eq_ofNat_of_toNat
  unfold xferWord
  simp only [append_toNat]
  have h0 : (0#7).toNat = 0 := rfl
  rw [h0]
  omega

/-- XBYTE as the host reads it (`10_state.md` R26). -/
theorem xbyteWord_eq (x : Xbyte) :
    xbyteWord x = BitVec.ofNat 32 (x.last.toNat + 2 ^ 8 * x.recByte.toNat + 2 ^ 16 * x.recGot.toNat) := by
  apply eq_ofNat_of_toNat
  unfold xbyteWord
  simp only [append_toNat, BitVec.toNat_ofBool]
  have h0 : (0#15).toNat = 0 := rfl
  rw [h0]
  omega

theorem loWord_eq (v : Word64) : loWord v = BitVec.ofNat 32 (v.toNat % 2 ^ 32) := eq_ofNat_of_toNat (loWord_toNat v)

theorem hiWord_eq (v : Word64) : hiWord v = BitVec.ofNat 32 (v.toNat / 2 ^ 32) := eq_ofNat_of_toNat (hiWord_toNat v)

/-- A register narrower than a word reads with zeros above it. -/
theorem zeroExtend_eq {n : ℕ} (v : BitVec n) (h : n ≤ 32) : v.zeroExtend 32 = BitVec.ofNat 32 v.toNat := by
  apply eq_ofNat_of_toNat
  have : (2 : ℕ) ^ n ≤ 2 ^ 32 := Nat.pow_le_pow_right Nat.two_pos h
  rw [BitVec.toNat_setWidth, Nat.mod_eq_of_lt (lt_of_lt_of_le v.isLt this)]

/-- Storing the LO half leaves HI as it is (`20_memory.md` R63). -/
theorem storeLo_eq (a : Word64) (v : Word32) :
    hiWord a ++ v = BitVec.ofNat 64 (a.toNat / 2 ^ 32 * 2 ^ 32 + v.toNat) := by
  apply BitVec.eq_of_toNat_eq
  have := a.isLt
  have := v.isLt
  rw [append_toNat, hiWord_toNat, BitVec.toNat_ofNat]
  omega

/-- Storing the HI half leaves LO as it is (`20_memory.md` R63). -/
theorem storeHi_eq (a : Word64) (v : Word32) :
    v ++ loWord a = BitVec.ofNat 64 (v.toNat * 2 ^ 32 + a.toNat % 2 ^ 32) := by
  apply BitVec.eq_of_toNat_eq
  have := v.isLt
  rw [append_toNat, loWord_toNat, BitVec.toNat_ofNat]
  omega

/-! ### Reads -/

/-- The registers that read as they stand, whether or not an operation is in flight. -/
theorem reads_plainRegisters (s : State) :
    ∀ r ∈ [((0x000 : BitVec 12), s.opw.toNat),
        (0x010, s.opa.toNat % 2 ^ 32), (0x014, s.opa.toNat / 2 ^ 32), (0x018, s.opb.toNat % 2 ^ 32),
        (0x01C, s.opb.toNat / 2 ^ 32), (0x020, s.res0.toNat % 2 ^ 32), (0x024, s.res0.toNat / 2 ^ 32),
        (0x028, s.res1.toNat % 2 ^ 32), (0x02C, s.res1.toNat / 2 ^ 32), (0x030, s.res2.toNat % 2 ^ 32),
        (0x034, s.res2.toNat / 2 ^ 32), (0x038, s.res3.toNat % 2 ^ 32), (0x03C, s.res3.toNat / 2 ^ 32),
        (0x040, s.txlen.toNat), (0x044, s.explen.toNat), (0x04C, s.echoref.toNat), (0x050, s.timeout.toNat)],
      HostReads s r.1 (BitVec.ofNat 32 r.2) := by
  simp only [List.forall_mem_cons, List.not_mem_nil, false_implies, implies_true, and_true]
  refine ⟨?_, ?_, ?_, ?_, ?_, ?_, ?_, ?_, ?_, ?_, ?_, ?_, ?_, ?_, ?_, ?_, ?_⟩ <;> refine hostReads_of rfl ?_
  · exact eq_ofNat_of_toNat rfl
  · exact loWord_eq s.opa
  · exact hiWord_eq s.opa
  · exact loWord_eq s.opb
  · exact hiWord_eq s.opb
  · exact loWord_eq s.res0
  · exact hiWord_eq s.res0
  · exact loWord_eq s.res1
  · exact hiWord_eq s.res1
  · exact loWord_eq s.res2
  · exact hiWord_eq s.res2
  · exact loWord_eq s.res3
  · exact hiWord_eq s.res3
  · exact zeroExtend_eq s.txlen (by norm_num)
  · exact zeroExtend_eq s.explen (by norm_num)
  · exact zeroExtend_eq s.echoref (by norm_num)
  · exact eq_ofNat_of_toNat rfl

/-- A read of a register that a link operation writes shows one of the two moments: what holds of both holds of it. -/
theorem shownRegs_field {α : Type} (s : State) (off : BitVec 12) (g : LinkRegs → α) :
    g (s.shownRegs off) = g s.linkRegs ∨ s.busy = true ∧ g (s.shownRegs off) = g s.before :=
  (shownRegs_cases s off).imp (congrArg g) fun ⟨hb, h⟩ => ⟨hb, congrArg g h⟩

/-- STATUS with the numbers of its error (`10_state.md` R24). -/
theorem reads_status (s : State) {err detail : ℕ} (he : (errCode s.error).toNat = err)
    (hd : (detailCode s.error).toNat = detail) :
    ∃ v : Bool, (v = s.rxvalid ∨ s.busy = true ∧ v = s.before.rxvalid) ∧
      HostReads s 0x004 (BitVec.ofNat 32 (s.busy.toNat + 2 * s.done.toNat + 4 * s.coll.toNat + 8 * v.toNat +
        16 * err + 256 * detail + 65536 * s.recov.toNat)) := by
  refine ⟨_, shownRegs_field s 0x004 LinkRegs.rxvalid, hostReads_of rfl ?_⟩
  subst he hd
  exact statusWord_eq _

/-- The packed TXBUF words (`20_memory.md` R64). -/
theorem reads_txbuf (s : State) {j : ℕ} (hj : j < 8) :
    HostReads s (BitVec.ofNat 12 (0x100 + 4 * j))
      (BitVec.ofNat 32 ((s.txByte (4 * j)).toNat + 2 ^ 8 * (s.txByte (4 * j + 1)).toNat +
        2 ^ 16 * (s.txByte (4 * j + 2)).toNat + 2 ^ 24 * (s.txByte (4 * j + 3)).toNat)) := by
  have hoff : (BitVec.ofNat 12 (0x100 + 4 * j)).toNat = 0x100 + 4 * j := by
    rw [BitVec.toNat_ofNat, Nat.mod_eq_of_lt (by omega)]
  refine hostReads_of (by omega) ?_
  rw [readRegister_other s _ (by omega), hoff, if_pos ((isBufferAddr_iff _).mpr (by omega)),
    if_pos (by simp only [Config.rxBase]; omega), bufferWord_eq]
  rfl

/-- The packed RXBUF words (`20_memory.md` R64, R74). -/
theorem reads_rxbuf (s : State) {j : ℕ} (hj : j < 64) :
    ∃ b : ℕ → Byte, (b = s.rxByte ∨ s.busy = true ∧ ∀ i, b i = s.before.mem.read (0x200 + i)) ∧
      HostReads s (BitVec.ofNat 12 (0x200 + 4 * j))
        (BitVec.ofNat 32 ((b (4 * j)).toNat + 2 ^ 8 * (b (4 * j + 1)).toNat + 2 ^ 16 * (b (4 * j + 2)).toNat +
          2 ^ 24 * (b (4 * j + 3)).toNat)) := by
  have hoff : (BitVec.ofNat 12 (0x200 + 4 * j)).toNat = 0x200 + 4 * j := by
    rw [BitVec.toNat_ofNat, Nat.mod_eq_of_lt (by omega)]
  refine ⟨fun i => (s.shownRegs (BitVec.ofNat 12 (0x200 + 4 * j))).mem.read (rxAddr i), ?_, hostReads_of (by omega) ?_⟩
  · rcases shownRegs_field s (BitVec.ofNat 12 (0x200 + 4 * j)) LinkRegs.mem with h | ⟨hb, h⟩ <;> rw [h]
    · exact .inl rfl
    · exact .inr ⟨hb, fun _ => rfl⟩
  · rw [readRegister_other s _ (by omega), hoff, if_pos ((isBufferAddr_iff _).mpr (by omega)),
      if_neg (by simp only [Config.rxBase]; omega), bufferWord_eq]
    rfl

/-- A reserved offset reads 0 (`20_memory.md` R62). -/
theorem reads_reserved (s : State) {off : BitVec 12} (h4 : off.toNat % 4 = 0)
    (h : 0x054 ≤ off.toNat ∧ off.toNat < 0x100 ∨ 0x120 ≤ off.toNat ∧ off.toNat < 0x200 ∨ 0x300 ≤ off.toNat) :
    HostReads s off 0 := by
  refine hostReads_of h4 ?_
  rw [readRegister_other s off (by omega), if_neg]
  rw [isBufferAddr_iff]
  omega

/-- Settles O10: the offsets, kind by kind. -/
theorem hostReadsTheRegisterMap : Obligations.HostReadsTheRegisterMap := by
  intro s
  refine ⟨reads_plainRegisters s, ?_, fun j hj => reads_txbuf s hj, fun off h4 h => reads_reserved s h4 h, ?_, ?_, ?_,
    fun j hj => reads_rxbuf s hj⟩
  · simp only [List.forall_mem_cons, List.not_mem_nil, false_implies, implies_true, and_true]
    refine ⟨?_, ?_, ?_, ?_, ?_, ?_, ?_, ?_, ?_, ?_, ?_, ?_, ?_, ?_, ?_, ?_, ?_, ?_, ?_, ?_, ?_, ?_, ?_, ?_⟩ <;>
      exact fun he => reads_status s (by rw [he]; rfl) (by rw [he]; rfl)
  · exact ⟨_, shownRegs_field s 0x008 LinkRegs.xfer, hostReads_of rfl (xferWord_eq _)⟩
  · exact ⟨_, shownRegs_field s 0x00C LinkRegs.xbyte, hostReads_of rfl (xbyteWord_eq _)⟩
  · exact ⟨_, shownRegs_field s 0x048 LinkRegs.rxlen, hostReads_of rfl (zeroExtend_eq _ (by norm_num))⟩

/-! ### Writes -/

/-- What the host stores at a register's offset. -/
theorem hostWrites_of {s t : State} {off : BitVec 12} {v : Word32} (h4 : off.toNat % 4 = 0) (h0 : off ≠ 0)
    (h : ∀ rest, writeRegister off v (moved rest s) = moved rest { t with freeCount := s.freeCount }) :
    HostWrites s off v t := by
  intro rest
  rw [write_step s off v h4 h0, h]
  rfl

/-- A read-only or reserved offset ignores a write (`20_memory.md` R62, R65). -/
theorem writeRegister_ignored {off : BitVec 12} (v : Word32) (s : State)
    (h : off ∉ [(0x000 : BitVec 12), 0x004, 0x010, 0x014, 0x018, 0x01C, 0x044, 0x050]) :
    writeRegister off v s = s := by
  unfold writeRegister
  split
  case h_8 => rfl
  all_goals exact absurd (by decide) h

/-- Settles O11: the offsets that store something, one by one, and then all others. -/
theorem hostWritesTheRegisterMap : Obligations.HostWritesTheRegisterMap := by
  intro s v
  refine ⟨?_, ?_, ?_, ?_, ?_, ?_, ?_, fun off h4 h => ?_⟩
  · refine hostWrites_of rfl (by decide) fun rest => ?_
    change (if v.getLsbD 2 then { moved rest s with coll := false } else moved rest s) = _
    cases v.getLsbD 2 <;> simp [moved]
  · rw [← storeLo_eq]
    exact hostWrites_of rfl (by decide) fun _ => rfl
  · rw [← storeHi_eq]
    exact hostWrites_of rfl (by decide) fun _ => rfl
  · rw [← storeLo_eq]
    exact hostWrites_of rfl (by decide) fun _ => rfl
  · rw [← storeHi_eq]
    exact hostWrites_of rfl (by decide) fun _ => rfl
  · have hlow : BitVec.ofNat 8 v.toNat = v.extractLsb' 0 8 := by
      apply BitVec.eq_of_toNat_eq
      simp
    rw [hlow]
    exact hostWrites_of rfl (by decide) fun _ => rfl
  · exact hostWrites_of rfl (by decide) fun _ => rfl
  · have h0 : off ≠ 0 := fun h0 => h (h0 ▸ List.mem_cons_self)
    exact hostWrites_of h4 h0 fun rest => writeRegister_ignored v (moved rest s) h

end Sys2Proof.Machine
end

section
/-! SUPPORT. The builders and decoders of locations and times (`41_command_builder.md` R174, R176, `42_response_framer.md`
R223 to R225), in terms of the numbers that their fields hold. -/

namespace Sys2Proof.Machine

/-! ### Fields of a word -/

/-- Bits of a word, as arithmetic. -/
theorem extractLsb'_toNat_div {n : ℕ} (w : BitVec n) (a m : ℕ) : (w.extractLsb' a m).toNat = w.toNat / 2 ^ a % 2 ^ m := by
  rw [BitVec.extractLsb'_toNat, Nat.shiftRight_eq_div_pow]

/-- A byte of a 64-bit operand, as arithmetic. -/
theorem byteOf_eq (w : Word64) (i : ℕ) : byteOf w i = BitVec.ofNat 8 (w.toNat / 2 ^ (8 * i)) := by
  apply BitVec.eq_of_toNat_eq
  rw [byteOf, extractLsb'_toNat_div, BitVec.toNat_ofNat]

/-- The low byte of a field. -/
theorem field_zeroExtend (w : Word64) (a n : ℕ) :
    (w.extractLsb' a n).zeroExtend 8 = BitVec.ofNat 8 (w.toNat / 2 ^ a % 2 ^ n) := by
  apply BitVec.eq_of_toNat_eq
  rw [BitVec.toNat_setWidth, extractLsb'_toNat_div, BitVec.toNat_ofNat]

/-! ### CB_SETLOC -/

theorem dmsFieldsOk_iff (w : Word64) :
    dmsFieldsOk w = true ↔ w.toNat / 2 ^ 8 % 2 ^ 6 ≤ 59 ∧ w.toNat % 2 ^ 6 ≤ 59 := by
  simp only [dmsFieldsOk, unpackDms, decide_eq_true_iff, extractLsb'_toNat_div, pow_zero, Nat.div_one]

/-- The location bytes of a DMS word are its fields (`10_state.md` R30). -/
theorem locationBytes_eq (w : Word64) :
    locationBytes w =
      [w.toNat / 2 ^ 16 % 2 ^ 8, w.toNat / 2 ^ 8 % 2 ^ 6, w.toNat % 2 ^ 6, w.toNat / 2 ^ 24 % 2].map (BitVec.ofNat 8) := by
  have hdeg : w.extractLsb' 16 8 = BitVec.ofNat 8 (w.toNat / 2 ^ 16 % 2 ^ 8) := by
    apply BitVec.eq_of_toNat_eq
    rw [extractLsb'_toNat_div, BitVec.toNat_ofNat, Nat.mod_mod]
  rw [locationBytes, hdeg, field_zeroExtend w 8, field_zeroExtend w 0, field_zeroExtend w 24, pow_zero, Nat.div_one]
  rfl

/-- CB_SETLOC with fields in range emits its frame. -/
theorem exec_cbSetloc_ok {s : State} (ha : dmsFieldsOk s.opa = true) (hb : dmsFieldsOk s.opb = true) :
    exec .cbSetloc s =
      finish s (.ok (emit ([0x57] ++ locationBytes s.opa ++ locationBytes s.opb) s.params.respLen.setLocation s)) := by
  change execCbSetloc s = _
  rw [execCbSetloc, if_neg (by rw [ha]; decide), if_neg (by rw [hb]; decide)]

/-- CB_SETLOC with a field out of range raises BAD_DMS_FIELD. -/
theorem exec_cbSetloc_error {s : State} (h : ¬ (dmsFieldsOk s.opa = true ∧ dmsFieldsOk s.opb = true)) :
    exec .cbSetloc s = finish s (.error (.usage .badDmsField)) := by
  change execCbSetloc s = _
  rw [execCbSetloc]
  by_cases ha : dmsFieldsOk s.opa = true
  · have hb : dmsFieldsOk s.opb = false := by simpa using fun hb => h ⟨ha, hb⟩
    rw [if_neg (by rw [ha]; decide), if_pos (by rw [hb]; rfl)]
  · rw [if_pos (by simpa using ha)]

/-- Settles O45: the checks and the bytes of CB_SETLOC are about the fields of the two words. -/
theorem setLocationBuilds : Obligations.SetLocationBuilds := by
  intro s
  have hok := and_congr (dmsFieldsOk_iff s.opa) (dmsFieldsOk_iff s.opb)
  rw [and_assoc] at hok
  refine ⟨fun h hwf => ?_, fun h => raises_of_finish (exec_cbSetloc_error (mt hok.mp h))⟩
  obtain ⟨ha, hb⟩ := hok.mpr h
  refine builds_of_finish hwf ?_
  rw [exec_cbSetloc_ok ha hb, locationBytes_eq, locationBytes_eq]
  rfl

/-! ### CB_SETTIME -/

/-- The time bytes of a word are its low six bytes (`10_state.md` R31). -/
theorem timeBytes_eq (w : Word64) : timeBytes w = (List.range 6).map fun i => BitVec.ofNat 8 (w.toNat / 2 ^ (8 * i)) := by
  simp only [timeBytes, byteOf_eq]
  rfl

/-- The low byte of a word is its signed value modulo 256. -/
theorem byteOf_zero_toInt (w : Word64) : byteOf w 0 = BitVec.ofInt 8 (w.toInt % 256) := by
  apply BitVec.eq_of_toNat_eq
  rw [byteOf_eq, BitVec.toNat_ofNat, BitVec.toNat_ofInt, BitVec.toInt_eq_toNat_cond]
  split <;> omega

/-- CB_SETTIME with flag and offset in range emits its frame. -/
theorem exec_cbSettime_ok {dst : Byte} {s : State} (hd : dst.toNat ≤ 1) (h1 : -128 ≤ s.opb.toInt) (h2 : s.opb.toInt ≤ 127) :
    exec (.cbSettime dst) s =
      finish s (.ok (emit ([0x48] ++ timeBytes s.opa ++ [byteOf s.opb 0, dst]) s.params.respLen.setTime s)) := by
  change execCbSettime dst s = _
  rw [execCbSettime, if_neg (by omega), if_neg (by omega)]

/-- CB_SETTIME checks the flag first. -/
theorem exec_cbSettime_badFlag {dst : Byte} (s : State) (hd : 2 ≤ dst.toNat) :
    exec (.cbSettime dst) s = finish s (.error (.usage .badFlag)) := by
  change execCbSettime dst s = _
  rw [execCbSettime, if_pos (by omega)]

/-- CB_SETTIME checks the offset next. -/
theorem exec_cbSettime_badOffset {dst : Byte} {s : State} (hd : dst.toNat ≤ 1)
    (h : s.opb.toInt < -128 ∨ 127 < s.opb.toInt) :
    exec (.cbSettime dst) s = finish s (.error (.usage .badOffset)) := by
  change execCbSettime dst s = _
  rw [execCbSettime, if_neg (by omega), if_pos h]

/-- Settles O46: CB_SETTIME's two checks in their order, and its frame byte for byte. -/
theorem setTimeBuilds : Obligations.SetTimeBuilds := by
  intro dst s
  refine ⟨fun hd => raises_of_finish (exec_cbSettime_badFlag s hd), fun hd => ⟨fun h =>
    raises_of_finish (exec_cbSettime_badOffset hd h), fun h1 h2 hwf => builds_of_finish hwf ?_⟩⟩
  rw [exec_cbSettime_ok hd h1 h2, timeBytes_eq, byteOf_zero_toInt]

/-! ### The decoders' frames -/

theorem hasFrame_of {s : State} {n : Byte} (hv : s.rxvalid = true) (hn : s.rxlen = n) : hasFrame s n = true := by
  simp [hasFrame, hv, hn]

/-! ### DEC_TRK -/

theorem exec_decTrk_some {s : State} {v : Word64} (hf : hasFrame s s.params.respLen.getTrackingMode = true)
    (h : decodeTracking (trackingByte s) = some v) : Answers .decTrk s v := by
  apply answers_of_finish
  change execDecTrk s = _
  rw [execDecTrk, if_neg (by rw [hf]; decide), h]

theorem exec_decTrk_none {s : State} (hf : hasFrame s s.params.respLen.getTrackingMode = true)
    (h : decodeTracking (trackingByte s) = none) : Raises .decTrk s (.protocol .badPayload) := by
  apply raises_of_finish
  change execDecTrk s = _
  rw [execDecTrk, if_neg (by rw [hf]; decide), h]

/-- A mode byte names its mode (`42_response_framer.md` R223). -/
theorem decodeTracking_of_le {b : Byte} (h : b.toNat ≤ 3) : decodeTracking b = some (BitVec.ofNat 64 b.toNat) := by
  rw [decodeTracking, if_neg (by omega)]
  simp [BitVec.ofNat_toNat]

theorem decodeTracking_of_lt {b : Byte} (h : 3 < b.toNat) : decodeTracking b = none := if_pos h

/-! ### DEC_LOC -/

theorem exec_decLoc_some {s : State} {v w : Word64} (hf : hasFrame s s.params.respLen.getLocation = true)
    (h : decodeLocation (locationByte s) = some (v, w)) :
    exec .decLoc s = .next { s with res0 := v, res1 := w, done := true, inflight := none } := by
  change execDecLoc s = _
  rw [execDecLoc, if_neg (by rw [hf]; decide), h]
  rfl

theorem exec_decLoc_none {s : State} (hf : hasFrame s s.params.respLen.getLocation = true)
    (h : decodeLocation (locationByte s) = none) : Raises .decLoc s (.protocol .badPayload) := by
  apply raises_of_finish
  change execDecLoc s = _
  rw [execDecLoc, if_neg (by rw [hf]; decide), h]

/-- The fields of the eight location bytes are in range (`42_response_framer.md` R224). -/
def LocationInRange (f : ℕ → Byte) : Prop :=
  (f 1).toNat ≤ 59 ∧ (f 2).toNat ≤ 59 ∧ (f 3).toNat ≤ 1 ∧ (f 5).toNat ≤ 59 ∧ (f 6).toNat ≤ 59 ∧ (f 7).toNat ≤ 1

/-- The packed DMS word of four location bytes (`10_state.md` R30). -/
def locationSum (deg min sec sgn : Byte) : Word64 :=
  BitVec.ofNat 64 (sgn.toNat * 2 ^ 24 + deg.toNat * 2 ^ 16 + min.toNat * 2 ^ 8 + sec.toNat)

/-- A packed DMS word with its fields in range (`10_state.md` R30). -/
def PackedDms (v : Word64) : Prop :=
  v.extractLsb' 6 2 = 0#2 ∧ v.extractLsb' 14 2 = 0#2 ∧ v.extractLsb' 25 39 = 0#39 ∧
    (v.extractLsb' 8 6).toNat ≤ 59 ∧ (v.extractLsb' 0 6).toNat ≤ 59

theorem locationWord_of_le {deg min sec sgn : Byte} (hm : min.toNat ≤ 59) (hs : sec.toNat ≤ 59) (hg : sgn.toNat ≤ 1) :
    locationWord deg min sec sgn = some (locationSum deg min sec sgn) := by
  have hsum : 0#32 ++ sgn ++ deg ++ min ++ sec = locationSum deg min sec sgn := by
    apply BitVec.eq_of_toNat_eq
    have h0 : (0#32).toNat = 0 := rfl
    have := deg.isLt
    rw [locationSum, append_toNat, append_toNat, append_toNat, append_toNat, h0, BitVec.toNat_ofNat]
    omega
  rw [locationWord, if_neg (by omega), hsum]

theorem locationWord_of_not {deg min sec sgn : Byte} (h : ¬ (min.toNat ≤ 59 ∧ sec.toNat ≤ 59 ∧ sgn.toNat ≤ 1)) :
    locationWord deg min sec sgn = none := if_pos (by omega)

theorem locationSum_toNat (deg min sec : Byte) {sgn : Byte} (hg : sgn.toNat ≤ 1) :
    (locationSum deg min sec sgn).toNat = sgn.toNat * 2 ^ 24 + deg.toNat * 2 ^ 16 + min.toNat * 2 ^ 8 + sec.toNat := by
  have := deg.isLt
  have := min.isLt
  have := sec.isLt
  rw [locationSum, BitVec.toNat_ofNat, Nat.mod_eq_of_lt (by omega)]

/-- Bytes in range give a packed word with its fields in range. -/
theorem packedDms_locationSum {deg min sec sgn : Byte} (hm : min.toNat ≤ 59) (hs : sec.toNat ≤ 59) (hg : sgn.toNat ≤ 1) :
    PackedDms (locationSum deg min sec sgn) := by
  have hv := locationSum_toNat deg min sec hg
  have := deg.isLt
  refine ⟨BitVec.eq_of_toNat_eq ?_, BitVec.eq_of_toNat_eq ?_, BitVec.eq_of_toNat_eq ?_, ?_, ?_⟩ <;>
    rw [extractLsb'_toNat_div, hv] <;> norm_num <;> omega

theorem decodeLocation_of_inRange {f : ℕ → Byte} (h : LocationInRange f) :
    decodeLocation f = some (locationSum (f 0) (f 1) (f 2) (f 3), locationSum (f 4) (f 5) (f 6) (f 7)) := by
  obtain ⟨h1, h2, h3, h5, h6, h7⟩ := h
  rw [decodeLocation, locationWord_of_le h1 h2 h3, locationWord_of_le h5 h6 h7]

theorem decodeLocation_of_not {f : ℕ → Byte} (h : ¬ LocationInRange f) : decodeLocation f = none := by
  by_cases hl : (f 1).toNat ≤ 59 ∧ (f 2).toNat ≤ 59 ∧ (f 3).toNat ≤ 1
  · obtain ⟨h1, h2, h3⟩ := hl
    rw [decodeLocation, locationWord_of_le h1 h2 h3,
      locationWord_of_not fun ⟨h5, h6, h7⟩ => h ⟨h1, h2, h3, h5, h6, h7⟩]
  · rw [decodeLocation, locationWord_of_not hl]

/-- The location bytes of a payload of the default length are the payload (`42_response_framer.md` R224). -/
theorem locationByte_default {s : State} (h : s.params.respLen.getLocation = 8) : locationByte s = s.rxByte :=
  funext fun _ => if_pos h

/-! ### DEC_TIME -/

theorem exec_decTime_some {s : State} {v w x : Word64} (hf : hasFrame s s.params.respLen.getTime = true)
    (h : decodeTime (timeByte s) = some (v, w, x)) :
    exec .decTime s = .next { s with res0 := v, res1 := w, res2 := x, done := true, inflight := none } := by
  change execDecTime s = _
  rw [execDecTime, if_neg (by rw [hf]; decide), h]
  rfl

theorem exec_decTime_none {s : State} (hf : hasFrame s s.params.respLen.getTime = true)
    (h : decodeTime (timeByte s) = none) : Raises .decTime s (.protocol .badPayload) := by
  apply raises_of_finish
  change execDecTime s = _
  rw [execDecTime, if_neg (by rw [hf]; decide), h]

/-- The time word of six time bytes (`10_state.md` R31). -/
def timeSum (f : ℕ → Byte) : Word64 :=
  BitVec.ofNat 64 ((f 5).toNat * 2 ^ 40 + (f 4).toNat * 2 ^ 32 + (f 3).toNat * 2 ^ 24 + (f 2).toNat * 2 ^ 16 +
    (f 1).toNat * 2 ^ 8 + (f 0).toNat)

/-- A byte as a signed number. -/
def signedByte (b : Byte) : Word64 := BitVec.ofInt 64 (if 128 ≤ b.toNat then (b.toNat : ℤ) - 256 else b.toNat)

theorem timeSum_toNat (f : ℕ → Byte) :
    (timeSum f).toNat = (f 5).toNat * 2 ^ 40 + (f 4).toNat * 2 ^ 32 + (f 3).toNat * 2 ^ 24 + (f 2).toNat * 2 ^ 16 +
      (f 1).toNat * 2 ^ 8 + (f 0).toNat := by
  have := (f 0).isLt
  have := (f 1).isLt
  have := (f 2).isLt
  have := (f 3).isLt
  have := (f 4).isLt
  have := (f 5).isLt
  rw [timeSum, BitVec.toNat_ofNat, Nat.mod_eq_of_lt (by omega)]

theorem timeSum_lt (f : ℕ → Byte) : (timeSum f).toNat < 2 ^ 48 := by
  have := (f 0).isLt
  have := (f 1).isLt
  have := (f 2).isLt
  have := (f 3).isLt
  have := (f 4).isLt
  have := (f 5).isLt
  rw [timeSum_toNat]
  omega

theorem signExtend_eq_signedByte (b : Byte) : b.signExtend 64 = signedByte b := by
  rw [signedByte, BitVec.signExtend, BitVec.toInt_eq_toNat_cond]
  congr 1
  split <;> split <;> omega

theorem signedByte_toInt (b : Byte) : (signedByte b).toInt = if 128 ≤ b.toNat then (b.toNat : ℤ) - 256 else b.toNat := by
  have := b.isLt
  rw [signedByte, BitVec.toInt_ofInt]
  split <;> rw [Int.bmod_eq_of_le] <;> omega

/-- The UTC offset of a time reply is a signed byte. -/
theorem signedByte_bounds (b : Byte) : -128 ≤ (signedByte b).toInt ∧ (signedByte b).toInt ≤ 127 := by
  have := b.isLt
  rw [signedByte_toInt]
  split <;> omega

theorem decodeTime_of_le {f : ℕ → Byte} (h : (f 7).toNat ≤ 1) :
    decodeTime f = some (timeSum f, signedByte (f 6), BitVec.ofNat 64 (f 7).toNat) := by
  have hsum : 0#16 ++ f 5 ++ f 4 ++ f 3 ++ f 2 ++ f 1 ++ f 0 = timeSum f := by
    apply BitVec.eq_of_toNat_eq
    have h0 : (0#16).toNat = 0 := rfl
    rw [timeSum_toNat, append_toNat, append_toNat, append_toNat, append_toNat, append_toNat, append_toNat, h0]
    omega
  rw [decodeTime, if_neg (by omega), hsum, signExtend_eq_signedByte]
  simp [BitVec.ofNat_toNat]

theorem decodeTime_of_lt {f : ℕ → Byte} (h : 1 < (f 7).toNat) : decodeTime f = none := if_pos h

/-- The time bytes of a payload of the default length are the payload (`42_response_framer.md` R225). -/
theorem timeByte_default {s : State} (h : s.params.respLen.getTime = 8) : timeByte s = s.rxByte :=
  funext fun _ => if_pos h

/-- Settles O54: what the three decoders make of the bytes that the payload carries, which are the payload's own where the
length is the default. -/
theorem defaultLayoutsDecode : Obligations.DefaultLayoutsDecode := by
  intro s hv b packed
  refine ⟨fun hn => ?_, fun hn => ?_, fun hn => ?_⟩
  · have hf := hasFrame_of hv hn
    refine ⟨fun h1 => ?_, ?_⟩
    · have hb : trackingByte s = s.rxByte 0 := if_pos (hn.symm.trans h1)
      exact ⟨fun h => exec_decTrk_some hf (hb ▸ decodeTracking_of_le h),
        fun h => exec_decTrk_none hf (hb ▸ decodeTracking_of_lt h)⟩
    · rcases Nat.lt_or_ge 3 (trackingByte s).toNat with h | h
      · exact .inr (exec_decTrk_none hf (decodeTracking_of_lt h))
      · refine .inl ⟨_, ?_, exec_decTrk_some hf (decodeTracking_of_le h)⟩
        rw [BitVec.toNat_ofNat]
        omega
  · have hf := hasFrame_of hv hn
    refine ⟨fun h8 => ?_, ?_⟩
    · have hb := locationByte_default (hn.symm.trans h8)
      exact ⟨fun h => exec_decLoc_some hf (hb ▸ decodeLocation_of_inRange h),
        fun h => exec_decLoc_none hf (hb ▸ decodeLocation_of_not h)⟩
    · by_cases h : LocationInRange (locationByte s)
      · have hd := decodeLocation_of_inRange h
        obtain ⟨h1, h2, h3, h5, h6, h7⟩ := h
        exact .inl ⟨_, _, packedDms_locationSum h1 h2 h3, packedDms_locationSum h5 h6 h7, exec_decLoc_some hf hd⟩
      · exact .inr (exec_decLoc_none hf (decodeLocation_of_not h))
  · have hf := hasFrame_of hv hn
    refine ⟨fun h8 => ?_, ?_⟩
    · have hb := timeByte_default (hn.symm.trans h8)
      exact ⟨fun h => exec_decTime_some hf (hb ▸ decodeTime_of_le h), fun h => exec_decTime_none hf (hb ▸ decodeTime_of_lt h)⟩
    · rcases Nat.lt_or_ge 1 (timeByte s 7).toNat with h | h
      · exact .inr (exec_decTime_none hf (decodeTime_of_lt h))
      · obtain ⟨h1, h2⟩ := signedByte_bounds (timeByte s 6)
        refine .inl ⟨_, _, _, timeSum_lt _, h1, h2, ?_, exec_decTime_some hf (decodeTime_of_le h)⟩
        rw [BitVec.toNat_ofNat]
        omega

end Sys2Proof.Machine
end

section
/-! SUPPORT. The runs of a framing read with no agent's move pending, and how its attempt ends (`42_response_framer.md` R211 to
R214, `43_passthrough.md` R256, R257). Both reads take their bytes in the same way: `ReadKind`. -/

namespace Sys2Proof.Machine

/-! ### Steps of an attempt -/

/-- How an attempt with the timer `m` ends in `ended`: by a timeout, or where no byte waits by an engine move with a timer
of 0, or by itself with no move pending (`10_state.md` R34, `60_exceptions.md` R301). -/
def AttemptEnds (s : State) (m : Word32) (rest : List Event) (ended : State) : Prop :=
  (s.events = .timeout :: rest → step s = .next ended) ∧
    (s.rx = [] → s.events = .engine :: rest → step s = .next (if m = 0 then ended else moved rest s)) ∧
    (s.rx = [] → s.events = [] → rest = [] → step s = .next ended)

/-- An attempt in flight ends so, whichever operation's it is. -/
theorem attempt_ends {s ended : State} {f : InFlight} {m : Word32} {rest : List Event} (hf : s.inflight = some f)
    (hn : ∀ i, f.activity ≠ .send i) (hx : expireAttempt f (moved rest s) = ended)
    (hw : s.rx = [] → engineStep f (moved rest s) = if m = 0 then ended else moved rest s) :
    AttemptEnds s m rest ended := by
  refine ⟨fun he => ?_, fun hrx he => ?_, fun hrx he hr => ?_⟩
  · rw [step_timeout he hf, hx]
  · rw [step_engine he hf, hw hrx]
  · subst hr
    rw [step_readGoesOn he hf hn, if_pos hrx, hx]

/-- The engine's step of a read in flight with a byte waiting and no move pending. -/
theorem step_takesByte {s : State} {f : InFlight} (he : s.events = []) (hf : s.inflight = some f)
    (hn : ∀ i, f.activity ≠ .send i) (hrx : s.rx ≠ []) : step s = .next (engineStep f (tick s)) := by
  rw [step_readGoesOn he hf hn, if_neg hrx, tick_eq_moved he]

/-- The timeout source's move in a state with no other move pending. -/
theorem step_timesOut {s : State} {f : InFlight} (he : s.events = []) (hf : s.inflight = some f) :
    step { s with events := [.timeout] } = .next (expireAttempt f (tick s)) := by
  rw [step_timeout (s := { s with events := [.timeout] }) rfl hf, tick_eq_moved he]
  rfl

/-! ### What an attempt leaves -/

/-- The diagnostics of a framing read, with `last` its last byte or 0 (`10_state.md` R25, R26). -/
def withDiagnostics (n : Byte) (k : ℕ) (last : Byte) (s : State) : State :=
  { s with
    xfer := { expLen := BitVec.ofNat 9 (n.toNat + 1), actLen := BitVec.ofNat 9 k }
    xbyte := { s.xbyte with last := last } }

theorem recordRead_eq (n : Byte) (k : ℕ) (s : State) :
    recordRead n k s = withDiagnostics n k (if k = 0 then 0 else s.rxByte (k - 1)) s := by
  cases k <;> rfl

/-- A read that got its frame completes. -/
theorem ReadKind.ends_of_none (r : ReadKind) {l : Latch} {k : ℕ} {s : State} (h : frameOutcome l.e k s = none) :
    r.ends l k s =
      { withDiagnostics l.e k (if k = 0 then 0 else s.rxByte (k - 1)) s with
        rxlen := l.e, rxvalid := true, inflight := none, done := true } := by
  rw [← recordRead_eq]
  rcases r.ends_cases l k s with ⟨-, he⟩ | ⟨o, ho, -⟩
  · exact he
  · cases h.symm.trans ho

/-- RECV that fails raises the framing failure. -/
theorem endRecv_of_some {l : Latch} {k : ℕ} {s : State} {o : FrameFail} (h : frameOutcome l.e k s = some o) :
    endRecv l k s =
      { withDiagnostics l.e k (if k = 0 then 0 else s.rxByte (k - 1)) s with
        rxlen := 0, rxvalid := false, inflight := none, done := true, error := some (.protocol o.detail) } := by
  rw [← recordRead_eq]
  rcases endRecv_cases l k s with ⟨hn, -⟩ | ⟨o', ho, he⟩
  · cases h.symm.trans hn
  · cases h.symm.trans ho
    exact he

/-- PT_RECV's phase 1 that fails goes on to the recovery read. -/
theorem endPtPhase1_of_some {l : Latch} {k : ℕ} {s : State} {o : FrameFail} (h : frameOutcome l.e k s = some o) :
    endPtPhase1 l k s =
      { withDiagnostics l.e k (if k = 0 then 0 else s.rxByte (k - 1)) s with
        rxlen := 0, rxvalid := false, inflight := some { latch := l, activity := .ptRecovery o l.t } } := by
  rw [← recordRead_eq]
  rcases endPtPhase1_cases l k s with ⟨hn, -⟩ | ⟨o', ho, he⟩
  · cases h.symm.trans hn
  · cases h.symm.trans ho
    exact he

/-! ### Runs -/

/-- The state `s` after a framing read at index `k` has taken `bs`, one byte a step, with `rest` still waiting. -/
def tookBytes (k : ℕ) (bs rest : List Byte) (f : Option InFlight) (s : State) : State :=
  { s with mem := s.mem.writeList (rxAddr k) bs, rx := rest, inflight := f, freeCount := s.freeCount + bs.length }

/-- The first of the bytes, and then the others. -/
theorem tookBytes_cons (k : ℕ) (b : Byte) (bs rx rest : List Byte) (g f : Option InFlight) (s : State) :
    tookBytes (k + 1) bs rest f (tookBytes k [b] rx g s) = tookBytes k (b :: bs) rest f s := by
  have hn : (tookBytes k [b] rx g s).freeCount + bs.length = s.freeCount + (b :: bs).length := by
    simp only [tookBytes, List.length_cons, List.length_nil]
    omega
  rw [tookBytes, hn]
  rfl

/-- With no move pending, a framing read takes a byte that is not its last. -/
theorem step_read_more (r : ReadKind) {l : Latch} {k : ℕ} {m : Word32} {b : Byte} {rest : List Byte} {s : State}
    (he : s.events = []) (hf : s.inflight = some { latch := l, activity := r.activity k m }) (hrx : s.rx = b :: rest)
    (hk : k + 1 < frameLen l.e) :
    step s = .next (tookBytes k [b] rest (some { latch := l, activity := r.activity (k + 1) m }) s) := by
  rw [step_takesByte he hf (r.activity_ne_send k m) (by rw [hrx]; exact List.cons_ne_nil _ _),
    engineStep_read_more r (s := tick s) hrx hk]
  rfl

/-- With no move pending, a framing read takes its last byte, and its attempt ends. -/
theorem step_read_last (r : ReadKind) {l : Latch} {k : ℕ} {m : Word32} {b : Byte} {rest : List Byte} {s : State}
    (he : s.events = []) (hf : s.inflight = some { latch := l, activity := r.activity k m }) (hrx : s.rx = b :: rest)
    (hk : k + 1 = frameLen l.e) : step s = .next (r.ends l (k + 1) (tookBytes k [b] rest s.inflight s)) := by
  rw [step_takesByte he hf (r.activity_ne_send k m) (by rw [hrx]; exact List.cons_ne_nil _ _),
    engineStep_read_last r (s := tick s) hrx hk]
  rfl

/-- A framing read takes bytes that do not complete it. -/
theorem runSteps_read (r : ReadKind) {l : Latch} {m : Word32} {rest : List Byte} (bs : List Byte) {k : ℕ} {s : State}
    (he : s.events = []) (hf : s.inflight = some { latch := l, activity := r.activity k m }) (hrx : s.rx = bs ++ rest)
    (hk : k + bs.length < frameLen l.e) :
    runSteps bs.length s =
      .next (tookBytes k bs rest (some { latch := l, activity := r.activity (k + bs.length) m }) s) := by
  induction bs generalizing k s with
  | nil =>
    have : tookBytes k [] rest s.inflight s = s := by
      rw [tookBytes, ← show s.rx = rest from hrx]
      rfl
    rw [← this, hf]
    rfl
  | cons b bs ih =>
    rw [List.length_cons] at hk ⊢
    have hstep := step_read_more r he hf (show s.rx = b :: (bs ++ rest) from hrx) (by omega)
    rw [runSteps_succ _ hstep, ih (k := k + 1) (s := tookBytes k [b] (bs ++ rest) _ s) he rfl rfl (by omega), tookBytes_cons,
      show k + 1 + bs.length = k + (bs.length + 1) by omega]

/-- A framing read takes all its bytes, and its attempt ends. -/
theorem runSteps_read_all (r : ReadKind) {l : Latch} {m : Word32} {rest : List Byte} (bs : List Byte) {k : ℕ} {s : State}
    (he : s.events = []) (hf : s.inflight = some { latch := l, activity := r.activity k m }) (hrx : s.rx = bs ++ rest)
    (hne : bs ≠ []) (hk : k + bs.length = frameLen l.e) :
    ∃ f, runSteps bs.length s = .next (r.ends l (k + bs.length) (tookBytes k bs rest f s)) := by
  induction bs generalizing k s with
  | nil => exact absurd rfl hne
  | cons b bs ih =>
    cases bs with
    | nil => exact ⟨s.inflight, runSteps_succ 0 (step_read_last r he hf hrx hk)⟩
    | cons b' bs =>
      simp only [List.length_cons] at hk ih ⊢
      have hstep := step_read_more r he hf (show s.rx = b :: (b' :: bs ++ rest) from hrx) (by omega)
      obtain ⟨f, hrun⟩ := ih (k := k + 1) (s := tookBytes k [b] (b' :: bs ++ rest) _ s) he rfl rfl (List.cons_ne_nil _ _)
        (by omega)
      exact ⟨f, by
        rw [runSteps_succ _ hstep, hrun, tookBytes_cons,
          show k + 1 + (bs.length + 1) = k + (bs.length + 1 + 1) by omega]⟩

/-- The byte at the end of those a read has taken (`10_state.md` R26). -/
theorem tookBytes_last {bs rest : List Byte} {f : Option InFlight} {s : State} (hwf : s.mem.wf = true) :
    (if bs.length = 0 then 0 else (tookBytes 0 bs rest f s).rxByte (bs.length - 1)) = bs.getLast?.getD 0 := by
  rcases List.eq_nil_or_concat' bs with rfl | ⟨init, b, rfl⟩
  · rfl
  · have hlen : init.length < (init ++ [b]).length := by simp
    rw [if_neg (by simp), List.length_append, List.length_singleton, Nat.add_sub_cancel]
    change (s.mem.writeList (rxAddr 0) (init ++ [b])).read (rxAddr 0 + init.length) = _
    rw [Memory.read_writeList_inside _ _ hwf _ hlen]
    simp

/-- The byte that the framing contract tests is the last of N+1 bytes. -/
theorem tookBytes_term {bs rest : List Byte} {f : Option InFlight} {s : State} {n : Byte} (hwf : s.mem.wf = true)
    (hn : bs.length = n.toNat + 1) : (tookBytes 0 bs rest f s).rxByte n.toNat = bs.getLast?.getD 0 := by
  rw [← tookBytes_last hwf (rest := rest) (f := f), if_neg (by omega), hn]
  rfl

/-! ### From acceptance -/

/-- A framing read begun in `s` that has taken `bs` and goes on. -/
def readUnderway (r : ReadKind) (bs rest : List Byte) (s : State) : State :=
  tookBytes 0 bs rest (some { latch := s.latched, activity := r.activity bs.length s.timeout })
    (startLink (r.activity 0 s.timeout) s)

/-- The run from acceptance over bytes that do not complete the read. -/
theorem runSteps_underway (r : ReadKind) {bs rest : List Byte} {s : State} (he : s.events = []) (hrx : s.rx = bs ++ rest)
    (hlen : bs.length ≤ s.explen.toNat) :
    runSteps bs.length (startLink (r.activity 0 s.timeout) s) = .next (readUnderway r bs rest s) := by
  have hrun := runSteps_read r (s := startLink (r.activity 0 s.timeout) s) (k := 0) bs he rfl hrx
    (by rw [Nat.zero_add]; exact Nat.lt_succ_of_le hlen)
  rw [Nat.zero_add] at hrun
  exact hrun

/-- The run from acceptance over all N+1 bytes. -/
theorem runSteps_allTaken (r : ReadKind) {bs rest : List Byte} {s : State} (he : s.events = []) (hrx : s.rx = bs ++ rest)
    (hlen : bs.length = s.explen.toNat + 1) :
    ∃ f, runSteps (s.explen.toNat + 1) (startLink (r.activity 0 s.timeout) s) =
      .next (r.ends s.latched bs.length (tookBytes 0 bs rest f (startLink (r.activity 0 s.timeout) s))) := by
  have hne : bs ≠ [] := fun h => by simp [h] at hlen
  have hrun := runSteps_read_all r (s := startLink (r.activity 0 s.timeout) s) (k := 0) bs he rfl hrx hne
    (by rw [Nat.zero_add]; exact hlen)
  rw [Nat.zero_add, hlen] at hrun
  rw [hlen]
  exact hrun

/-- The step in which the timeout source ends a read that is under way. -/
theorem step_underway_timesOut (r : ReadKind) {bs : List Byte} (rest : List Byte) {s : State} (he : s.events = []) :
    step { readUnderway r bs rest s with events := [.timeout] } =
      .next (r.ends s.latched bs.length (tick (readUnderway r bs rest s))) := by
  rw [step_timesOut (s := readUnderway r bs rest s) he rfl, expireAttempt_read]

/-- A read that is under way is short of bytes. -/
theorem frameOutcome_underway (r : ReadKind) {bs : List Byte} (rest : List Byte) {s : State}
    (hlen : bs.length ≤ s.explen.toNat) :
    frameOutcome s.latched.e bs.length (tick (readUnderway r bs rest s)) = some .short :=
  (frameOutcome_short_iff _ _ _).mpr (Nat.lt_succ_of_le hlen)

/-- The last byte of a read that is under way. -/
theorem underway_last (r : ReadKind) (bs rest : List Byte) {s : State} (hwf : s.mem.wf = true) :
    (if bs.length = 0 then 0 else (tick (readUnderway r bs rest s)).rxByte (bs.length - 1)) = bs.getLast?.getD 0 :=
  tookBytes_last (rest := rest) (f := (readUnderway r bs rest s).inflight) (s := startLink (r.activity 0 s.timeout) s) hwf

/-- RECV that timed out. -/
theorem endRecv_underway {bs : List Byte} (rest : List Byte) {s : State} (hwf : s.mem.wf = true)
    (hlen : bs.length ≤ s.explen.toNat) :
    endRecv s.latched bs.length (tick (readUnderway .recv bs rest s)) =
      { s with
        mem := s.mem.writeList (rxAddr 0) bs, rx := rest, rxlen := 0, rxvalid := false, inflight := none, done := true
        before := s.linkRegs, error := some (.protocol .short)
        xfer := { expLen := BitVec.ofNat 9 (s.explen.toNat + 1), actLen := BitVec.ofNat 9 bs.length }
        xbyte := { s.xbyte with last := bs.getLast?.getD 0 }, freeCount := s.freeCount + (bs.length + 1) } := by
  rw [endRecv_of_some (frameOutcome_underway .recv rest hlen), underway_last .recv bs rest hwf]
  simp only [withDiagnostics, tick, readUnderway, tookBytes, startLink]
  rfl

/-! ### RECV -/

/-- Settles O26: a timeout before the last byte is a SHORT failure, and a run from acceptance brings the bytes that wait. -/
theorem recvTimesOutShort : Obligations.RecvTimesOutShort := by
  refine ⟨fun s l k m rest hf hk => ?_, fun s bs rest he hwf hrx hlen => ?_⟩
  · intro ended
    have hk : k < frameLen l.e := Nat.lt_succ_of_le hk
    have hend : endRecv l k (moved rest s) = ended := endRecv_of_some ((frameOutcome_short_iff l.e k _).mpr hk)
    refine attempt_ends hf nofun hend fun hrx => ?_
    rw [← hend]
    exact engineStep_read_wait .recv (s := moved rest s) hrx hk
  · have hend := step_underway_timesOut .recv rest he (bs := bs)
    rw [ReadKind.ends, endRecv_underway rest hwf hlen] at hend
    obtain ⟨hstored, hkept⟩ := stored_writeList (rxAddr 0) bs hwf
    exact ⟨_, _, _, rfl, runSteps_underway .recv he hrx hlen, rfl, hend, hstored, hkept, rfl⟩

/-! ### PT_RECV -/

/-- The recovery read of a failed phase 1, with no move pending, takes the byte that waits (`43_passthrough.md` R256). -/
theorem step_recovery_takes {v : State} {l : Latch} {o : FrameFail} {m : Word32} {x : Byte} {rest : List Byte}
    (he : v.events = []) (hf : v.inflight = some { latch := l, activity := .ptRecovery o m }) (hrx : v.rx = x :: rest) :
    step v = .next
      { v with
        rx := rest, inflight := none, done := true, freeCount := v.freeCount + 1
        xbyte := { v.xbyte with recGot := true, recByte := x }
        error := some (if x = 0x23 then .noAnswer else .protocol o.detail)
        recov := if x = 0x23 then v.recov else true } := by
  rw [step_takesByte he hf nofun (by rw [hrx]; exact List.cons_ne_nil _ _), engineStep_ptRecovery (s := tick v) hrx,
    recoveryByte]
  simp only
  split
  · rename_i hx
    have hx : x = 0x23 := hx
    rw [if_pos hx, if_pos hx]
    rfl
  · rename_i hx
    have hx : ¬ x = 0x23 := hx
    rw [if_neg hx, if_neg hx]
    rfl

/-- The recovery read times out (`43_passthrough.md` R256). -/
theorem step_recovery_timesOut {v : State} {l : Latch} {o : FrameFail} {m : Word32} (he : v.events = [])
    (hf : v.inflight = some { latch := l, activity := .ptRecovery o m }) :
    step { v with events := [.timeout] } = .next
      { v with
        inflight := none, done := true, freeCount := v.freeCount + 1, error := some (.protocol o.detail), recov := true } := by
  rw [step_timesOut he hf]
  rfl

/-- The state in which phase 1 of a PT_RECV begun in `s` has failed after the bytes `bs`, `n` steps later. -/
def recovering (o : FrameFail) (bs rest : List Byte) (n : ℕ) (s : State) : State :=
  { s with
    mem := s.mem.writeList (rxAddr 0) bs, rx := rest, rxlen := 0, rxvalid := false
    xfer := { expLen := BitVec.ofNat 9 (s.explen.toNat + 1), actLen := BitVec.ofNat 9 bs.length }
    xbyte := { s.xbyte with last := bs.getLast?.getD 0 }
    inflight := some { latch := s.latched, activity := .ptRecovery o s.timeout }
    before := s.linkRegs, freeCount := s.freeCount + n }

/-- Phase 1 that took all its bytes and failed. -/
theorem endPtPhase1_allTaken {bs : List Byte} (rest : List Byte) (f : Option InFlight) {s : State} (hwf : s.mem.wf = true)
    (hlen : bs.length = s.explen.toNat + 1) (hlast : bs.getLast? ≠ some 0x23) :
    endPtPhase1 s.latched bs.length (tookBytes 0 bs rest f (startLink (.ptRecv 0 s.timeout) s)) =
      recovering .badTerm bs rest bs.length s := by
  have hterm := tookBytes_term (bs := bs) (rest := rest) (f := f) (s := startLink (.ptRecv 0 s.timeout) s) hwf hlen
  rw [endPtPhase1_of_some ((frameOutcome_badTerm_iff _ _ _).mpr ⟨hlen.ge, fun h => hlast ?_⟩)]
  · rw [tookBytes_last (s := startLink (.ptRecv 0 s.timeout) s) hwf]
    rfl
  · have hne : bs ≠ [] := fun h => by simp [h] at hlen
    have hb : bs.getLast?.getD 0 = 0x23 := hterm.symm.trans h
    rw [List.getLast?_eq_some_getLast hne] at hb ⊢
    exact congrArg some hb

/-- Phase 1 that timed out. -/
theorem endPtPhase1_underway {bs : List Byte} (rest : List Byte) {s : State} (hwf : s.mem.wf = true)
    (hlen : bs.length ≤ s.explen.toNat) :
    endPtPhase1 s.latched bs.length (tick (readUnderway .ptRecv bs rest s)) =
      recovering .short bs rest (bs.length + 1) s := by
  rw [endPtPhase1_of_some (frameOutcome_underway .ptRecv rest hlen), underway_last .ptRecv bs rest hwf]
  simp only [withDiagnostics, tick, readUnderway, tookBytes, startLink]
  rfl

/-- What the end of PT_RECV's attempt in flight makes of the state: phase 1 that is short of bytes goes on to the recovery
read, and the recovery read fails (`43_passthrough.md` R256). -/
def PtAttemptEnded (s : State) (l : Latch) (m : Word32) (rest : List Event) (ended : State) : Prop :=
  (∃ k : ℕ, k ≤ l.e.toNat ∧ s.inflight = some { latch := l, activity := .ptRecv k m } ∧
      ended =
        { moved rest s with
          rxlen := 0, rxvalid := false, inflight := some { latch := l, activity := .ptRecovery .short l.t }
          xfer := { expLen := BitVec.ofNat 9 (l.e.toNat + 1), actLen := BitVec.ofNat 9 k }
          xbyte := { s.xbyte with last := if k = 0 then 0 else s.rxByte (k - 1) } }) ∨
    (∃ (o : FrameFail) (d : ProtocolDetail), (o = .short ∧ d = .short ∨ o = .badTerm ∧ d = .badTerm) ∧
      s.inflight = some { latch := l, activity := .ptRecovery o m } ∧
      ended = { moved rest s with inflight := none, done := true, error := some (.protocol d), recov := true })

/-- Both attempts of PT_RECV end alike. -/
theorem ptAttempt_ends {s ended : State} {l : Latch} {m : Word32} {rest : List Event}
    (h : PtAttemptEnded s l m rest ended) : AttemptEnds s m rest ended := by
  rcases h with ⟨k, hk, hf, rfl⟩ | ⟨o, d, hd, hf, rfl⟩
  · have hk : k < frameLen l.e := Nat.lt_succ_of_le hk
    have hend := endPtPhase1_of_some ((frameOutcome_short_iff l.e k (moved rest s)).mpr hk)
    refine attempt_ends hf nofun hend fun hrx => ?_
    exact (engineStep_read_wait .ptRecv (s := moved rest s) hrx hk).trans (by rw [ReadKind.ends, hend]; rfl)
  · have hdet : o.detail = d := by rcases hd with ⟨rfl, rfl⟩ | ⟨rfl, rfl⟩ <;> rfl
    subst hdet
    exact attempt_ends hf nofun rfl fun hrx => engineStep_ptRecovery_wait (s := moved rest s) hrx

/-- Phase 1 that took all its bytes and got its frame. -/
theorem endPtPhase1_framed {bs : List Byte} (rest : List Byte) (f : Option InFlight) {s : State} (hwf : s.mem.wf = true)
    (hlen : bs.length = s.explen.toNat + 1) (hlast : bs.getLast? = some 0x23) :
    endPtPhase1 s.latched bs.length (tookBytes 0 bs rest f (startLink (.ptRecv 0 s.timeout) s)) =
      { s with
        mem := s.mem.writeList (rxAddr 0) bs, rx := rest, rxlen := s.explen, rxvalid := true, inflight := none, done := true
        before := s.linkRegs
        xfer := { expLen := BitVec.ofNat 9 (s.explen.toNat + 1), actLen := BitVec.ofNat 9 bs.length }
        xbyte := { s.xbyte with last := 0x23 }, freeCount := s.freeCount + bs.length } := by
  have hterm := tookBytes_term (bs := bs) (rest := rest) (f := f) (s := startLink (.ptRecv 0 s.timeout) s) hwf hlen
  rw [hlast] at hterm
  have hend := ReadKind.ends_of_none .ptRecv (l := s.latched) ((frameOutcome_none_iff _ _ _).mpr ⟨hlen.ge, hterm⟩)
  rw [tookBytes_last (s := startLink (.ptRecv 0 s.timeout) s) hwf, hlast] at hend
  exact hend

/-- What the recovery read makes of the two things that can happen to it. -/
theorem recovering_goesOn (o : FrameFail) {bs rest : List Byte} (n : ℕ) {s : State} (he : s.events = []) :
    let v := recovering o bs rest n s
    (∀ x rest', rest = x :: rest' →
        step v = .next
          { v with
            rx := rest', inflight := none, done := true, freeCount := v.freeCount + 1
            xbyte := { v.xbyte with recGot := true, recByte := x }
            error := some (if x = 0x23 then .noAnswer else .protocol o.detail)
            recov := if x = 0x23 then v.recov else true }) ∧
      step { v with events := [.timeout] } = .next
        { v with
          inflight := none, done := true, freeCount := v.freeCount + 1, error := some (.protocol o.detail)
          recov := true } :=
  ⟨fun _ _ hrx => step_recovery_takes (v := recovering o bs rest n s) he rfl hrx,
    step_recovery_timesOut (v := recovering o bs rest n s) he rfl⟩

/-- Settles O27: how each attempt ends, and the run of phase 1 to its frame or to the recovery read. -/
theorem ptRecvHasThreeOutcomes : Obligations.PtRecvHasThreeOutcomes := by
  refine ⟨fun s l m rest ended h => ptAttempt_ends h, fun s bs rest he hwf hrx => ?_⟩
  obtain ⟨hstored, hkept⟩ := stored_writeList (rxAddr 0) bs hwf
  refine ⟨_, rfl, rfl, fun hlen hlast => ?_, fun d hd => ?_⟩
  · obtain ⟨f, hrun⟩ := runSteps_allTaken .ptRecv he hrx hlen
    have hend := endPtPhase1_framed rest f hwf hlen hlast
    rw [hlen] at hend
    rw [ReadKind.ends, hlen] at hrun
    exact ⟨_, hrun.trans (congrArg _ hend), hstored, hkept, rfl⟩
  · rcases hd with ⟨rfl, hlen, hlast⟩ | ⟨rfl, hlen⟩
    · obtain ⟨f, hrun⟩ := runSteps_allTaken .ptRecv he hrx hlen
      have hend := endPtPhase1_allTaken rest f hwf hlen hlast
      obtain ⟨htakes, htimeout⟩ := recovering_goesOn .badTerm (bs := bs) (rest := rest) bs.length he
      exact ⟨_, fun _ => hrun.trans (congrArg _ hend), nofun, hstored, hkept, rfl, rfl, htakes, htimeout⟩
    · have hrun := runSteps_underway .ptRecv he hrx hlen
      have hend := endPtPhase1_underway rest hwf hlen
      obtain ⟨htakes, htimeout⟩ := recovering_goesOn .short (bs := bs) (rest := rest) (bs.length + 1) he
      exact ⟨_, nofun, fun _ => ⟨_, hrun, (step_underway_timesOut .ptRecv rest he).trans (congrArg _ hend)⟩, hstored, hkept,
        rfl, rfl, htakes, htimeout⟩

end Sys2Proof.Machine
end

section
/-! SUPPORT. Every run of a sound machine gets through the pending moves, and then, with no move pending, a link operation in
flight comes closer to its end in every step (`60_exceptions.md` R301, `10_state.md` R42). -/

namespace Sys2Proof.Machine

/-! ### The pending moves -/

/-- A write of OPW leaves the pending moves alone. -/
theorem writeOpw_events {w : Word32} {s t : State} (h : writeOpw w s = .next t) : t.events = s.events := by
  rcases writeOpw_cases h with ⟨-, rfl⟩ | ⟨-, i, v, -, -, he⟩ | ⟨-, e, rfl⟩
  · rfl
  · exact (exec_frame he).events
  · rfl

/-- A step takes the first pending move off, and adds none. -/
theorem step_events {s t : State} (h : step s = .next t) : t.events = s.events.tail := by
  rcases step_cases h with ⟨he, -, rfl⟩ | ⟨off, rest, he, -, rfl⟩ | ⟨off, v, rest, he, -, -, rfl⟩ | ⟨w, rest, he, hw⟩ |
    ⟨bytes, rest, he, rfl⟩ | ⟨rest, he, rfl⟩ | ⟨e, rest, he, -, rfl⟩ | ⟨f, rest, -, hm, ⟨he, hr⟩ | ⟨e, he, -⟩⟩ <;> rw [he]
  · rfl
  · rfl
  · obtain ⟨a, b, e, m, c, hw⟩ := writeRegister_frame off v (moved rest s)
    rw [hw]
    rfl
  · exact writeOpw_events hw
  · rfl
  · rfl
  · rfl
  · exact (linkMove_events hm).trans hr
  · exact linkMove_events hm

/-- A write of OPW always answers a next state. -/
theorem writeOpw_answers (w : Word32) (s : State) : ∃ t, writeOpw w s = .next t := by
  unfold writeOpw
  split
  · exact ⟨_, rfl⟩
  · split
    · exact exec_answers _ _
    · exact finish_answers _ _
    · exact finish_answers _ _

/-- SEND's next byte exists in a sound machine (`10_state.md` R27). -/
theorem Sound.sendIndex {s : State} {l : Latch} {i : ℕ} (h : Sound s)
    (hf : s.inflight = some { latch := l, activity := .send i }) : i < s.txlen.toNat ∧ i < Config.txCap := by
  obtain ⟨hi, -⟩ := h.activity _ hf
  exact ⟨hi, lt_of_lt_of_le hi h.txlenLe⟩

/-- The TX sink's turn always answers a next state in a sound machine. -/
theorem Sound.sinkStep_answers {s : State} (h : Sound s) : ∃ t, sinkStep s = .next t := by
  unfold sinkStep
  split
  · rename_i f hf
    obtain ⟨l, a⟩ := f
    cases a with
    | send i =>
      obtain ⟨h1, h2⟩ := h.sendIndex hf
      obtain ⟨k, hk, -⟩ := emitByte_eq (l := l) h1 h2
      exact ⟨_, hk⟩
    | recv k m => exact ⟨_, rfl⟩
    | ptRecv k m => exact ⟨_, rfl⟩
    | ptRecovery o m => exact ⟨_, rfl⟩
  · exact ⟨_, rfl⟩

/-- A pending move that the interface has is made. -/
theorem Sound.step_answers {s : State} {e : Event} {rest : List Event} (h : Sound s) (he : s.events = e :: rest)
    (hok : eventOk e = true) : ∃ t, step s = .next t := by
  have hs : step s = agentMove e { s with events := rest } := by
    unfold step
    rw [he]
  rw [hs]
  cases e with
  | hostRead size off => exact ⟨_, if_pos hok⟩
  | hostWrite size off v =>
    rw [agentMove, if_pos (show accessOk size off = true from hok)]
    split
    · exact writeOpw_answers v _
    · exact ⟨_, rfl⟩
  | txTake => exact (h.moveTaken rest).sinkStep_answers
  | engine => exact ⟨_, rfl⟩
  | rxAppend bytes => exact ⟨_, rfl⟩
  | timeout => exact ⟨_, rfl⟩
  | reset => exact ⟨_, rfl⟩

/-- A run gets through all pending moves. -/
theorem runSteps_events {evs : List Event} {s : State} (h : Sound s) (he : s.events = evs)
    (hok : ∀ e ∈ evs, eventOk e = true) :
    ∃ t, runSteps evs.length s = .next t ∧ Sound t ∧ t.events = [] ∧ (evs = [] → t = s) := by
  induction evs generalizing s with
  | nil => exact ⟨s, rfl, h, he, fun _ => rfl⟩
  | cons e evs ih =>
    obtain ⟨t, ht⟩ := h.step_answers he (hok e List.mem_cons_self)
    have hte : t.events = evs := by rw [step_events ht, he]; rfl
    obtain ⟨u, hu, hsu, heu, -⟩ := ih (stepKeepsSound s t h ht) hte fun e' hm => hok e' (List.mem_cons_of_mem _ hm)
    exact ⟨u, by rw [List.length_cons, runSteps_succ _ ht, hu], hsu, heu, nofun⟩

/-! ### The operation in flight -/

/-- The most steps that an activity still takes with no move pending: one for each byte, and one for PT_RECV's recovery
read. -/
def activitySteps (txlen : ℕ) (l : Latch) : Activity → ℕ
  | .send i => txlen - i
  | .recv k _ => frameLen l.e - k
  | .ptRecv k _ => frameLen l.e - k + 1
  | .ptRecovery _ _ => 1

/-- The most steps that the operation in flight still takes with no move pending. -/
def stepsLeft (s : State) : ℕ := s.inflight.elim 0 fun f => activitySteps s.txlen.toNat f.latch f.activity

theorem stepsLeft_of_idle {s : State} (h : s.inflight = none) : stepsLeft s = 0 := by rw [stepsLeft, h]; rfl

theorem stepsLeft_of_busy {s : State} {f : InFlight} (h : s.inflight = some f) :
    stepsLeft s = activitySteps s.txlen.toNat f.latch f.activity := by rw [stepsLeft, h]; rfl

/-- A PT_RECV of 256 bytes takes the most steps. -/
theorem Sound.stepsLeft_le {s : State} (h : Sound s) : stepsLeft s ≤ 257 := by
  cases hf : s.inflight with
  | none => rw [stepsLeft_of_idle hf]; omega
  | some f =>
    have htx : s.txlen.toNat ≤ 32 := h.txlenLe
    have hrx : frameLen f.latch.e ≤ 256 := frameLen_le f.latch.e
    rw [stepsLeft_of_busy hf]
    cases f.activity <;> simp only [activitySteps] <;> omega

/-- One step of the operation in flight: fewer steps are left, and none only when it has completed. -/
def ComesCloser (s t : State) : Prop := stepsLeft t < stepsLeft s ∧ (t.busy = true ∨ t.done = true)

theorem ComesCloser.of_ended {s t : State} (h : 0 < stepsLeft s) (hi : t.inflight = none) (hd : t.done = true) :
    ComesCloser s t := ⟨by rwa [stepsLeft_of_idle hi], .inr hd⟩

theorem ComesCloser.of_busy {s t : State} {f : InFlight} (hi : t.inflight = some f)
    (h : activitySteps t.txlen.toNat f.latch f.activity < stepsLeft s) : ComesCloser s t :=
  ⟨by rwa [stepsLeft_of_busy hi], .inl ((busy_eq_true_iff t).mpr ⟨f, hi⟩)⟩

/-- A byte more, and a framing read has one step less to go. -/
theorem activitySteps_read_succ (n : ℕ) {l : Latch} (r : ReadKind) {k : ℕ} (m : Word32) (hk : k < frameLen l.e) :
    activitySteps n l (r.activity (k + 1) m) < activitySteps n l (r.activity k m) := by
  cases r <;> simp only [activitySteps, ReadKind.activity] <;> omega

theorem activitySteps_read_pos (n : ℕ) {l : Latch} (r : ReadKind) {k : ℕ} (m : Word32) (hk : k < frameLen l.e) :
    0 < activitySteps n l (r.activity k m) := by
  cases r <;> simp only [activitySteps, ReadKind.activity] <;> omega

/-- The end of a framing read's attempt completes the operation, or leaves the recovery read to go. -/
theorem ends_comesCloser {s : State} (r : ReadKind) {l : Latch} {k : ℕ} {m : Word32} (k' : ℕ) (u : State)
    (hf : s.inflight = some { latch := l, activity := r.activity k m }) (hk : k < frameLen l.e) :
    ComesCloser s (r.ends l k' u) := by
  have hs := stepsLeft_of_busy hf
  have hpos : 0 < stepsLeft s := hs ▸ activitySteps_read_pos _ r m hk
  rcases r.ends_cases l k' u with ⟨-, h⟩ | ⟨o, -, ⟨-, h⟩ | ⟨rfl, h⟩⟩ <;> rw [h]
  · exact .of_ended hpos rfl rfl
  · exact .of_ended hpos rfl rfl
  · refine .of_busy rfl ?_
    rw [hs]
    simp only [activitySteps, ReadKind.activity]
    omega

/-- With no move pending, the operation in flight comes closer to its end. -/
theorem Sound.step_comesCloser {s : State} (h : Sound s) (he : s.events = []) (hb : s.busy = true) :
    ∃ t, step s = .next t ∧ ComesCloser s t := by
  obtain ⟨⟨l, a⟩, hf⟩ := (busy_eq_true_iff s).mp hb
  have reads (r : ReadKind) (k : ℕ) (m : Word32) (hf : s.inflight = some { latch := l, activity := r.activity k m }) :
      ∃ t, step s = .next t ∧ ComesCloser s t := by
    obtain ⟨hk, -⟩ := (activityOk_read s r l k m).mp (h.activity _ hf)
    cases hrx : s.rx with
    | nil =>
      have hstep := step_readGoesOn he hf (r.activity_ne_send k m)
      rw [if_pos hrx, expireAttempt_read] at hstep
      exact ⟨_, hstep, ends_comesCloser r _ _ hf hk⟩
    | cons b rest =>
      rcases Nat.lt_or_eq_of_le (Nat.succ_le_of_lt hk) with hlt | heq
      · exact ⟨_, step_read_more r he hf hrx hlt, .of_busy rfl (stepsLeft_of_busy hf ▸ activitySteps_read_succ _ r m hk)⟩
      · exact ⟨_, step_read_last r he hf hrx heq, ends_comesCloser r _ _ hf hk⟩
  cases a with
  | send i =>
    obtain ⟨h1, h2⟩ := h.sendIndex hf
    obtain ⟨k, hk, -⟩ := emitByte_eq (l := l) (s := moved [] s) h1 h2
    have hleft : stepsLeft s = s.txlen.toNat - i := stepsLeft_of_busy hf
    refine ⟨_, (step_sendGoesOn he hf).trans hk, ?_⟩
    unfold advanceSend
    split
    · refine .of_busy rfl ?_
      rw [hleft]
      exact Nat.sub_lt_sub_left h1 (Nat.lt_succ_self i)
    · exact .of_ended (by omega) rfl rfl
  | recv k m => exact reads .recv k m hf
  | ptRecv k m => exact reads .ptRecv k m hf
  | ptRecovery o m =>
    have hpos : 0 < stepsLeft s := by rw [stepsLeft_of_busy hf]; exact Nat.one_pos
    refine ⟨_, step_readGoesOn he hf nofun, ?_⟩
    cases hrx : s.rx with
    | nil => exact .of_ended hpos rfl rfl
    | cons x rest =>
      rw [if_neg (List.cons_ne_nil _ _), engineStep_ptRecovery (s := moved [] s) hrx]
      obtain ⟨b, e, c, hr⟩ := recoveryByte_frame o x { moved [] s with rx := rest }
      rw [hr]
      exact .of_ended hpos rfl rfl

/-- An idle machine with no move pending stays as it is. -/
theorem step_idle {s : State} (he : s.events = []) (hi : s.inflight = none) : step s = .next s := by
  rw [step_unattended he, unattended, hi]

/-- A run with no move pending gets to the end of the operation in flight. -/
theorem runSteps_unattended (n : ℕ) {s : State} (h : Sound s) (he : s.events = []) (hn : stepsLeft s ≤ n) :
    ∃ t, runSteps n s = .next t ∧ t.events = [] ∧ t.busy = false ∧ (s.busy = true ∨ s.done = true → t.done = true) := by
  induction n generalizing s with
  | zero =>
    have hidle : s.busy = false := by
      by_contra hb
      obtain ⟨t, -, hlt, -⟩ := h.step_comesCloser he (by simpa using hb)
      omega
    exact ⟨s, rfl, he, hidle, fun hd => hd.resolve_left (by simp [hidle])⟩
  | succ n ih =>
    by_cases hb : s.busy = true
    · obtain ⟨t, ht, hlt, hd⟩ := h.step_comesCloser he hb
      have hte : t.events = [] := by rw [step_events ht, he]; rfl
      obtain ⟨u, hu, heu, hbu, hdu⟩ := ih (stepKeepsSound s t h ht) hte (by omega)
      exact ⟨u, by rw [runSteps_succ _ ht, hu], heu, hbu, fun _ => hdu hd⟩
    · have hi := (busy_eq_false_iff s).mp (by simpa using hb)
      obtain ⟨u, hu, hrest⟩ := ih h he (by rw [stepsLeft_of_idle hi]; omega)
      exact ⟨u, by rw [runSteps_succ _ (step_idle he hi), hu], hrest⟩

/-- Settles O60: first the pending moves, then the operation in flight. -/
theorem everyOperationCompletes : Obligations.EveryOperationCompletes := by
  intro s n h hok hn
  obtain ⟨t, ht, hst, het, hsame⟩ := runSteps_events h rfl hok
  obtain ⟨u, hu, heu, hbu, hdu⟩ := runSteps_unattended (n - s.events.length) hst het (hst.stepsLeft_le.trans (by omega))
  refine ⟨u, ?_, heu, hbu, fun hnil hbusy => hdu (.inl (hsame hnil ▸ hbusy))⟩
  rw [show n = s.events.length + (n - s.events.length) by omega, runSteps_add _ ht, hu]

end Sys2Proof.Machine
end

section
/-! SUPPORT. The host's accesses: a read repeats and has no side effect, an access that the interface does not have is
refused, and a run from a sound machine never stops (`20_memory.md` R61, R65, `60_exceptions.md` R285,
R290). -/

namespace Sys2Proof.Machine

/-! ### One access -/

/-- The word that the last read returned is no register of NXPE: no later read depends on it. -/
theorem readRegister_busData (s : State) (off : BitVec 12) (b : Option Word32) :
    readRegister { s with busData := b } off = readRegister s off := rfl

/-- Settles O12: a read changes `busData` alone, on which no read depends. -/
theorem readsAreIdempotent : Obligations.ReadsAreIdempotent := by
  intro s off h4
  exact ⟨readRegister s off, hostReads_of h4 rfl, hostReads_of h4 (readRegister_busData s off _)⟩

/-- With a move pending, the step is that move, with the move taken off. -/
theorem step_pending {s : State} {e : Event} {rest : List Event} (he : s.events = e :: rest) :
    step s = agentMove e { s with events := rest } := by
  rw [step, he]

/-- The interface has no byte, halfword or misaligned access (`20_memory.md` R61). -/
theorem not_accessOk {size : AccessSize} {off : BitVec 12} (h : size ≠ .word ∨ off.toNat % 4 ≠ 0) :
    ¬ accessOk size off = true := by
  rw [accessOk_iff]
  exact fun ⟨hw, h4⟩ => h.elim (· hw) (· h4)

/-- Settles O13: both kinds of access first ask whether the interface has it. -/
theorem otherAccessesAreRefused : Obligations.OtherAccessesAreRefused := by
  intro s size off v rest h
  have hno := not_accessOk h
  refine ⟨fun he => ?_, fun he => ?_⟩ <;> rw [step_pending he, agentMove, if_neg hno]

/-! ### Runs -/

/-- A sound machine makes a step, whether or not a move is pending: the pending move, the next step of the operation in
flight, or none at all when it is idle. -/
theorem Sound.step_next {s : State} (h : Sound s) (hok : ∀ e ∈ s.events, eventOk e = true) : ∃ t, step s = .next t := by
  cases he : s.events with
  | cons e rest => exact h.step_answers he (hok e (he ▸ List.mem_cons_self))
  | nil =>
    cases hb : s.busy with
    | true =>
      obtain ⟨t, ht, -⟩ := h.step_comesCloser he hb
      exact ⟨t, ht⟩
    | false => exact ⟨s, step_idle he ((busy_eq_false_iff s).mp hb)⟩

/-- A step adds no move, so the moves that are still pending are ones that the interface has. -/
theorem step_keeps_eventOk {s t : State} (h : step s = .next t) (hok : ∀ e ∈ s.events, eventOk e = true) :
    ∀ e ∈ t.events, eventOk e = true := by
  rw [step_events h]
  exact fun e he => hok e (List.mem_of_mem_tail he)

/-- Settles O18: each step is made and keeps both the invariant and the premise on the pending moves. -/
theorem soundRunsNeverStop : Obligations.SoundRunsNeverStop := by
  intro n
  induction n with
  | zero => exact fun s _ _ => ⟨s, rfl⟩
  | succ n ih =>
    intro s h hok
    obtain ⟨t, ht⟩ := h.step_next hok
    obtain ⟨u, hu⟩ := ih t (stepKeepsSound s t h ht) (step_keeps_eventOk ht hok)
    exact ⟨u, (runSteps_succ n ht).trans hu⟩

end Sys2Proof.Machine
end

section
/-! SUPPORT. Decoding and encoding are inverse to each other, and a word that is no operation fails the check that
`30_encoding.md` R94 names first. -/

namespace Sys2Proof

open Machine

/-! ### From operations to words -/

/-- An operation whose encoding is the word of its row, with 0 in the fields that the row does not use, is decoded. -/
theorem decodeCode_of_row {i : Instr} {f : Byte} {p : Precision} {m : CoordMode} {x y : Byte} {u : Uses}
    (he : encode i = .opw (opWord f p m x y)) (hf : funcMap f p m x y = some (u, i)) (hp : u.p = true ∨ p = .standard)
    (hm : u.m = true ∨ m = .raDec) (hx : u.imm8 = true ∨ x = 0) (hy : u.imm8b = true ∨ y = 0) :
    decodeCode (encode i) = .op i := by
  rw [he]
  exact decode_of_fields hf hp hm hx hy

/-- Settles O1: row by row of the three tables, by the fields that an operation's row uses. -/
theorem decodeInvertsEncode : Obligations.DecodeInvertsEncode := by
  intro i
  cases i with
  | qnt p | dqnt p | cbSync p | decPos p => exact decodeCode_of_row rfl rfl (.inl rfl) (.inr rfl) (.inr rfl) (.inr rfl)
  | cbGetpos p m | cbGoto p m => exact decodeCode_of_row rfl rfl (.inl rfl) (.inl rfl) (.inr rfl) (.inr rfl)
  | fbByte x | fbUint x | fbHex x | fbDec x | cbSettrk x | cbSettime x | cbEcho x | ptSlewfix x | ptSlewvar x
  | ptGetdevver x => exact decodeCode_of_row rfl rfl (.inr rfl) (.inr rfl) (.inl rfl) (.inr rfl)
  | ptBuild x y => exact decodeCode_of_row rfl rfl (.inr rfl) (.inr rfl) (.inl rfl) (.inl rfl)
  | dmsenc | dmsdec | deg2sec | sec2deg | fbClear | cbGettrk | cbGetloc | cbSetloc | cbGettime | cbGetver | cbGetmodel
  | cbGetalign | cbGetgoto | cbCancel | send | recv | ptRecv | decTrk | decLoc | decTime | decEcho | decAlign
  | decGoto => exact decodeCode_of_row rfl rfl (.inr rfl) (.inr rfl) (.inr rfl) (.inr rfl)
  | _ => rfl

/-- The word that the host makes of an operation's fields is its encoding (`30_encoding.md` R108). -/
theorem encodedAs_of_encode {i : Instr} (f : Byte) (p : Precision) (m : CoordMode) (x y : Byte)
    (h : encode i = .opw (opWord f p m x y)) : EncodedAs i f.toNat p.bit.toNat m.bit.toNat x.toNat y.toNat := by
  have hd := decodeInvertsEncode i
  rw [h, ← fieldWord_eq_opWord] at hd
  exact hd

theorem bit_toNat_precision (p : Bool) : (if p then Precision.high else .standard).bit.toNat = p.toNat := by
  cases p <;> rfl

theorem bit_toNat_mode (m : Bool) : (if m then CoordMode.azmAlt else .raDec).bit.toNat = m.toNat := by
  cases m <;> rfl

/-- Settles O4: each word is the encoding of its row's operation, which decoding gives back. -/
theorem funcMapDecodes : Obligations.FuncMapDecodes := by
  intro x y
  have imm8 {i : Instr} (f : Byte) (h : encode i = .opw (opWord f .standard .raDec x 0)) :
      EncodedAs i f.toNat 0 0 x.toNat 0 := encodedAs_of_encode f .standard .raDec x 0 h
  have plain {i : Instr} (f : Byte) (h : encode i = .opw (opWord f .standard .raDec 0 0)) :
      EncodedAs i f.toNat 0 0 0 0 := encodedAs_of_encode f .standard .raDec 0 0 h
  refine ⟨fun p m => ?_, imm8 0x31 rfl, imm8 0x32 rfl, imm8 0x33 rfl, imm8 0x34 rfl, imm8 0x44 rfl, imm8 0x48 rfl,
    imm8 0x4B rfl, encodedAs_of_encode 0x50 .standard .raDec x y rfl, imm8 0x51 rfl, imm8 0x52 rfl, imm8 0x53 rfl, ?_⟩
  · intro P M
    rw [← bit_toNat_precision, ← bit_toNat_mode]
    exact ⟨encodedAs_of_encode 0x10 P .raDec 0 0 rfl, encodedAs_of_encode 0x11 P .raDec 0 0 rfl,
      encodedAs_of_encode 0x40 P M 0 0 rfl, encodedAs_of_encode 0x41 P M 0 0 rfl,
      encodedAs_of_encode 0x42 P .raDec 0 0 rfl, encodedAs_of_encode 0x70 P .raDec 0 0 rfl⟩
  · simp only [List.forall_mem_cons]
    exact ⟨plain 0x20 rfl, plain 0x21 rfl, plain 0x22 rfl, plain 0x23 rfl, plain 0x30 rfl, plain 0x43 rfl, plain 0x45 rfl,
      plain 0x46 rfl, plain 0x47 rfl, plain 0x49 rfl, plain 0x4A rfl, plain 0x4C rfl, plain 0x4D rfl, plain 0x4E rfl,
      plain 0x60 rfl, plain 0x61 rfl, plain 0x62 rfl, plain 0x71 rfl, plain 0x72 rfl, plain 0x73 rfl, plain 0x74 rfl,
      plain 0x75 rfl, plain 0x76 rfl, List.forall_mem_nil _⟩

/-- Settles O5: the words are closed, and decoding evaluates. -/
theorem sampleWordsDecode : Obligations.SampleWordsDecode := by
  refine ⟨?_, ?_, ?_, ?_, ?_, ?_, ?_⟩ <;> decide

/-! ### From words to operations -/

/-- The fields that the operation of a FUNC uses (`30_encoding.md` R92). -/
def usesOf (f : Byte) : Uses :=
  { p := decide (f ∈ funcsWithP), m := decide (f ∈ funcsWithM), imm8 := decide (f ∈ funcsWithImm8)
    imm8b := decide (f ∈ funcsWithImm8b) }

/-- FUNC_MAP has a row for each listed FUNC value, with the fields that it uses. -/
theorem funcMap_of_mem (p : Precision) (m : CoordMode) (x y : Byte) :
    ∀ f ∈ listedFuncs, ∃ i, funcMap f p m x y = some (usesOf f, i) := by
  repeat refine List.forall_mem_cons.mpr ⟨⟨_, rfl⟩, ?_⟩
  exact List.forall_mem_nil _

/-- FUNC_MAP has no other row. -/
theorem funcMap_of_not_mem {f : Byte} (hf : f ∉ listedFuncs) (p : Precision) (m : CoordMode) (x y : Byte) :
    funcMap f p m x y = none := by
  unfold funcMap
  split
  case h_41 => rfl
  all_goals exact absurd (by decide) hf

/-- The operation of a row is encoded with the fields that the row uses, and 0 in the others (`30_encoding.md` R92). -/
theorem encode_of_funcMap {f : Byte} {p : Precision} {m : CoordMode} {x y : Byte} {u : Uses} {i : Instr}
    (h : funcMap f p m x y = some (u, i)) :
    encode i = .opw (opWord f (if u.p then p else .standard) (if u.m then m else .raDec) (if u.imm8 then x else 0)
      (if u.imm8b then y else 0)) := by
  unfold funcMap at h
  split at h <;> cases h <;> rfl

/-- What a word must be to decode to an operation: its FUNC has a row, RSV is 0 and no unused field is set
(`30_encoding.md` R94). -/
theorem decode_eq_op {w : Word32} {i : Instr} (h : decode w = .op i) :
    ∃ u, funcMap (opwFunc w) (Precision.ofBit (opwP w)) (CoordMode.ofBit (opwM w)) (opwImm8 w) (opwImm8b w) = some (u, i) ∧
      opwRsv w = 0 ∧ unusedFieldSet u w = false := by
  unfold decode at h
  split at h
  · cases h
  · rename_i u j hj
    split at h
    · cases h
    · rename_i hr
      split at h
      · cases h
      · rename_i hu
        cases h
        exact ⟨u, hj, not_not.mp hr, by simpa using hu⟩

/-- With no unused field set, the fields that an operation uses, and 0 in the others, are the fields of the word. -/
theorem usedFields_of_unusedFieldSet {u : Uses} {w : Word32} (h : unusedFieldSet u w = false) :
    (if u.p then Precision.ofBit (opwP w) else .standard) = Precision.ofBit (opwP w) ∧
      (if u.m then CoordMode.ofBit (opwM w) else .raDec) = CoordMode.ofBit (opwM w) ∧
      (if u.imm8 then opwImm8 w else 0) = opwImm8 w ∧ (if u.imm8b then opwImm8b w else 0) = opwImm8b w := by
  simp only [unusedFieldSet, Bool.or_eq_false_iff, Bool.and_eq_false_iff, Bool.not_eq_false', bne_eq_false_iff_eq] at h
  obtain ⟨⟨⟨hp, hm⟩, hx⟩, hy⟩ := h
  refine ⟨?_, ?_, ?_, ?_⟩
  · rcases hp with hp | hp <;> simp [hp, Precision.ofBit]
  · rcases hm with hm | hm <;> simp [hm, CoordMode.ofBit]
  · rcases hx with hx | hx <;> simp [hx]
  · rcases hy with hy | hy <;> simp [hy]

/-- An operation word that decodes to an operation is its encoding. -/
theorem encode_of_decode_eq {w : Word32} {i : Instr} (h : decode w = .op i) : encode i = .opw w := by
  obtain ⟨u, hrow, hrsv, hunused⟩ := decode_eq_op h
  obtain ⟨hp, hm, hx, hy⟩ := usedFields_of_unusedFieldSet hunused
  rw [encode_of_funcMap hrow, hp, hm, hx, hy, opWord_fields w hrsv]

/-- A listed wire opcode byte is the encoding of its instruction. -/
theorem encode_of_wireOpcode {b : Byte} {i : Instr} (h : wireOpcode b = some i) : encode i = .wire b := by
  unfold wireOpcode at h
  split at h <;> cases h <;> rfl

/-- A listed sub-command code is the encoding of its instruction. -/
theorem encode_of_subCommand {b : Byte} {i : Instr} (h : subCommand b = some i) : encode i = .sub b := by
  unfold subCommand at h
  split at h <;> cases h <;> rfl

/-- A byte that decodes to a wire opcode is listed. -/
theorem decodeCode_wire_iff (b : Byte) (i : Instr) : decodeCode (.wire b) = .op i ↔ wireOpcode b = some i := by
  cases h : wireOpcode b <;> simp [decodeCode, h]

/-- A byte that decodes to a sub-command is listed. -/
theorem decodeCode_sub_iff (b : Byte) (i : Instr) : decodeCode (.sub b) = .op i ↔ subCommand b = some i := by
  cases h : subCommand b <;> simp [decodeCode, h]

/-- Settles O2: format by format; the fields of an operation word make it up. -/
theorem encodeInvertsDecode : Obligations.EncodeInvertsDecode := by
  intro c i h
  cases c with
  | opw w => exact encode_of_decode_eq h
  | wire b => exact encode_of_wireOpcode ((decodeCode_wire_iff b i).mp h)
  | sub b => exact encode_of_subCommand ((decodeCode_sub_iff b i).mp h)

/-! ### Words that are no operation -/

/-- A bit of a word, as a field of one bit. -/
theorem extractLsb'_one_bne_zero {n : ℕ} (w : BitVec n) (j : ℕ) : (w.extractLsb' j 1 != 0) = w.getLsbD j := by
  have bit : ∀ v : BitVec 1, (v != 0) = v.getLsbD 0 := by decide
  rw [bit]
  simp

/-- The word has a field set that the operation of its FUNC does not use (`30_encoding.md` R93 case 3). -/
theorem unusedFieldSet_usesOf_iff (w : Word32) :
    unusedFieldSet (usesOf (opwFunc w)) w = true ↔
      (w.getLsbD 8 = true ∧ opwFunc w ∉ funcsWithP) ∨ (w.getLsbD 9 = true ∧ opwFunc w ∉ funcsWithM) ∨
        (opwImm8 w ≠ 0 ∧ opwFunc w ∉ funcsWithImm8) ∨ (opwImm8b w ≠ 0 ∧ opwFunc w ∉ funcsWithImm8b) := by
  simp only [unusedFieldSet, usesOf, opwP, opwM, extractLsb'_one_bne_zero, Bool.or_eq_true, Bool.and_eq_true,
    Bool.not_eq_true', decide_eq_false_iff_not, bne_iff_ne, or_assoc]

/-- A word whose FUNC is not listed (`30_encoding.md` R94). -/
theorem decode_of_not_listed {w : Word32} (hf : opwFunc w ∉ listedFuncs) : decode w = .illegal .rsvdFunc := by
  rw [decode, funcMap_of_not_mem hf]

/-- A word whose FUNC is listed (`30_encoding.md` R94): the checks that are left, in their order. -/
theorem decode_of_listed {w : Word32} (hf : opwFunc w ∈ listedFuncs) :
    ∃ i, decode w =
      if opwRsv w ≠ 0 then .illegal .rsvdBits
      else if unusedFieldSet (usesOf (opwFunc w)) w then .illegal .unusedField else .op i := by
  obtain ⟨i, hi⟩ := funcMap_of_mem (Precision.ofBit (opwP w)) (CoordMode.ofBit (opwM w)) (opwImm8 w) (opwImm8b w) _ hf
  exact ⟨i, by rw [decode, hi]⟩

/-- Settles O3: the checks of decoding in their order, and a word that passes them all is its operation's encoding. -/
theorem decodeRejectsReservedWords : Obligations.DecodeRejectsReservedWords := by
  intro w
  refine ⟨decode_of_not_listed, fun hf hr => ?_, fun hf hr => ⟨fun hu => ?_, fun hu => ?_⟩⟩
  all_goals obtain ⟨i, hd⟩ := decode_of_listed hf
  · rwa [if_pos (show opwRsv w ≠ 0 from hr)] at hd
  · rwa [if_neg (not_not.mpr (show opwRsv w = 0 from hr)), if_pos ((unusedFieldSet_usesOf_iff w).mpr hu)] at hd
  · rw [if_neg (not_not.mpr (show opwRsv w = 0 from hr)), if_neg (mt (unusedFieldSet_usesOf_iff w).mp hu)] at hd
    exact ⟨i, hd, encode_of_decode_eq hd⟩

end Sys2Proof
end

section
/-! SUPPORT. What a write of OPW and the TX sink's taking of an instruction's byte do to the whole state (`30_encoding.md`
R95, R96, R100 to R106), and the builders and decoders whose reply lengths are parameters (R103). -/

namespace Sys2Proof.Machine

/-! ### A write of OPW -/

/-- The step of a host's write of OPW. -/
theorem step_writeOpw {s : State} {w : Word32} {rest : List Event} (he : s.events = .hostWrite .word 0x000 w :: rest) :
    step s = writeOpw w (moved rest s) := by
  rw [step_pending he]
  rfl

/-- Settles O6: an idle NXPE accepts the word, and `accepted` is what acceptance leaves. -/
theorem acceptedWordRuns : Obligations.AcceptedWordRuns := by
  intro s w i rest he hb hd
  have hidle : ¬ (moved rest s).busy = true := fun h => Bool.noConfusion (hb.symm.trans h)
  rw [step_writeOpw he, writeOpw, if_neg hidle, hd]
  rfl

/-- Settles O8: a busy NXPE drops the word. -/
theorem collisionDropsTheWord : Obligations.CollisionDropsTheWord := by
  intro s w rest he hb
  rw [step_writeOpw he, writeOpw, if_pos (show (moved rest s).busy = true from hb)]

/-! ### The TX sink's instructions -/

/-- Settles O58: the tables of `30_encoding.md` R100 to R105, row by row. -/
theorem wireBytesAreTaken : Obligations.WireBytesAreTaken := by
  intro s R
  constructor
  all_goals
    repeat refine List.forall_mem_cons.mpr ⟨⟨rfl, rfl⟩, ?_⟩
    exact List.forall_mem_nil _

/-- A byte that is an instruction at its place on the TX stream. -/
theorem sinkInstr_of_decodeCode {k : TxSink} {b : Byte} {j : Instr}
    (h : k.left = 0 ∧ decodeCode (.wire b) = .op j ∨ k.inPassthrough 3 = true ∧ decodeCode (.sub b) = .op j) :
    sinkInstr k b = some j := by
  rw [sinkInstr]
  rcases h with ⟨hl, hd⟩ | ⟨hp, hd⟩
  · rw [if_pos hl]
    exact (decodeCode_wire_iff b j).mp hd
  · have hl : k.left ≠ 0 := by
      intro h0
      simp [TxSink.inPassthrough, h0] at hp
    rw [if_neg hl, if_pos hp]
    exact (decodeCode_sub_iff b j).mp hd

/-- SEND goes on, or completes, by the count of the bytes that are left. -/
theorem advanceSend_eq (l : Latch) (i : ℕ) (s : State) :
    advanceSend l i s =
      { s with
        inflight := if i + 1 < s.txlen.toNat then some { latch := l, activity := .send (i + 1) } else none
        done := if i + 1 < s.txlen.toNat then s.done else true } := by
  unfold advanceSend
  split <;> rfl

/-- SEND's step with a byte that is an instruction: the instruction runs, and SEND goes on. -/
theorem emitByte_of_sinkInstr {l : Latch} {i : ℕ} {j : Instr} {s t : State} (hi : i < s.txlen.toNat) (hcap : i < Config.txCap)
    (hj : sinkInstr s.sink (s.txByte i) = some j) (ht : exec j s = .next t) :
    emitByte l i s = .next (advanceSend l i t) := by
  rw [emitByte, if_neg (by omega), if_neg (by omega), hj]
  simp only
  rw [ht, thenNext]

/-- Settles O9: the byte that the sink takes is an instruction there, which changes the sink alone. -/
theorem wireByteRuns : Obligations.WireByteRuns := by
  intro s t l i j rest he hf hi hlen hj ht
  have hinstr := sinkInstr_of_decodeCode hj
  obtain ⟨k, hk, -⟩ := exec_sinkInstr (s := moved rest s) hinstr
  have htx : t.txlen = s.txlen := by
    cases hk.symm.trans ht
    rfl
  rw [step_txTake he hf, emitByte_of_sinkInstr (s := moved rest s) hi (hi.trans_le hlen) hinstr ht, advanceSend_eq, htx]

/-! ### Reply lengths -/

/-- Settles O42: each emits its opcode byte, and EXPLEN takes the parameter. -/
theorem openLengthQueriesBuild : Obligations.OpenLengthQueriesBuild := fun _ hwf =>
  ⟨builds_of_finish hwf rfl, builds_of_finish hwf rfl, builds_of_finish hwf rfl, builds_of_finish hwf rfl,
    builds_of_finish hwf rfl⟩

/-- A decoder, whose first check is for its frame, raises NO_FRAME without one (`42_response_framer.md` R220). -/
theorem raises_noFrame {i : Instr} {s : State} {n : Byte} {checked : Except OpError State}
    (hi : exec i s = finish s (if !hasFrame s n then .error (.usage .noFrame) else checked))
    (h : s.rxvalid = false ∨ s.rxlen ≠ n) : Raises i s (.usage .noFrame) := by
  have hno : hasFrame s n = false := by
    rw [hasFrame, Bool.and_eq_false_iff, beq_eq_false_iff_ne]
    exact h
  rw [hno] at hi
  exact raises_of_finish hi

/-- Settles O52: every decoder looks for its frame first. -/
theorem decodersNeedAFrame : Obligations.DecodersNeedAFrame := by
  intro s
  repeat refine List.forall_mem_cons.mpr ⟨raises_noFrame rfl, ?_⟩
  exact List.forall_mem_nil _

end Sys2Proof.Machine
end

section
/-! SUPPORT. One engine move of a read in flight with a byte waiting (`42_response_framer.md` R211, R212, `43_passthrough.md`
R256), with the whole state that it leaves. -/

namespace Sys2Proof.Machine

/-- Where a byte waits, the engine's move of a read in flight is its step on that byte, whether the move is pending or the
engine goes on by itself. -/
theorem step_engineMove {s : State} {f : InFlight} {rest : List Event}
    (he : s.events = .engine :: rest ∨ s.events = [] ∧ rest = []) (hf : s.inflight = some f)
    (hn : ∀ i, f.activity ≠ .send i) (hrx : s.rx ≠ []) :
    step s = .next (engineStep f (moved rest s)) := by
  rcases he with he | ⟨he, rfl⟩
  · exact step_engine he hf
  · rw [step_readGoesOn he hf hn, if_neg hrx]

/-- The byte that a framing read has stored. -/
theorem storeRx_rxByte {k : ℕ} (b : Byte) (rest : List Byte) {s : State} (hwf : s.mem.wf = true) :
    (storeRx k b rest s).rxByte k = b := Memory.read_write_same (rxAddr k) b hwf

/-- The state with the last byte of N+1 stored and recorded, from which the attempt's end starts. -/
def lastStored (l : Latch) (b : Byte) (tl : List Byte) (s : State) : State :=
  withDiagnostics l.e (l.e.toNat + 1) b (storeRx l.e.toNat b tl s)

/-- The diagnostics of a framing read that has stored its last byte. -/
theorem withDiagnostics_storeRx (l : Latch) (b : Byte) (tl : List Byte) {s : State} (hwf : s.mem.wf = true) :
    withDiagnostics l.e (l.e.toNat + 1)
        (if l.e.toNat + 1 = 0 then 0 else (storeRx l.e.toNat b tl s).rxByte (l.e.toNat + 1 - 1))
        (storeRx l.e.toNat b tl s) = lastStored l b tl s := by
  rw [if_neg (Nat.succ_ne_zero _), Nat.add_sub_cancel, storeRx_rxByte b tl hwf, lastStored]

/-- A framing read whose last byte is the terminator has succeeded. -/
theorem frameOutcome_storeRx_term (l : Latch) (tl : List Byte) {s : State} (hwf : s.mem.wf = true) :
    frameOutcome l.e (l.e.toNat + 1) (storeRx l.e.toNat Config.term tl s) = none :=
  (frameOutcome_none_iff _ _ _).mpr ⟨le_refl _, storeRx_rxByte _ tl hwf⟩

/-- A framing read whose last byte is the terminator completes with its frame. -/
theorem ends_storeRx_term (r : ReadKind) (l : Latch) (tl : List Byte) {s : State} (hwf : s.mem.wf = true) :
    r.ends l (l.e.toNat + 1) (storeRx l.e.toNat Config.term tl s) =
      { lastStored l Config.term tl s with rxlen := l.e, rxvalid := true, inflight := none, done := true } := by
  rw [r.ends_of_none (frameOutcome_storeRx_term l tl hwf), withDiagnostics_storeRx l _ tl hwf]

/-- A framing read whose last byte is another has failed. -/
theorem frameOutcome_storeRx_badTerm (l : Latch) {b : Byte} (tl : List Byte) {s : State} (hwf : s.mem.wf = true)
    (hb : b ≠ Config.term) : frameOutcome l.e (l.e.toNat + 1) (storeRx l.e.toNat b tl s) = some .badTerm :=
  (frameOutcome_badTerm_iff _ _ _).mpr ⟨le_refl _, by rwa [storeRx_rxByte b tl hwf]⟩

/-- RECV whose last byte is not the terminator raises BAD_TERM. -/
theorem endRecv_storeRx_badTerm (l : Latch) {b : Byte} (tl : List Byte) {s : State} (hwf : s.mem.wf = true)
    (hb : b ≠ Config.term) :
    endRecv l (l.e.toNat + 1) (storeRx l.e.toNat b tl s) =
      { lastStored l b tl s with
        rxlen := 0, rxvalid := false, inflight := none, done := true, error := some (.protocol .badTerm) } := by
  rw [endRecv_of_some (frameOutcome_storeRx_badTerm l tl hwf hb), withDiagnostics_storeRx l b tl hwf]
  rfl

/-- Phase 1 of PT_RECV whose last byte is not the terminator goes on to the recovery read. -/
theorem endPtPhase1_storeRx_badTerm (l : Latch) {b : Byte} (tl : List Byte) {s : State} (hwf : s.mem.wf = true)
    (hb : b ≠ Config.term) :
    endPtPhase1 l (l.e.toNat + 1) (storeRx l.e.toNat b tl s) =
      { lastStored l b tl s with
        rxlen := 0, rxvalid := false, inflight := some { latch := l, activity := .ptRecovery .badTerm l.t } } := by
  rw [endPtPhase1_of_some (frameOutcome_storeRx_badTerm l tl hwf hb), withDiagnostics_storeRx l b tl hwf]

/-- The recovery byte is the terminator: PT_RECV has no answer. -/
theorem recoveryByte_term (o : FrameFail) (s : State) :
    recoveryByte o Config.term s =
      raise .noAnswer { s with xbyte := { s.xbyte with recGot := true, recByte := Config.term } } := by
  rw [recoveryByte]
  exact if_pos rfl

/-- The recovery byte is another: PT_RECV ends with phase 1's error. -/
theorem recoveryByte_of_ne (o : FrameFail) {x : Byte} (s : State) (hx : x ≠ Config.term) :
    recoveryByte o x s = recoveryFailed o { s with xbyte := { s.xbyte with recGot := true, recByte := x } } := by
  rw [recoveryByte]
  exact if_neg hx

/-- Settles O59: the engine's step of a framing read before its last byte and with it, for RECV and PT_RECV, and of the
recovery read. -/
theorem engineTakesOneByte : Obligations.EngineTakesOneByte := by
  intro s l m b tl rest he hwf hrx
  have hne : s.rx ≠ [] := by rw [hrx]; exact List.cons_ne_nil _ _
  have hrx' : (moved rest s).rx = b :: tl := hrx
  refine ⟨fun pt k hk hf => ?_, fun o d hd hf => ?_⟩
  · obtain ⟨r, hr, hpt⟩ : ∃ r : ReadKind, (∀ k, (if pt then Activity.ptRecv k m else .recv k m) = r.activity k m) ∧
        r = if pt then .ptRecv else .recv := ⟨_, by cases pt <;> exact fun _ => rfl, rfl⟩
    rw [hr] at hf
    have hs := step_engineMove he hf (r.activity_ne_send k m) hne
    obtain ⟨hstored, hkept⟩ := stored_writeList (rxAddr k) [b] hwf
    refine ⟨_, hstored, hkept, fun hlt => ?_, ?_⟩
    · rw [hr, hs, engineStep_read_more r hrx' (Nat.succ_lt_succ hlt)]
      rfl
    · rintro rfl u
      rw [engineStep_read_last r hrx' rfl] at hs
      refine ⟨fun hb => ?_, fun hb hp => ?_, fun hb hp => ?_⟩
      · obtain rfl : b = Config.term := hb
        rw [hs, ends_storeRx_term r l tl (s := moved rest s) hwf]
        rfl
      · obtain rfl : r = .recv := by rw [hpt, hp]; rfl
        rw [hs, ReadKind.ends, endRecv_storeRx_badTerm l tl (s := moved rest s) hwf hb]
        rfl
      · obtain rfl : r = .ptRecv := by rw [hpt, hp]; rfl
        rw [hs, ReadKind.ends, endPtPhase1_storeRx_badTerm l tl (s := moved rest s) hwf hb]
        rfl
  · intro u
    have hdet : o.detail = d := by rcases hd with ⟨rfl, rfl⟩ | ⟨rfl, rfl⟩ <;> rfl
    have hs := step_engineMove he hf nofun hne
    rw [engineStep_ptRecovery hrx'] at hs
    refine ⟨fun hb => ?_, fun hb => ?_⟩
    · obtain rfl : b = Config.term := hb
      rw [hs, recoveryByte_term]
      rfl
    · rw [hs, recoveryByte_of_ne o _ hb, recoveryFailed, hdet]
      rfl

end Sys2Proof.Machine
end

section
/-! SUPPORT. The frame of a builder, sent with no agent's move pending, is one request to a receiver that finds request
boundaries from the opcode alone (`30_encoding.md` R101 to R106, `41_command_builder.md` R166). -/

namespace Sys2Proof.Machine

/-! ### SEND with no move pending -/

/-- The sink takes the byte `b`, as the instruction it is at its place or as a plain byte, and is `k` then. -/
def SinkTakes (s : State) (b : Byte) (k : TxSink) : Prop :=
  (∃ j, sinkInstr s.sink b = some j ∧ exec j s = .next { s with sink := k }) ∨
    (sinkInstr s.sink b = none ∧ takePlain b s = { s with sink := k })

/-- SEND's step hands the byte to the sink and goes on, or completes. -/
theorem emitByte_of_sinkTakes {l : Latch} {i : ℕ} {s : State} {k : TxSink} (hi : i < s.txlen.toNat) (hcap : i < Config.txCap)
    (h : SinkTakes s (s.txByte i) k) : emitByte l i s = .next (advanceSend l i { s with sink := k }) := by
  rcases h with ⟨j, hj, ht⟩ | ⟨hj, ht⟩
  · exact emitByte_of_sinkInstr hi hcap hj ht
  · rw [emitByte, if_neg (by omega), if_neg (by omega), hj]
    simp only
    rw [ht]

/-- A SEND of the frame `f` is in flight at index `i`, and no agent's move is pending. -/
structure Sending (l : Latch) (f : List Byte) (i : ℕ) (s : State) : Prop where
  unattended : s.events = []
  inflight : s.inflight = some { latch := l, activity := .send i }
  fits : f.length ≤ Config.txCap
  length : s.txlen.toNat = f.length
  frame : txFrame s f.length = f

theorem txFrame_getElem (s : State) {n j : ℕ} (h : j < (txFrame s n).length) : (txFrame s n)[j] = s.txByte j := by
  simp [txFrame]

/-- The byte that SEND offers next. -/
theorem Sending.txByte {l : Latch} {f : List Byte} {i : ℕ} {s : State} (h : Sending l f i s) (hi : i < f.length) :
    s.txByte i = f[i] := by
  have hframe := h.frame
  rw [← txFrame_getElem s (n := f.length) (by rwa [hframe])]
  simp only [hframe]

/-- The step of a SEND in flight. -/
theorem Sending.step_eq {l : Latch} {f : List Byte} {i : ℕ} {s : State} {k : TxSink} (h : Sending l f i s) (hi : i < f.length)
    (hk : SinkTakes (tick s) f[i] k) :
    step s = .next
      { tick s with
        sink := k
        inflight := if i + 1 < f.length then some { latch := l, activity := .send (i + 1) } else none
        done := if i + 1 < f.length then s.done else true } := by
  rw [← h.txByte hi] at hk
  rw [step_sendGoesOn h.unattended h.inflight, ← tick_eq_moved h.unattended,
    emitByte_of_sinkTakes (s := tick s) (h.length ▸ hi) (hi.trans_le h.fits) hk, advanceSend_eq, ← h.length]
  rfl

/-- A SEND in flight hands the rest of its frame to the sink, one byte a step, and completes. What every taking of a byte
keeps of the sink, index by index, holds at the end. -/
theorem Sending.runSteps_eq {l : Latch} {f : List Byte} {Inv : ℕ → TxSink → Prop} (n : ℕ) {i : ℕ} {s : State}
    (h : Sending l f i s) (hn : i + (n + 1) = f.length)
    (hInv : ∀ (t : State) (j : ℕ) (hj : j < f.length), t.params = s.params → Inv j t.sink →
      ∃ k, SinkTakes t f[j] k ∧ Inv (j + 1) k) (h0 : Inv i s.sink) :
    ∃ k, Inv f.length k ∧ runSteps (n + 1) s =
      .next { s with inflight := none, done := true, sink := k, freeCount := s.freeCount + (n + 1) } := by
  induction n generalizing i s with
  | zero =>
    obtain ⟨k, hk, h1⟩ := hInv (tick s) i (by omega) rfl h0
    have hstep := h.step_eq (by omega) hk
    rw [if_neg (by omega), if_neg (by omega)] at hstep
    exact ⟨k, hn ▸ h1, runSteps_succ 0 hstep⟩
  | succ n ih =>
    obtain ⟨k, hk, h1⟩ := hInv (tick s) i (by omega) rfl h0
    have hstep := h.step_eq (by omega) hk
    rw [if_pos (by omega), if_pos (by omega)] at hstep
    obtain ⟨k', hk', hrun⟩ := ih (i := i + 1)
      (s := { tick s with sink := k, inflight := some { latch := l, activity := .send (i + 1) } })
      ⟨h.unattended, rfl, h.fits, h.length, h.frame⟩ (by omega) hInv h1
    refine ⟨k', hk', ?_⟩
    rw [runSteps_succ _ hstep]
    refine hrun.trans ?_
    simp only [tick, show s.freeCount + 1 + (n + 1) = s.freeCount + (n + 1 + 1) by omega]

/-! ### What the receiver knows of a request -/

/-- The frame is a whole request whose reply has `n` bytes of payload: one that its opcode opens with the frame's length
and the reply's (`30_encoding.md` R100 to R103), or a passthrough frame (R104). -/
inductive IsRequest (P : Params) : List Byte → Byte → Prop where
  | command {op : Byte} {body : List Byte} {n : Byte} {len : ℕ} {j : Instr} (hj : wireOpcode op = some j)
    (hexec : ∀ s : State, exec j { s with params := P } = .next (openRequest op len (some n) { s with params := P }))
    (hlen : (op :: body).length = len) (hop : op ≠ 0x50) (hfit : len ≤ Config.txCap) :
    IsRequest P (op :: body) n
  | passthrough (len : ℕ) (dev : Byte) (body : List Byte) (n : Byte) : IsRequest P (ptFrame len dev body n) n

section request

variable {P : Params} {f : List Byte} {n : Byte}

theorem IsRequest.length_le (h : IsRequest P f n) : f.length ≤ Config.txCap := by
  cases h with
  | command hj hexec hlen hop hfit => rwa [hlen]
  | passthrough len dev body => exact (show 8 ≤ 32 by decide)

theorem IsRequest.length_pos (h : IsRequest P f n) : 0 < f.length := by
  cases h <;> exact Nat.succ_pos _

/-- The frame's first byte opens a request of the frame's length; a passthrough's reply length is not known yet. -/
theorem IsRequest.opens (h : IsRequest P f n) : ∃ op j, f.head? = some op ∧ wireOpcode op = some j ∧
    ∀ s : State, s.params = P →
      exec j s = .next (openRequest op f.length (if f.head? = some 0x50 then none else some n) s) := by
  cases h with
  | @command op body n len j hj hexec hlen hop hfit =>
    refine ⟨op, j, rfl, hj, ?_⟩
    rintro s rfl
    rw [hlen]
    rw [if_neg (by simpa using hop)]
    exact hexec s
  | passthrough len dev body => exact ⟨0x50, .wirePassthrough, rfl, rfl, fun _ _ => rfl⟩

/-- A passthrough frame has eight bytes, and the last one is the reply's payload length (`30_encoding.md` R104). -/
theorem IsRequest.passthrough_reply (h : IsRequest P f n) (hp : f.head? = some 0x50) : f.length = 8 ∧ f[7]? = some n := by
  cases h with
  | command hj hexec hlen hop => exact absurd (Option.some.inj hp) hop
  | passthrough len dev body => exact ⟨rfl, rfl⟩

/-- What the receiver knows after `i` bytes of the request `f` whose reply has `n` bytes of payload, with the bytes `sent`
before it (`30_encoding.md` R106): of a passthrough frame the reply's length comes with byte 7 (R104). -/
structure Received (sent f : List Byte) (n : Byte) (i : ℕ) (k : TxSink) : Prop where
  stream : k.stream = sent ++ f.take i
  left : k.left = if i = 0 then 0 else f.length - i
  request : i ≠ 0 → k.request = f.take i
  reply : i ≠ 0 → k.reply = if f.head? = some 0x50 ∧ i < 8 then none else some n

/-- At a request boundary the sink takes the first byte of a request. -/
theorem IsRequest.takes_first {sent : List Byte} {s : State} (h : IsRequest P f n) (hP : s.params = P)
    (hr : Received sent f n 0 s.sink) : ∃ k, SinkTakes s (f[0]'h.length_pos) k ∧ Received sent f n 1 k := by
  obtain ⟨op, j, hop, hj, hexec⟩ := h.opens
  obtain ⟨body, rfl⟩ := List.head?_eq_some_iff.mp hop
  have hinstr : sinkInstr s.sink op = some j := (if_pos hr.left).trans hj
  refine ⟨_, .inl ⟨j, hinstr, hexec s hP⟩, ?_, rfl, fun _ => rfl, fun _ => ?_⟩
  · change s.sink.stream ++ [op] = _
    rw [hr.stream]
    simp
  · simp

/-- Inside a request, the receiver is at byte `j` of a passthrough frame just when the frame is one and `j` bytes came. -/
theorem Received.inPassthrough_iff {sent : List Byte} {i : ℕ} {k : TxSink} (h : Received sent f n i k) (h0 : i ≠ 0)
    (hi : i < f.length) (j : ℕ) : k.inPassthrough j = true ↔ f.head? = some 0x50 ∧ i = j := by
  have hlen : (f.take i).length = i := List.length_take_of_le hi.le
  have hleft : k.left ≠ 0 := by
    rw [h.left, if_neg h0]
    omega
  simp only [TxSink.inPassthrough, h.request h0, hlen, List.head?_take, if_neg h0, Bool.and_eq_true, bne_iff_ne, ne_eq, hleft,
    not_false_eq_true, true_and, beq_iff_eq]

/-- The receiver with one more byte of the request. -/
theorem Received.succ {sent : List Byte} {i : ℕ} {k k' : TxSink} (h : Received sent f n i k) (h0 : i ≠ 0) (hi : i < f.length)
    (hstream : k'.stream = k.stream ++ [f[i]]) (hrequest : k'.request = k.request ++ [f[i]]) (hleft : k'.left = k.left - 1)
    (hreply : k'.reply = if f.head? = some 0x50 ∧ i + 1 < 8 then none else some n) : Received sent f n (i + 1) k' where
  stream := by rw [hstream, h.stream, List.append_assoc, List.take_append_getElem hi]
  left := by
    rw [hleft, h.left, if_neg h0, if_neg (Nat.succ_ne_zero i)]
    omega
  request := fun _ => by rw [hrequest, h.request h0, List.take_append_getElem hi]
  reply := fun _ => hreply

/-- A sub-command's instruction takes its code. -/
theorem exec_subCommand {b : Byte} {j : Instr} (h : subCommand b = some j) (s : State) :
    ∃ c, exec j s = .next (takeSubCommand b c s) := by
  unfold subCommand at h
  split at h <;> cases h <;> exact ⟨_, rfl⟩

/-- Inside a request, a plain byte is one more byte of it. -/
theorem takePlain_sink_of_left {s : State} (b : Byte) (h : s.sink.left ≠ 0) :
    (takePlain b s).sink =
      { s.sink with
        stream := s.sink.stream ++ [b], request := s.sink.request ++ [b], left := s.sink.left - 1
        reply := if s.sink.inPassthrough 7 then some b else s.sink.reply } := by
  change (if s.sink.left = 0 then _ else _) = _
  rw [if_neg h]

/-- Inside a request the sink takes its next byte. -/
theorem IsRequest.takes_next {sent : List Byte} {i : ℕ} {s : State} (h : IsRequest P f n) (h0 : i ≠ 0) (hi : i < f.length)
    (hr : Received sent f n i s.sink) : ∃ k, SinkTakes s f[i] k ∧ Received sent f n (i + 1) k := by
  have hleft : s.sink.left ≠ 0 := by
    rw [hr.left, if_neg h0]
    omega
  cases hj : sinkInstr s.sink f[i] with
  | some j =>
    have hj' := hj
    rw [sinkInstr, if_neg hleft] at hj'
    split at hj'
    · rename_i h3
      obtain ⟨hp, rfl⟩ := (hr.inPassthrough_iff h0 hi 3).mp h3
      obtain ⟨c, hc⟩ := exec_subCommand hj' s
      refine ⟨_, .inl ⟨j, hj, hc⟩, hr.succ h0 hi rfl rfl rfl ?_⟩
      refine (hr.reply h0).trans ?_
      rw [if_pos ⟨hp, by decide⟩, if_pos ⟨hp, by decide⟩]
    · cases hj'
  | none =>
    refine ⟨(takePlain f[i] s).sink, .inr ⟨hj, rfl⟩, ?_⟩
    have hk := takePlain_sink_of_left f[i] hleft
    refine hr.succ h0 hi (by rw [hk]) (by rw [hk]) (by rw [hk]) ?_
    rw [hk]
    simp only [hr.inPassthrough_iff h0 hi 7]
    split
    · rename_i h7
      obtain ⟨hp, rfl⟩ := h7
      obtain ⟨-, hn⟩ := h.passthrough_reply hp
      rw [if_neg (by omega), ← hn, List.getElem?_eq_getElem hi]
    · rename_i h7
      have hiff : (f.head? = some 0x50 ∧ i < 8) ↔ (f.head? = some 0x50 ∧ i + 1 < 8) :=
        
        and_congr_right fun hp => by
          have hne : i ≠ 7 := fun h => h7 ⟨hp, h⟩
          omega
      rw [hr.reply h0]
      simp only [hiff]

/-- The sink takes each byte of a request in its turn. -/
theorem IsRequest.takes {sent : List Byte} {i : ℕ} {s : State} (h : IsRequest P f n) (hP : s.params = P) (hi : i < f.length)
    (hr : Received sent f n i s.sink) : ∃ k, SinkTakes s f[i] k ∧ Received sent f n (i + 1) k := by
  rcases Nat.eq_zero_or_pos i with rfl | h0
  · exact h.takes_first hP hr
  · exact h.takes_next (Nat.pos_iff_ne_zero.mp h0) hi hr

/-! ### What the builders make -/

/-- An atomic operation that completed without an error made its state. -/
theorem finish_ok_of_error_none {s t : State} {r : Except OpError State} (h : finish s r = .next t) (he : t.error = none) :
    ∃ u, r = .ok u ∧ t = complete u := by
  rcases finish_eq_next h with h | ⟨e, -, rfl⟩
  · exact h
  · cases he

/-- The builder begun in `s` has completed in `t` with the whole request `f`, whose reply has `n` bytes of payload
(`41_command_builder.md` R166). -/
structure Built (s t : State) (f : List Byte) (n : Byte) : Prop where
  isRequest : IsRequest s.params f n
  mem : t.mem = s.mem.writeList (txAddr 0) f
  txlen : t.txlen = BitVec.ofNat 6 f.length
  explen : t.explen = n
  params : t.params = s.params
  events : t.events = s.events
  sink : t.sink = s.sink

/-- Emitting a whole request and completing. -/
theorem built_emit {s : State} (h : IsRequest s.params f n) : Built s (complete (emit f n s)) f n :=
  ⟨h, rfl, rfl, rfl, rfl, rfl, rfl⟩

/-- An opcode byte and the texts of two angles are a whole request, where the opcode opens one of that length. -/
theorem isRequest_anglePair {op : Byte} {len : ℕ} {j : Instr} {ar : Arith} {x y : Word64} (p : Precision)
    (hj : wireOpcode op = some j)
    (hexec : ∀ s : State, exec j { s with params := P } = .next (openRequest op len (some n) { s with params := P }))
    (hlen : 2 * hexDigits p + 2 = len) (hop : op ≠ 0x50) (hfit : len ≤ Config.txCap) :
    IsRequest P ([op] ++ anglePair ar x y p) n := by
  have hpair : (anglePair ar x y p).length + 1 = len := by rw [anglePair_length, hlen]
  generalize anglePair ar x y p = body at hpair
  exact .command hj hexec hpair hop hfit

/-- Every builder that completes has made a whole request, with EXPLEN its reply's length. -/
theorem exec_builder {i : Instr} {s t : State} (hb : isBuilder i = true) (h : exec i s = .next t) (he : t.error = none) :
    ∃ f n, Built s t f n := by
  cases i with
  | cbGetpos p m =>
    cases h
    cases p <;> cases m <;> exact ⟨_, _, built_emit (.command rfl (fun _ => rfl) rfl (by decide) (by decide))⟩
  | cbGettrk | cbGetloc | cbGettime | cbGetver | cbGetmodel | cbGetalign | cbGetgoto | cbCancel =>
    cases h
    exact ⟨_, _, built_emit (.command rfl (fun _ => rfl) rfl (by decide) (by decide))⟩
  | cbEcho b =>
    cases h
    exact ⟨[0x4B, b], 1, .command rfl (fun _ => rfl) rfl (by decide) (by decide), rfl, rfl, rfl, rfl, rfl, rfl⟩
  | ptGetdevver device =>
    cases h
    exact ⟨_, _, built_emit (.passthrough _ _ _ _)⟩
  | cbGoto p m =>
    obtain ⟨u, hu, rfl⟩ := finish_ok_of_error_none h he
    repeat' split at hu
    all_goals cases hu
    cases p <;> cases m <;> exact ⟨_, _, built_emit (isRequest_anglePair _ rfl (fun _ => rfl) rfl (by decide) (by decide))⟩
  | cbSync p =>
    obtain ⟨u, hu, rfl⟩ := finish_ok_of_error_none h he
    repeat' split at hu
    all_goals cases hu
    cases p <;> exact ⟨_, _, built_emit (isRequest_anglePair _ rfl (fun _ => rfl) rfl (by decide) (by decide))⟩
  | cbSettrk _ | cbSetloc | cbSettime _ =>
    obtain ⟨u, hu, rfl⟩ := finish_ok_of_error_none h he
    repeat' split at hu
    all_goals cases hu
    exact ⟨_, _, built_emit (.command rfl (fun _ => rfl) rfl (by decide) (by decide))⟩
  | ptBuild _ _ | ptSlewfix _ | ptSlewvar _ =>
    obtain ⟨u, hu, rfl⟩ := finish_ok_of_error_none h he
    repeat' split at hu
    all_goals cases hu
    all_goals exact ⟨_, _, built_emit (.passthrough _ _ _ _)⟩
  | _ => cases hb

theorem Built.txlen_toNat {s t : State} (h : Built s t f n) : t.txlen.toNat = f.length := by
  rw [h.txlen, BitVec.toNat_ofNat, Nat.mod_eq_of_lt (lt_of_le_of_lt h.isRequest.length_le (by decide))]

/-- The request stands in TXBUF. -/
theorem Built.txFrame_eq {s t : State} (h : Built s t f n) (hwf : s.mem.wf = true) : txFrame t f.length = f := by
  refine List.ext_getElem (by simp [txFrame]) fun j h1 h2 => ?_
  rw [txFrame_getElem, State.txByte, h.mem]
  exact Memory.read_writeList_inside (txAddr 0) f hwf j h2

/-- The state in which SEND has begun (`42_response_framer.md` R210). -/
def sendBegun (s : State) : State := { startLink (.send 0) s with rxvalid := false, rxlen := 0 }

/-- SEND of a frame begins a new round trip. -/
theorem exec_send_of_ne {s : State} (h : s.txlen ≠ 0) : exec .send s = .next (sendBegun s) := if_neg h

/-- The frame of a builder is there to be sent. -/
theorem Built.txlen_ne_zero {s t : State} (h : Built s t f n) : t.txlen ≠ 0 := fun h0 =>
  h.isRequest.length_pos.ne (by rw [← h.txlen_toNat, h0]; rfl)

/-- The frame of a builder, as SEND begins with it. -/
theorem Built.sending {s t : State} (h : Built s t f n) (hwf : s.mem.wf = true) (he : s.events = []) :
    Sending t.latched f 0 (sendBegun t) :=
  ⟨h.events.trans he, rfl, h.isRequest.length_le, h.txlen_toNat, h.txFrame_eq hwf⟩

/-- At a request boundary nothing of the next request has come. -/
theorem received_zero {k : TxSink} (h : k.left = 0) : Received k.stream f n 0 k :=
  ⟨(List.append_nil _).symm, h, nofun, nofun⟩

/-- After the last byte the receiver is at a request boundary, has the whole request and knows its reply's length. -/
theorem Received.whole {sent : List Byte} {k : TxSink} (h : Received sent f n f.length k) (hreq : IsRequest P f n) :
    k.left = 0 ∧ k.request = f ∧ k.reply = some n ∧ k.stream = sent ++ f := by
  have h0 := hreq.length_pos.ne'
  refine ⟨?_, ?_, ?_, ?_⟩
  · rw [h.left, if_neg h0, Nat.sub_self]
  · rw [h.request h0, List.take_length]
  · refine (h.reply h0).trans (if_neg fun ⟨hp, h8⟩ => ?_)
    have hlen := (hreq.passthrough_reply hp).1
    omega
  · rw [h.stream, List.take_length]

end request

/-- Settles O28: a builder's frame is a whole request, and the receiver takes it in byte by byte. -/
theorem builtFrameIsOneRequest : Obligations.BuiltFrameIsOneRequest := by
  intro i s t hb hwf hev _ hleft h he
  obtain ⟨f, n, hbuilt⟩ := exec_builder hb h he
  have hreq := hbuilt.isRequest
  have hbegin : Received s.sink.stream f n 0 (sendBegun t).sink := by
    rw [show (sendBegun t).sink = s.sink from hbuilt.sink]
    exact received_zero hleft
  obtain ⟨m, hm⟩ := Nat.exists_eq_succ_of_ne_zero hreq.length_pos.ne'
  obtain ⟨k, hk, hrun⟩ := (hbuilt.sending hwf hev).runSteps_eq m (by omega)
    (fun v j hj hp hr => hreq.takes (hp.trans hbuilt.params) hj hr) hbegin
  rw [show m + 1 = f.length from hm.symm] at hrun
  rw [hbuilt.txlen_toNat, hbuilt.txFrame_eq hwf, hbuilt.explen]
  exact ⟨_, _, exec_send_of_ne hbuilt.txlen_ne_zero, hrun, rfl, hk.whole hreq⟩

end Sys2Proof.Machine
end

section
/-! SUPPORT. The transforms (`40_transform.md` R130 to R141): the quantizer and the dequantizer, packed DMS words and their
seconds, and the conversions between degrees and seconds. -/

namespace Sys2Proof.Machine

/-! ### The quantizer -/

/-- QNT of an angle of the circle. -/
theorem answers_qnt (p : Precision) {s : State} (h : InCircle s.opa) :
    Answers (.qnt p) s (BitVec.ofNat 64 (quantize s.params.arith (codeBits p) s.opa)) := by
  apply answers_of_finish
  change execQnt p s = _
  rw [execQnt, if_pos ((inCircle_iff s.opa).mpr h)]

/-- QNT of any other operand. -/
theorem raises_qnt (p : Precision) {s : State} (h : ¬ InCircle s.opa) : Raises (.qnt p) s (.usage .angleRange) := by
  apply raises_of_finish
  change execQnt p s = _
  rw [execQnt, if_neg (mt (inCircle_iff s.opa).mp h)]

/-- Settles O29: the code is what `quantize` makes of an angle of the circle. -/
theorem qntQuantizes : Obligations.QntQuantizes := fun p _ =>
  ⟨encodedAs_of_encode 0x10 p .raDec 0 0 rfl, fun h => ⟨_, quantize_spec _ p h, answers_qnt p h⟩, raises_qnt p⟩

/-! ### The dequantizer -/

/-- DQNT of a code of at most n bits. -/
theorem answers_dqnt (p : Precision) {s : State} (h : s.opa.toNat < 2 ^ codeBits p) :
    Answers (.dqnt p) s (dequantize (codeBits p) s.opa.toNat) := by
  apply answers_of_finish
  change execDqnt p s = _
  rw [execDqnt, if_neg h.not_ge]

/-- DQNT of a code of more than n bits. -/
theorem raises_dqnt (p : Precision) {s : State} (h : 2 ^ codeBits p ≤ s.opa.toNat) :
    Raises (.dqnt p) s (.usage .codeRange) := by
  apply raises_of_finish
  change execDqnt p s = _
  rw [execDqnt, if_pos h]

/-- Settles O31: a code's angle needs no rounding. -/
theorem dqntIsExact : Obligations.DqntIsExact := fun p _ =>
  ⟨encodedAs_of_encode 0x11 p .raDec 0 0 rfl, fun h => ⟨_, dequantize_spec (codeBits_le p) h, answers_dqnt p h⟩,
    raises_dqnt p⟩

/-! ### The quantizer's error -/

/-- How far an angle is from a code's angle, by how far it is from the code in steps of 360/2^n. -/
theorem abs_codeAngle_sub (n c : ℕ) (x : ℚ) :
    |360 * (c : ℚ) / 2 ^ n - x| = |x / 360 * 2 ^ n - c| * (360 / 2 ^ n) := by
  have hstep : (0 : ℚ) < 360 / 2 ^ n := by positivity
  have hscale : 360 * (c : ℚ) / 2 ^ n - x = -((x / 360 * 2 ^ n - c) * (360 / 2 ^ n)) := by
    field_simp
    ring
  rw [hscale, abs_neg, abs_mul, abs_of_pos hstep]

/-- The code is less than a step from the angle, even where it saturated (`40_transform.md` R134). -/
theorem Quantizes.dist_lt_one {n c : ℕ} {x : ℚ} (h : Quantizes .exact n x c) (hx : x < 360) :
    |x / 360 * 2 ^ n - c| < 1 := by
  obtain ⟨hc, hround | ⟨hsat, hround⟩⟩ := h
  · have hnear : |x / 360 * 2 ^ n - c| ≤ 1 / 2 := hround.1
    linarith
  · have htop : |x / 360 * 2 ^ n - 2 ^ n| ≤ 1 / 2 := by simpa using hround.1
    have hbelow : x / 360 * 2 ^ n < 2 ^ n := mul_lt_of_lt_one_left (by positivity) (by linarith)
    have hcode : (c : ℚ) + 1 = 2 ^ n := by
      have : c + 1 = 2 ^ n := by omega
      exact_mod_cast this
    rw [abs_lt]
    constructor <;> linarith [neg_le_of_abs_le htop]

/-- A code fits its result register. -/
theorem toNat_ofNat_code (p : Precision) {c : ℕ} (h : c < 2 ^ codeBits p) : (BitVec.ofNat 64 c).toNat = c := by
  have : 2 ^ codeBits p ≤ 2 ^ 32 := Nat.pow_le_pow_right (by norm_num) (codeBits_le p)
  rw [BitVec.toNat_ofNat, Nat.mod_eq_of_lt (by omega)]

/-- Settles O30: both bounds are on the distance of the angle from its code, times the step 360/2^n. -/
theorem quantizerErrorIsBounded : Obligations.QuantizerErrorIsBounded := by
  intro p s hexact hcircle
  have hq := quantize_spec s.params.arith p hcircle
  have hqnt := answers_qnt p hcircle
  rw [hexact] at hq hqnt
  generalize quantize .exact (codeBits p) s.opa = c at hq hqnt
  have hc := toNat_ofNat_code p hq.1
  have hval : f64Val (dequantize (codeBits p) c) = 360 * (c : ℚ) / 2 ^ codeBits p :=
    (dequantize_spec (codeBits_le p) hq.1).2.2
  have hstep : (0 : ℚ) < 360 / 2 ^ codeBits p := by positivity
  refine ⟨_, _, hqnt, answers_dqnt p (hc.trans_lt hq.1), rfl, ?_, fun hround => ?_⟩
  all_goals
    simp only [hc]
    rw [hval, abs_codeAngle_sub]
  · exact mul_lt_of_lt_one_left hstep (hq.dist_lt_one hcircle.2.2)
  · have hnear : |f64Val s.opa / 360 * 2 ^ codeBits p - c| ≤ 1 / 2 := by simpa only [hc, Int.cast_natCast] using hround.1
    calc _ ≤ 1 / 2 * (360 / 2 ^ codeBits p) := mul_le_mul_of_nonneg_right hnear hstep.le
      _ = 180 / 2 ^ codeBits p := by ring

/-! ### DMS words -/

/-- A triple whose fields fit a DMS word (`10_state.md` R30). -/
def Dms.Fits (d : Dms) : Prop := d.deg < 2 ^ 8 ∧ d.min < 2 ^ 6 ∧ d.sec < 2 ^ 6

/-- A packed word, as the sum of its fields. -/
theorem packDms_toNat {d : Dms} (h : d.Fits) :
    (packDms d).toNat = d.neg.toNat * 2 ^ 24 + d.deg * 2 ^ 16 + d.min * 2 ^ 8 + d.sec := by
  obtain ⟨hdeg, hmin, hsec⟩ := h
  have hneg : (if d.neg then 2 ^ 24 else 0) = d.neg.toNat * 2 ^ 24 := by cases d.neg <;> rfl
  have := d.neg.toNat_le
  rw [packDms, hneg, BitVec.toNat_ofNat, Nat.mod_eq_of_lt (by omega)]

/-- The fields of a word, as arithmetic. -/
theorem unpackDms_eq (w : Word64) :
    unpackDms w =
      { neg := decide (w.toNat / 2 ^ 24 % 2 = 1), deg := w.toNat / 2 ^ 16 % 2 ^ 8, min := w.toNat / 2 ^ 8 % 2 ^ 6
        sec := w.toNat % 2 ^ 6 } := by
  simp only [unpackDms, extractLsb'_toNat_div, BitVec.getLsbD, Nat.testBit_eq_decide_div_mod_eq, pow_zero, Nat.div_one]

/-- A packed word has the triple's fields. -/
theorem unpackDms_packDms {d : Dms} (h : d.Fits) : unpackDms (packDms d) = d := by
  obtain ⟨neg, deg, min, sec⟩ := d
  have hw : (packDms ⟨neg, deg, min, sec⟩).toNat = neg.toNat * 2 ^ 24 + deg * 2 ^ 16 + min * 2 ^ 8 + sec := packDms_toNat h
  obtain ⟨hdeg, hmin, hsec⟩ : deg < 2 ^ 8 ∧ min < 2 ^ 6 ∧ sec < 2 ^ 6 := h
  have hb := neg.toNat_le
  have hneg : decide ((packDms ⟨neg, deg, min, sec⟩).toNat / 2 ^ 24 % 2 = 1) = neg := by
    have : (packDms ⟨neg, deg, min, sec⟩).toNat / 2 ^ 24 % 2 = neg.toNat := by omega
    rw [this]
    cases neg <;> rfl
  rw [unpackDms_eq, hneg]
  congr 1 <;> omega

/-- A packed word is 0 outside its fields. -/
theorem packDms_reserved {d : Dms} (h : d.Fits) :
    (packDms d).extractLsb' 6 2 = 0#2 ∧ (packDms d).extractLsb' 14 2 = 0#2 ∧ (packDms d).extractLsb' 25 39 = 0#39 := by
  have hw := packDms_toNat h
  obtain ⟨hdeg, hmin, hsec⟩ := h
  have := d.neg.toNat_le
  refine ⟨?_, ?_, ?_⟩
  all_goals
    apply BitVec.eq_of_toNat_eq
    rw [extractLsb'_toNat_div, BitVec.toNat_ofNat]
    omega

/-! ### Seconds -/

/-- The triple of seconds whose degrees are at most 255 fits a DMS word. -/
theorem fits_secondsToDms {z : ℤ} (h : z.natAbs < 921600) : (secondsToDms z).Fits := by
  refine ⟨?_, ?_, ?_⟩ <;> simp only [secondsToDms] <;> omega

/-- The seconds of a triple of seconds (`40_transform.md` R135, R137). -/
theorem dmsToSeconds_secondsToDms (z : ℤ) : dmsToSeconds (secondsToDms z) = z := by
  have hsum : z.natAbs / 3600 * 3600 + z.natAbs % 3600 / 60 * 60 + z.natAbs % 3600 % 60 = z.natAbs := by omega
  simp only [dmsToSeconds, secondsToDms, hsum, decide_eq_true_eq]
  split <;> omega

/-- The seconds of a triple, by its sign. -/
theorem dmsToSeconds_eq (d : Dms) :
    dmsToSeconds d = (if d.neg then -1 else 1) * ((d.deg * 3600 + d.min * 60 + d.sec : ℕ) : ℤ) := by
  unfold dmsToSeconds
  split <;> ring

/-- The seconds of a word's fields fit a result register. -/
theorem toInt_ofInt_dmsToSeconds (w : Word64) :
    (BitVec.ofInt 64 (dmsToSeconds (unpackDms w))).toInt = dmsToSeconds (unpackDms w) := by
  have hdeg : (unpackDms w).deg < 2 ^ 8 := (w.extractLsb' 16 8).isLt
  have hmin : (unpackDms w).min < 2 ^ 6 := (w.extractLsb' 8 6).isLt
  have hsec : (unpackDms w).sec < 2 ^ 6 := (w.extractLsb' 0 6).isLt
  unfold dmsToSeconds
  rw [BitVec.toInt_ofInt, Int.bmod_eq_of_le] <;> split <;> omega

/-! ### DMSENC and DMSDEC -/

/-- DMSENC of seconds whose degrees are at most 255. -/
theorem answers_dmsenc {s : State} (h : s.opa.toInt.natAbs < 921600) :
    Answers .dmsenc s (packDms (secondsToDms s.opa.toInt)) := by
  have hdeg : (secondsToDms s.opa.toInt).deg < 2 ^ 8 := (fits_secondsToDms h).1
  apply answers_of_finish
  change execDmsenc s = _
  rw [execDmsenc, if_neg (by omega)]

/-- DMSENC of any other seconds. -/
theorem raises_dmsenc {s : State} (h : 921600 ≤ s.opa.toInt.natAbs) : Raises .dmsenc s (.usage .dmsRange) := by
  have hdeg : 255 < (secondsToDms s.opa.toInt).deg := by
    simp only [secondsToDms]
    omega
  apply raises_of_finish
  change execDmsenc s = _
  rw [execDmsenc, if_pos hdeg]

/-- DMSDEC of any word. -/
theorem answers_dmsdec (s : State) : Answers .dmsdec s (BitVec.ofInt 64 (dmsToSeconds (unpackDms s.opa))) := rfl

/-- Settles O32: the packed word has the fields of the seconds' triple, and 0 in every other bit. -/
theorem dmsencPacksSeconds : Obligations.DmsencPacksSeconds := by
  intro s
  refine ⟨encodedAs_of_encode 0x20 .standard .raDec 0 0 rfl, fun h => ?_, raises_dmsenc⟩
  have hfits := fits_secondsToDms h
  have hfields := unpackDms_packDms hfits
  have hsec : s.opa.toInt.natAbs % 3600 % 60 = s.opa.toInt.natAbs % 60 := by omega
  exact ⟨_, answers_dmsenc h, congrArg Dms.neg hfields, congrArg Dms.deg hfields, congrArg Dms.min hfields,
    (congrArg Dms.sec hfields).trans hsec, packDms_reserved hfits⟩

/-- Settles O33: the result register holds the seconds of the fields that `unpackDms` reads. -/
theorem dmsdecSumsFields : Obligations.DmsdecSumsFields :=
  ⟨encodedAs_of_encode 0x21 .standard .raDec 0 0 rfl, fun s =>
    ⟨_, answers_dmsdec s, (toInt_ofInt_dmsToSeconds s.opa).trans (dmsToSeconds_eq (unpackDms s.opa))⟩⟩

/-- Settles O34: unpacking gives back the triple, and the triple its seconds. -/
theorem dmsRoundTrips : Obligations.DmsRoundTrips := by
  intro s h
  have hlt : s.opa.toInt.natAbs < 921600 := by omega
  refine ⟨_, _, answers_dmsenc hlt, answers_dmsdec _, ?_, rfl⟩
  change BitVec.ofInt 64 (dmsToSeconds (unpackDms (packDms (secondsToDms s.opa.toInt)))) = s.opa
  rw [unpackDms_packDms (fits_secondsToDms hlt), dmsToSeconds_secondsToDms, BitVec.ofInt_toInt]

/-! ### DEG2SEC -/

/-- The seconds of an angle are the rounded magnitude, with the angle's sign. -/
theorem degreesToSeconds_eq (ar : Arith) (x : Word64) :
    degreesToSeconds ar x = if f64Val x < 0 then -(roundSeconds ar (magUnits x) : ℤ) else roundSeconds ar (magUnits x) := by
  simp only [degreesToSeconds, isNegative_iff]

/-- DEG2SEC of a finite angle whose seconds fit 64 bits. -/
theorem answers_deg2sec {s : State} (hf : f64Finite s.opa)
    (h : -(2 ^ 63) ≤ degreesToSeconds s.params.arith s.opa ∧ degreesToSeconds s.params.arith s.opa < 2 ^ 63) :
    Answers .deg2sec s (BitVec.ofInt 64 (degreesToSeconds s.params.arith s.opa)) := by
  apply answers_of_finish
  change execDeg2sec s = _
  rw [execDeg2sec, (f64Finite_iff s.opa).mp hf, if_neg (by decide), if_pos h]

/-- DEG2SEC of a finite angle whose seconds do not fit. -/
theorem raises_deg2sec_of_large {s : State} (hf : f64Finite s.opa)
    (h : ¬ (-(2 ^ 63) ≤ degreesToSeconds s.params.arith s.opa ∧ degreesToSeconds s.params.arith s.opa < 2 ^ 63)) :
    Raises .deg2sec s (.usage .valueRange) := by
  apply raises_of_finish
  change execDeg2sec s = _
  rw [execDeg2sec, (f64Finite_iff s.opa).mp hf, if_neg (by decide), if_neg h]

/-- DEG2SEC of an infinity or a NaN. -/
theorem raises_deg2sec_of_not_finite {s : State} (hf : ¬ f64Finite s.opa) : Raises .deg2sec s (.usage .valueRange) := by
  have hinf : isFinite s.opa = false := by rwa [f64Finite_iff, Bool.not_eq_true] at hf
  apply raises_of_finish
  change execDeg2sec s = _
  rw [execDeg2sec, hinf, if_pos (by decide)]

/-- Settles O35: the checks of DEG2SEC in their order, on the rounded magnitude with the angle's sign. -/
theorem degreesToSecondsRounds : Obligations.DegreesToSecondsRounds := by
  intro s
  refine ⟨fun hf => ⟨roundSeconds s.params.arith (magUnits s.opa), ?_, ?_⟩, raises_deg2sec_of_not_finite⟩
  · rw [abs_f64Val]
    exact roundSeconds_spec s.params.arith (magUnits s.opa)
  · intro z
    have hz : z = degreesToSeconds s.params.arith s.opa := (degreesToSeconds_eq s.params.arith s.opa).symm
    rw [hz]
    exact ⟨answers_deg2sec hf, raises_deg2sec_of_large hf⟩

/-! ### SEC2DEG -/

/-- A magnitude of at least a power of two that binary64 has is not rounded to 0. -/
theorem IsFl64.ne_zero {r v : ℚ} (h : IsFl64 r v) {e : ℤ} (he : -1074 ≤ e) (hr : 2 ^ e ≤ r) : v ≠ 0 := by
  rintro rfl
  obtain ⟨_, _, _, _, _, hnearest⟩ := h
  have hpow : (0 : ℚ) < 2 ^ e := by positivity
  have hle : |r - 0| ≤ |r - (1 : ℕ) * 2 ^ e| := (hnearest 1 e ⟨by norm_num, he⟩).1
  rw [sub_zero, Nat.cast_one, one_mul, abs_of_nonneg (hpow.le.trans hr), abs_of_nonneg (sub_nonneg.mpr hr)] at hle
  linarith

/-- The pattern that SEC2DEG answers has the rounded quotient's magnitude and the sign of the seconds. -/
theorem patternOf_seconds (neg : Bool) {n : ℕ} (hn : n ≤ 2 ^ 64) :
    f64Finite (patternOf neg (fl64Units n 3600)) ∧ signBit (patternOf neg (fl64Units n 3600)) = neg ∧
      magUnits (patternOf neg (fl64Units n 3600)) = fl64Units n 3600 := by
  obtain ⟨K, hK, hKv⟩ := unitsPerOne_eq
  have hle : fl64Units n 3600 ≤ 2 ^ 64 * unitsPerOne := fl64Units_le 64 (by norm_num) (by omega)
  rw [hK, ← pow_add] at hle
  have hbound : fl64Units n 3600 < 2 ^ 2000 := hle.trans_lt (pow_lt_pow_right₀ (by norm_num) (by omega))
  exact patternOf_spec neg _ hbound (fl64Units_dvd n 3600)

/-- A second or more is not rounded to 0 degrees. -/
theorem fl64Units_seconds_ne_zero {n : ℕ} (hn : n ≠ 0) : fl64Units n 3600 ≠ 0 := by
  intro h0
  refine (fl64Units_isFl64 n 3600 (by norm_num)).ne_zero (e := -12) (by norm_num) ?_ (by rw [h0, Nat.cast_zero, zero_div])
  have h1 : (1 : ℚ) ≤ n := by exact_mod_cast Nat.one_le_iff_ne_zero.mpr hn
  have h2 : (2 : ℚ) ^ (-12 : ℤ) = 1 / 4096 := by norm_num
  rw [h2]
  push_cast
  linarith

/-- SEC2DEG of any seconds. -/
theorem answers_sec2deg (s : State) :
    Answers .sec2deg s (patternOf (decide (s.opa.toInt < 0)) (fl64Units s.opa.toInt.natAbs 3600)) := rfl

/-- Settles O36: the answer is the pattern of the rounded quotient, with the sign of the seconds. -/
theorem secondsToDegreesDivides : Obligations.SecondsToDegreesDivides := by
  refine ⟨encodedAs_of_encode 0x23 .standard .raDec 0 0 rfl, fun s => ?_⟩
  have hmag : s.opa.toInt.natAbs ≤ 2 ^ 64 := by
    have := s.opa.toInt_lt
    have := s.opa.le_toInt
    omega
  obtain ⟨hfin, hsign, hunits⟩ := patternOf_seconds (decide (s.opa.toInt < 0)) hmag
  refine ⟨_, answers_sec2deg s, hfin, ?_, fun hneg => ?_, fun hnonneg => ?_⟩
  · rw [abs_f64Val, hunits, ← Int.cast_abs, Int.abs_eq_natAbs, Int.cast_natCast]
    exact fl64Units_isFl64 s.opa.toInt.natAbs 3600 (by norm_num)
  · rw [← isNegative_iff, isNegative, hsign, hunits, decide_eq_true hneg, Bool.true_and, bne_iff_ne]
    exact fl64Units_seconds_ne_zero (by omega)
  · rw [signBit_eq, decide_eq_decide] at hsign
    omega

end Sys2Proof.Machine
end

section
/-! SUPPORT. A position reply that carries back the coordinate text of a goto request (`41_command_builder.md` R167, R169,
`42_response_framer.md` R221, R222): what stands in TXBUF, what RXBUF then holds field by field, and what it reads as. -/

namespace Sys2Proof.Machine

/-! ### A goto request and a position reply -/

/-- CB_GOTO that raised no error had two angles of the circle, and their texts stand in TXBUF after the opcode byte. -/
theorem exec_cbGoto_eq_next {p : Precision} {m : CoordMode} {s t : State} (h : exec (.cbGoto p m) s = .next t)
    (he : t.error = none) (hwf : s.mem.wf = true) :
    InCircle s.opa ∧ InCircle s.opb ∧
      Stored t.mem (txAddr 0) ([gotoOpcode p m] ++ anglePair s.params.arith s.opa s.opb p) := by
  obtain ⟨u, hu, rfl⟩ := finish_ok_of_error_none h he
  split at hu
  · cases hu
  · rename_i ha
    split at hu
    · cases hu
    · rename_i hb
      cases hu
      simp only [Bool.not_eq_true', Bool.not_eq_false] at ha hb
      exact ⟨(inCircle_iff s.opa).mp ha, (inCircle_iff s.opb).mp hb, (stored_writeList (txAddr 0) _ hwf).1⟩

/-- DEC_POS of a framed reply with a comma between two hex texts. -/
theorem exec_decPos_of_hexVal {p : Precision} {s : State} {c1 c2 : ℕ} (hv : s.rxvalid = true)
    (hlen : s.rxlen.toNat = 2 * hexDigits p + 1) (hcomma : s.rxByte (hexDigits p) = Config.comma)
    (h1 : hexVal (s.rxBytes 0 (hexDigits p)) = some c1)
    (h2 : hexVal (s.rxBytes (hexDigits p + 1) (hexDigits p)) = some c2) :
    exec (.decPos p) s = .next
      { s with
        res0 := dequantize (codeBits p) c1, res1 := dequantize (codeBits p) c2, res2 := BitVec.ofNat 64 c1
        res3 := BitVec.ofNat 64 c2, done := true, inflight := none } := by
  have hframe : hasFrame s (BitVec.ofNat 8 (2 * hexDigits p + 1)) = true :=
    hasFrame_of hv (by rw [← hlen, BitVec.ofNat_toNat, BitVec.setWidth_eq])
  change execDecPos p s = _
  rw [execDecPos, if_neg (by rw [hframe]; decide), if_neg (not_not.mpr hcomma), h1, h2]
  rfl

/-- A run of RXBUF's bytes, cut in two. -/
theorem rxBytes_add (s : State) (i m n : ℕ) : s.rxBytes i (m + n) = s.rxBytes i m ++ s.rxBytes (i + m) n := by
  simp only [State.rxBytes, List.range_add, List.map_append, List.map_map, Function.comp_def, Nat.add_assoc]

/-- A position reply with the coordinate text of two angles, field by field (`42_response_framer.md` R222). -/
theorem rxBytes_of_anglePair {ar : Arith} {x y : Word64} {p : Precision} {s : State}
    (h : s.rxBytes 0 (2 * hexDigits p + 1) = anglePair ar x y p) :
    s.rxByte (hexDigits p) = Config.comma ∧ s.rxBytes 0 (hexDigits p) = angleText ar x p ∧
      s.rxBytes (hexDigits p + 1) (hexDigits p) = angleText ar y p := by
  rw [show 2 * hexDigits p + 1 = hexDigits p + 1 + hexDigits p by omega, rxBytes_add, rxBytes_add, Nat.zero_add,
    Nat.zero_add] at h
  obtain ⟨hleft, hsecond⟩ := List.append_inj' h (by rw [rxBytes_length, angleText_length])
  obtain ⟨hfirst, hcomma⟩ := List.append_inj' hleft rfl
  exact ⟨List.singleton_inj.mp hcomma, hfirst, hsecond⟩

/-- A reply with the bytes that stand in TXBUF after the opcode byte of a request. -/
theorem rxBytes_of_stored {s u : State} {op : Byte} {text : List Byte} (h : Stored s.mem (txAddr 0) ([op] ++ text))
    (hr : ∀ i < text.length, u.rxByte i = s.txByte (i + 1)) : u.rxBytes 0 text.length = text := by
  refine List.ext_getElem (rxBytes_length u 0 _) fun i _ hi => ?_
  have hbyte : s.txByte (i + 1) = text[i] := by
    have := h (i + 1) (by simpa using hi)
    rwa [txAddr, Nat.add_zero] at this
  rw [rxBytes_getElem, Nat.zero_add, hr i hi, hbyte]

/-- The text of an angle of the circle reads as its code (`41_command_builder.md` R167, `42_response_framer.md` R221). -/
theorem hexVal_angleText (ar : Arith) (p : Precision) {x : Word64} (h : InCircle x) :
    hexVal (angleText ar x p) = some (quantize ar (codeBits p) x) := hexVal_hexN (quantize_lt_hex ar p h)

/-- Settles O57: the reply's three fields are the request's two texts and the comma, and each text reads as its code. -/
theorem positionTextReadsBack : Obligations.PositionTextReadsBack := by
  intro p m s t u hwf _ he h hv hlen hreply
  obtain ⟨ha, hb, hstored⟩ := exec_cbGoto_eq_next h he hwf
  have htext := rxBytes_of_stored (u := u) hstored fun i hi => hreply i (by rwa [hlen, ← anglePair_length])
  rw [anglePair_length] at htext
  obtain ⟨hcomma, hfirst, hsecond⟩ := rxBytes_of_anglePair htext
  have h1 := hexVal_angleText s.params.arith p ha
  have h2 := hexVal_angleText s.params.arith p hb
  rw [← hfirst] at h1
  rw [← hsecond] at h2
  exact ⟨_, _, _, exec_decPos_of_hexVal hv hlen hcomma h1 h2, rfl, answers_qnt p ha, rfl,
    answers_qnt p (s := { s with opa := s.opb }) hb, rfl⟩

end Sys2Proof.Machine
end

section
/-! SUPPORT. The generic frame builders and the command builders (`41_command_builder.md` R161 to R172, R179 to R182), and a
reply that carries a request's operand bytes back (`90_conflicts.md` C4). -/

namespace Sys2Proof.Machine

/-! ### Two checks, then an append -/

section checks

variable {i : Instr} {s : State} {e1 e2 : OpError} {bad1 bad2 : Prop} [Decidable bad1] [Decidable bad2] {bs : List Byte}

/-- The first check raises its error. -/
theorem raises_of_first_check
    (h : exec i s = finish s (if bad1 then .error e1 else if bad2 then .error e2 else append bs s)) (h1 : bad1) :
    Raises i s e1 := by
  rw [if_pos h1] at h
  exact raises_of_finish h

/-- The second check raises its error where the first one passed. -/
theorem raises_of_second_check
    (h : exec i s = finish s (if bad1 then .error e1 else if bad2 then .error e2 else append bs s)) (h1 : ¬ bad1)
    (h2 : bad2) : Raises i s e2 := by
  rw [if_neg h1, if_pos h2] at h
  exact raises_of_finish h

/-- Where both checks passed, the bytes are appended, or they do not fit (`41_command_builder.md` R160). -/
theorem appends_of_checks
    (h : exec i s = finish s (if bad1 then .error e1 else if bad2 then .error e2 else append bs s)) (h1 : ¬ bad1)
    (h2 : ¬ bad2) :
    (32 < s.txlen.toNat + bs.length → Raises i s (.usage .txOverflow)) ∧
      (s.mem.wf = true → s.txlen.toNat + bs.length ≤ 32 → Appends i s bs) := by
  rw [if_neg h1, if_neg h2] at h
  exact ⟨fun hfull => overflows_of_finish hfull h, fun hwf hfit => appends_of_finish hwf hfit h⟩

end checks

/-! ### The generic frame builders -/

/-- Settles O37: FB_BYTE is an append of one byte. -/
theorem fbClearAndByteBuild : Obligations.FbClearAndByteBuild := fun _ b =>
  ⟨encodedAs_of_encode 0x30 .standard .raDec 0 0 rfl, encodedAs_of_encode 0x31 .standard .raDec b 0 rfl, rfl,
    fun hwf hlt => appends_of_finish (bs := [b]) hwf hlt rfl,
    fun hfull => overflows_of_finish (bs := [b]) (Nat.lt_succ_of_le hfull) rfl⟩

/-- Settles O38: the three checks in their order, and the bytes of a big-endian integer. -/
theorem fbUintAppendsBigEndian : Obligations.FbUintAppendsBigEndian := by
  intro w s
  have hexec : exec (.fbUint w) s = _ := rfl
  refine ⟨encodedAs_of_encode 0x32 .standard .raDec w 0 rfl, raises_of_first_check hexec, fun hlo hhi => ?_⟩
  have hwidth : ¬ (w.toNat < 1 ∨ 8 < w.toNat) := by omega
  refine ⟨raises_of_second_check hexec hwidth, fun hval => ?_⟩
  obtain ⟨hfull, hfit⟩ := appends_of_checks hexec hwidth hval.not_ge
  have hlen := bigEndian_length s.opa.toNat w.toNat
  rw [hlen] at hfull hfit
  refine ⟨hfull, fun hwf hle => ⟨_, hlen, fun j hj => ?_, hfit hwf hle⟩⟩
  rw [bigEndian_getElem, pow_mul]
  rfl

/-- Settles O39: the three checks in their order, and the hex text of the value. -/
theorem fbHexAppendsText : Obligations.FbHexAppendsText := by
  intro d s
  have hexec : exec (.fbHex d) s = _ := rfl
  refine ⟨encodedAs_of_encode 0x33 .standard .raDec d 0 rfl, raises_of_first_check hexec, fun hlo hhi => ?_⟩
  have hdigits : ¬ (d.toNat < 1 ∨ 16 < d.toNat) := by omega
  refine ⟨raises_of_second_check hexec hdigits, fun hval => ?_⟩
  obtain ⟨hfull, hfit⟩ := appends_of_checks hexec hdigits hval.not_ge
  have htext := hexN_isHexText hval
  rw [htext.1] at hfull hfit
  exact ⟨hfull, fun hwf hle => ⟨_, htext, hfit hwf hle⟩⟩

/-- The first of the `d + 1` lowest digits. -/
theorem digitsN_head? (base v d : ℕ) : (digitsN base v (d + 1)).head? = some (v / base ^ d % base) := by
  induction d generalizing v with
  | zero => simp [digitsN]
  | succ d ih => rw [digitsN, List.head?_append, ih (v / base), Nat.div_div_eq_div_mul, ← pow_succ', Option.some_or]

/-- The shortest decimal text of two characters or more does not begin with '0' (`41_command_builder.md` R165). -/
theorem decN_zero_head?_ne {v : ℕ} (hv : v < 2 ^ 64) (hlen : 2 ≤ (decN v 0).length) : (decN v 0).head? ≠ some 0x30 := by
  have htext : decN v 0 = (digitsN 10 v (decDigitCount 20 v)).map hexChar := rfl
  obtain ⟨hlt, hge, -⟩ := decDigitCount_spec 20 v (hv.trans (by norm_num))
  rw [htext, List.length_map, digitsN_length] at hlen
  obtain ⟨c, hc⟩ : ∃ c, decDigitCount 20 v = c + 1 := ⟨_, (Nat.sub_add_cancel (by omega)).symm⟩
  rw [hc, Nat.add_sub_cancel] at hge
  rw [hc, pow_succ'] at hlt
  have hlow : 10 ^ c ≤ v := hge.resolve_left (by omega)
  have hfirst : 1 ≤ v / 10 ^ c := (Nat.one_le_div_iff (by positivity)).mpr hlow
  have hdigit : v / 10 ^ c < 10 := Nat.div_lt_of_lt_mul (by rwa [mul_comm])
  rw [htext, hc, List.head?_map, digitsN_head?, Nat.mod_eq_of_lt hdigit]
  intro h0
  have hchar : (hexChar (v / 10 ^ c)).toNat = 0x30 := congrArg BitVec.toNat (Option.some.inj h0)
  rcases hexChar_class _ (by omega : v / 10 ^ c < 16) with ⟨-, h⟩ | ⟨-, h⟩ <;> omega

/-- Settles O40: the three checks in their order, and the decimal text of the value. -/
theorem fbDecAppendsText : Obligations.FbDecAppendsText := by
  intro d s
  have hexec : exec (.fbDec d) s = _ := rfl
  refine ⟨encodedAs_of_encode 0x34 .standard .raDec d 0 rfl, raises_of_first_check hexec, fun hd => ?_⟩
  refine ⟨fun h1 hval => raises_of_second_check hexec hd.not_gt ⟨h1, hval⟩, fun hval => ?_⟩
  obtain ⟨hdigits, hvalue, hlen⟩ := decN_text s.opa.isLt hval
  refine ⟨_, hdigits, hvalue, fun h1 => hlen.trans (if_neg (by omega)), fun h0 => ?_,
    appends_of_checks hexec hd.not_gt (by omega)⟩
  obtain ⟨-, -, hpos⟩ := decDigitCount_spec 20 s.opa.toNat (s.opa.isLt.trans (by norm_num))
  rw [if_pos h0] at hlen
  rw [← hlen] at hpos
  exact ⟨hpos, by rw [h0]; exact decN_zero_head?_ne s.opa.isLt⟩

/-! ### The command builders -/

/-- Settles O41: each emits its opcode byte. -/
theorem oneByteQueriesBuild : Obligations.OneByteQueriesBuild :=
  ⟨fun p m => encodedAs_of_encode 0x40 p m 0 0 rfl, encodedAs_of_encode 0x4C .standard .raDec 0 0 rfl,
    encodedAs_of_encode 0x4D .standard .raDec 0 0 rfl, encodedAs_of_encode 0x4E .standard .raDec 0 0 rfl, fun _ hwf =>
    ⟨builds_of_finish hwf rfl, builds_of_finish hwf rfl, builds_of_finish hwf rfl, builds_of_finish hwf rfl,
      builds_of_finish hwf rfl, builds_of_finish hwf rfl, builds_of_finish hwf rfl⟩⟩

/-- Settles O44: the mode is checked, then the frame is emitted. -/
theorem setTrackingBuilds : Obligations.SetTrackingBuilds := by
  intro mode s
  have hexec : exec (.cbSettrk mode) s = finish s (if 3 < mode.toNat then _ else _) := rfl
  refine ⟨fun hle hwf => builds_of_finish hwf ?_, fun hgt => raises_of_finish ?_⟩
  · rw [hexec, if_neg hle.not_gt]
  · rw [hexec, if_pos (show 3 < mode.toNat from hgt)]

/-- Settles O47: CB_ECHO emits its frame and writes ECHOREF beside it. -/
theorem echoBuilds : Obligations.EchoBuilds := fun b _ =>
  ⟨encodedAs_of_encode 0x4B .standard .raDec b 0 rfl, fun hwf => ⟨_, rfl, stored_writeList (txAddr 0) [0x4B, b] hwf⟩⟩

/-! ### CB_GOTO and CB_SYNC -/

section angles

variable {i : Instr} {s : State} {frame : List Byte} {n : Byte}

/-- A builder that checks its two angles and passes emits its frame. -/
theorem builds_of_inCircle
    (h : exec i s = finish s (if !inCircle s.opa then .error (.usage .angleRange)
      else if !inCircle s.opb then .error (.usage .angleRange) else .ok (emit frame n s)))
    (hwf : s.mem.wf = true) (ha : InCircle s.opa) (hb : InCircle s.opb) : Builds i s frame n := by
  rw [(inCircle_iff s.opa).mpr ha, (inCircle_iff s.opb).mpr hb] at h
  exact builds_of_finish hwf h

/-- A builder that checks its two angles raises ANGLE_RANGE where either is outside the circle. -/
theorem raises_of_not_inCircle {r : Except OpError State}
    (h : exec i s = finish s (if !inCircle s.opa then .error (.usage .angleRange)
      else if !inCircle s.opb then .error (.usage .angleRange) else r))
    (hout : ¬ (InCircle s.opa ∧ InCircle s.opb)) : Raises i s (.usage .angleRange) := by
  rw [← inCircle_iff, ← inCircle_iff] at hout
  apply raises_of_finish
  rw [h]
  cases ha : inCircle s.opa with
  | false => rfl
  | true =>
    have hb : inCircle s.opb = false := by simpa [ha] using hout
    rw [hb]
    rfl

end angles

/-- The text of an angle of the circle (`41_command_builder.md` R167). -/
theorem angleText_isAngleText (ar : Arith) (p : Precision) {x : Word64} (h : InCircle x) :
    IsAngleText ar p x (angleText ar x p) := ⟨_, quantize_spec ar p h, hexN_isHexText (quantize_lt_hex ar p h)⟩

/-- CB_SYNC has no coordinate mode (`30_encoding.md` R92, R93). -/
theorem decode_cbSync_azmAlt (p : Precision) : decode (fieldWord 0x42 p.bit.toNat 1 0 0) = .illegal .unusedField := by
  have hword : fieldWord 0x42 p.bit.toNat 1 0 0 = opWord 0x42 p .azmAlt 0 0 := fieldWord_eq_opWord 0x42 p .azmAlt 0 0
  have hrow : funcMap 0x42 p .azmAlt 0 0 = some (⟨true, false, false, false⟩, .cbSync p) := rfl
  rw [hword, decode_opWord, hrow]
  simp only [unusedFieldSet_opWord]
  cases p <;> rfl

/-- Settles O43: the two checks, and the frame of the opcode byte and the two texts. -/
theorem coordinateRequestsBuild : Obligations.CoordinateRequestsBuild := by
  intro p m s hwf gotoOp syncOp
  have hgotoOp : gotoOp = gotoOpcode p m := by cases p <;> cases m <;> rfl
  have hsyncOp : syncOp = syncOpcode p := by cases p <;> rfl
  have hgoto : exec (.cbGoto p m) s = _ := rfl
  have hsync : exec (.cbSync p) s = _ := rfl
  refine ⟨encodedAs_of_encode 0x41 p m 0 0 rfl, encodedAs_of_encode 0x42 p .raDec 0 0 rfl, decode_cbSync_azmAlt p,
    fun ha hb => ⟨_, _, angleText_isAngleText _ p ha, angleText_isAngleText _ p hb, ?_, ?_⟩,
    fun hout => ⟨raises_of_not_inCircle hgoto hout, raises_of_not_inCircle hsync hout⟩⟩
  · rw [hgotoOp]
    exact builds_of_inCircle hgoto hwf ha hb
  · rw [hsyncOp]
    exact builds_of_inCircle hsync hwf ha hb

/-! ### Requests that were built -/

/-- CB_SETTIME that raised no error had flag and offset in range, and its operand bytes stand in TXBUF after the opcode
byte. -/
theorem exec_cbSettime_eq_next {dst : Byte} {s t : State} (h : exec (.cbSettime dst) s = .next t) (he : t.error = none)
    (hwf : s.mem.wf = true) :
    dst.toNat ≤ 1 ∧ -128 ≤ s.opb.toInt ∧ s.opb.toInt ≤ 127 ∧
      Stored t.mem (txAddr 0) ([0x48] ++ (timeBytes s.opa ++ [byteOf s.opb 0, dst])) := by
  obtain ⟨u, hu, rfl⟩ := finish_ok_of_error_none h he
  split at hu
  · cases hu
  · rename_i hflag
    split at hu
    · cases hu
    · rename_i hoffset
      cases hu
      exact ⟨by omega, by omega, by omega, (stored_writeList (txAddr 0) _ hwf).1⟩

/-- CB_SETLOC that raised no error had fields in range, and its operand bytes stand in TXBUF after the opcode byte. -/
theorem exec_cbSetloc_eq_next {s t : State} (h : exec .cbSetloc s = .next t) (he : t.error = none) (hwf : s.mem.wf = true) :
    dmsFieldsOk s.opa = true ∧ dmsFieldsOk s.opb = true ∧
      Stored t.mem (txAddr 0) ([0x57] ++ (locationBytes s.opa ++ locationBytes s.opb)) := by
  by_cases hok : dmsFieldsOk s.opa = true ∧ dmsFieldsOk s.opb = true
  · obtain ⟨ha, hb⟩ := hok
    rw [exec_cbSetloc_ok ha hb] at h
    cases h
    exact ⟨ha, hb, (stored_writeList (txAddr 0) _ hwf).1⟩
  · rw [exec_cbSetloc_error hok] at h
    cases h
    cases he

/-- A byte of a reply with the bytes that stand in TXBUF after the opcode byte of a request. -/
theorem rxByte_of_stored {t u : State} {op : Byte} {text : List Byte} (h : Stored t.mem (txAddr 0) ([op] ++ text))
    (hr : ∀ i < text.length, u.rxByte i = t.txByte (i + 1)) (i : ℕ) (hi : i < text.length) : u.rxByte i = text[i] := by
  rw [← List.getElem_of_eq (rxBytes_of_stored h hr) (by rwa [rxBytes_length]), rxBytes_getElem, Nat.zero_add]

/-! ### Decoding a request's operand bytes -/

/-- The time word of a word's time bytes (`10_state.md` R31). -/
theorem timeSum_of_byteOf {f : ℕ → Byte} {w : Word64} (h : ∀ i < 6, f i = byteOf w i) :
    timeSum f = BitVec.ofNat 64 (w.toNat % 2 ^ 48) := by
  have hbyte : ∀ i < 6, (f i).toNat = w.toNat / 2 ^ (8 * i) % 2 ^ 8 := fun i hi => by
    rw [h i hi, byteOf, extractLsb'_toNat_div]
  have := w.isLt
  apply BitVec.eq_of_toNat_eq
  rw [timeSum_toNat, hbyte 0 (by decide), hbyte 1 (by decide), hbyte 2 (by decide), hbyte 3 (by decide),
    hbyte 4 (by decide), hbyte 5 (by decide), BitVec.toNat_ofNat]
  omega

/-- A word in the range of a signed byte is its low byte, as a signed number. -/
theorem signedByte_byteOf_zero {w : Word64} (h1 : -128 ≤ w.toInt) (h2 : w.toInt ≤ 127) : signedByte (byteOf w 0) = w := by
  have hbyte : (byteOf w 0).toNat = w.toNat % 2 ^ 8 := by rw [byteOf, extractLsb'_toNat_div, pow_zero, Nat.div_one]
  apply BitVec.eq_of_toInt_eq
  rw [signedByte_toInt, hbyte]
  rw [BitVec.toInt_eq_toNat_cond] at h1 h2 ⊢
  have := w.isLt
  split at h1 <;> split <;> omega

/-- A masked number, cut in two at a bit. -/
theorem and_eq_high_add_low (n m k : ℕ) : n &&& m = (n / 2 ^ k &&& m / 2 ^ k) * 2 ^ k + (n % 2 ^ k &&& m % 2 ^ k) := by
  rw [← Nat.and_div_two_pow, ← Nat.and_mod_two_pow, Nat.div_add_mod']

/-- The bits of a packed DMS word (`10_state.md` R30), as arithmetic. -/
theorem and_dmsMask (n : ℕ) :
    n &&& 0x01FF3F3F = (n / 2 ^ 16 % 2 ^ 9) * 2 ^ 16 + (n / 2 ^ 8 % 2 ^ 6) * 2 ^ 8 + n % 2 ^ 6 := by
  have hhigh : n / 2 ^ 8 / 2 ^ 8 &&& 0x1FF = n / 2 ^ 8 / 2 ^ 8 % 2 ^ 9 := Nat.and_two_pow_sub_one_eq_mod _ 9
  have hmin : n / 2 ^ 8 % 2 ^ 8 &&& 0x3F = n / 2 ^ 8 % 2 ^ 8 % 2 ^ 6 := Nat.and_two_pow_sub_one_eq_mod _ 6
  have hsec : n % 2 ^ 8 &&& 0x3F = n % 2 ^ 8 % 2 ^ 6 := Nat.and_two_pow_sub_one_eq_mod _ 6
  have hlow : n &&& 0x01FF3F3F = (n / 2 ^ 8 &&& 0x1FF3F) * 2 ^ 8 + (n % 2 ^ 8 &&& 0x3F) :=
    and_eq_high_add_low n 0x01FF3F3F 8
  have hmid : n / 2 ^ 8 &&& 0x1FF3F = (n / 2 ^ 8 / 2 ^ 8 &&& 0x1FF) * 2 ^ 8 + (n / 2 ^ 8 % 2 ^ 8 &&& 0x3F) :=
    and_eq_high_add_low (n / 2 ^ 8) 0x1FF3F 8
  rw [hlow, hmid, hhigh, hmin, hsec]
  omega

/-- The location bytes of a DMS word whose fields are in range give back the word's fields. -/
theorem locationWord_of_locationBytes {w : Word64} {deg min sec sgn : Byte} (hok : dmsFieldsOk w = true)
    (hbytes : [deg, min, sec, sgn] = locationBytes w) : locationWord deg min sec sgn = some (w &&& 0x01FF3F3F) := by
  obtain ⟨hm, hs⟩ := (dmsFieldsOk_iff w).mp hok
  rw [locationBytes_eq] at hbytes
  obtain ⟨rfl, rfl, rfl, rfl, -⟩ := by simpa only [List.map_cons, List.cons.injEq] using hbytes
  have hfield : ∀ {x : ℕ}, x < 2 ^ 8 → (BitVec.ofNat 8 x).toNat = x := fun h => by
    rw [BitVec.toNat_ofNat, Nat.mod_eq_of_lt h]
  have hdeg := hfield (Nat.mod_lt (w.toNat / 2 ^ 16) (by decide : 0 < 2 ^ 8))
  have hmin := hfield (hm.trans_lt (by decide))
  have hsec := hfield (hs.trans_lt (by decide))
  have hsgn := hfield (x := w.toNat / 2 ^ 24 % 2) (by omega)
  have hsgnLe : (BitVec.ofNat 8 (w.toNat / 2 ^ 24 % 2)).toNat ≤ 1 := by omega
  rw [locationWord_of_le (hmin.trans_le hm) (hsec.trans_le hs) hsgnLe, Option.some.injEq]
  apply BitVec.eq_of_toNat_eq
  rw [locationSum_toNat _ _ _ hsgnLe, hdeg, hmin, hsec, hsgn, BitVec.toNat_and]
  change _ = w.toNat &&& 0x01FF3F3F
  rw [and_dmsMask]
  omega

/-! ### Replies that carry a request's operand bytes back -/

section replies

variable {s t u : State}

/-- A time reply with the operand bytes of a set-time request. -/
theorem decTime_of_cbSettime {dst : Byte} (hwf : s.mem.wf = true) (he : t.error = none) (hv : u.rxvalid = true)
    (h : exec (.cbSettime dst) s = .next t) (h8 : u.params.respLen.getTime = 8) (hlen : u.rxlen = 8)
    (hreply : ∀ i < 8, u.rxByte i = t.txByte (i + 1)) :
    exec .decTime u = .next
      { u with res0 := BitVec.ofNat 64 (s.opa.toNat % 2 ^ 48), res1 := s.opb, res2 := BitVec.ofNat 64 dst.toNat
               done := true, inflight := none } := by
  obtain ⟨hdst, hlo, hhi, hstored⟩ := exec_cbSettime_eq_next h he hwf
  have hbyte := rxByte_of_stored hstored hreply
  have htime : ∀ i < 6, u.rxByte i = byteOf s.opa i := fun i hi => by
    rw [hbyte i (show i < 8 by omega)]
    interval_cases i <;> rfl
  have hoffset : u.rxByte 6 = byteOf s.opb 0 := hbyte 6 (show 6 < 8 by decide)
  have hflag : u.rxByte 7 = dst := hbyte 7 (show 7 < 8 by decide)
  refine exec_decTime_some (hasFrame_of hv (hlen.trans h8.symm)) ?_
  rw [timeByte_default h8, decodeTime_of_le (by rwa [hflag]), timeSum_of_byteOf htime, hoffset, hflag,
    signedByte_byteOf_zero hlo hhi]

/-- A location reply with the operand bytes of a set-location request. -/
theorem decLoc_of_cbSetloc (hwf : s.mem.wf = true) (he : t.error = none) (hv : u.rxvalid = true)
    (h : exec .cbSetloc s = .next t) (h8 : u.params.respLen.getLocation = 8) (hlen : u.rxlen = 8)
    (hreply : ∀ i < 8, u.rxByte i = t.txByte (i + 1)) :
    exec .decLoc u = .next
      { u with res0 := s.opa &&& 0x01FF3F3F, res1 := s.opb &&& 0x01FF3F3F, done := true, inflight := none } := by
  obtain ⟨ha, hb, hstored⟩ := exec_cbSetloc_eq_next h he hwf
  have hbytes : u.rxBytes 0 8 = locationBytes s.opa ++ locationBytes s.opb := rxBytes_of_stored hstored hreply
  obtain ⟨hlat, hlon⟩ := List.append_inj (s₁ := u.rxBytes 0 4) (t₁ := u.rxBytes 4 4) hbytes rfl
  refine exec_decLoc_some (hasFrame_of hv (hlen.trans h8.symm)) ?_
  rw [locationByte_default h8, decodeLocation, locationWord_of_locationBytes ha hlat,
    locationWord_of_locationBytes hb hlon]

/-- An echo reply with the byte of an echo request. -/
theorem decEcho_of_cbEcho {b : Byte} (hwf : s.mem.wf = true) (hv : u.rxvalid = true)
    (h : exec (.cbEcho b) s = .next t) (href : u.echoref = t.echoref) (hlen : u.rxlen = 1)
    (hreply : u.rxByte 0 = t.txByte 1) : Answers .decEcho u (BitVec.ofNat 64 b.toNat) := by
  cases h
  have hbyte : u.rxByte 0 = b := hreply.trans ((stored_writeList (txAddr 0) [0x4B, b] hwf).1 1 (show 1 < 2 by decide))
  have hecho : u.echoref = b := href
  have hframe : hasFrame u 1 = true := hasFrame_of hv hlen
  apply answers_of_finish
  change execDecEcho u = _
  rw [execDecEcho, if_neg (by rw [hframe]; decide), if_neg (not_not.mpr (hbyte.trans hecho.symm)), hbyte,
    BitVec.ofNat_toNat]

end replies

/-- Settles O56: each request's operand bytes stand in TXBUF after its opcode byte, and the decoder reads them back. -/
theorem repliesInvertRequests : Obligations.RepliesInvertRequests := by
  intro s t u hwf _ he hv hreply
  have hreply8 (hlen : u.rxlen = 8) : ∀ i < 8, u.rxByte i = t.txByte (i + 1) := fun i hi =>
    hreply i (by rw [hlen]; exact hi)
  exact ⟨fun _ h h8 hlen => decTime_of_cbSettime hwf he hv h h8 hlen (hreply8 hlen),
    fun h h8 hlen => decLoc_of_cbSetloc hwf he hv h h8 hlen (hreply8 hlen),
    fun _ h href hlen => decEcho_of_cbEcho hwf hv h href hlen (hreply 0 (by rw [hlen]; decide))⟩

end Sys2Proof.Machine
end

section
/-! SUPPORT. The response framer with no agent's move pending: a SEND to the last byte of its frame and a RECV to the last byte
of its reply (`42_response_framer.md` R210 to R212); and the decoders of position and one-byte replies (R220 to R222, R226
to R228). -/

namespace Sys2Proof.Machine

/-! ### SEND -/

/-- The sink takes any byte, whether or not it is an instruction there, and the TX stream grows by it. -/
theorem exists_sinkTakes (s : State) (b : Byte) : ∃ k, SinkTakes s b k ∧ k.stream = s.sink.stream ++ [b] := by
  cases hj : sinkInstr s.sink b with
  | some j =>
    obtain ⟨k, hk, hstream⟩ := exec_sinkInstr hj
    exact ⟨k, .inl ⟨j, hj, hk⟩, hstream⟩
  | none =>
    obtain ⟨k, hk, hstream⟩ := takePlain_eq b s
    exact ⟨k, .inr ⟨hj, hk⟩, hstream⟩

theorem txFrame_length (s : State) (n : ℕ) : (txFrame s n).length = n := by simp [txFrame]

/-- SEND has begun with the frame that TXBUF holds. -/
theorem sending_txFrame {s : State} (he : s.events = []) (hfit : s.txlen.toNat ≤ Config.txCap) :
    Sending s.latched (txFrame s s.txlen.toNat) 0 (sendBegun s) where
  unattended := he
  inflight := rfl
  fits := by rwa [txFrame_length]
  length := (txFrame_length s _).symm
  frame := by
    rw [txFrame_length]
    rfl

/-- A SEND that has begun hands its frame to the sink, in order, and completes. -/
theorem runSteps_sendBegun {s : State} (he : s.events = []) (hfit : s.txlen.toNat ≤ Config.txCap) (h0 : s.txlen ≠ 0) :
    ∃ k : TxSink, k.stream = s.sink.stream ++ txFrame s s.txlen.toNat ∧
      runSteps s.txlen.toNat (sendBegun s) =
        .next { sendBegun s with
                inflight := none, done := true, sink := k, freeCount := s.freeCount + s.txlen.toNat } := by
  have hne : s.txlen.toNat ≠ 0 := fun h => h0 (BitVec.eq_of_toNat_eq h)
  obtain ⟨n, hn⟩ := Nat.exists_eq_succ_of_ne_zero hne
  have hrun := (sending_txFrame he hfit).runSteps_eq
    (Inv := fun i k => k.stream = s.sink.stream ++ (txFrame s s.txlen.toNat).take i) n
    (by rw [txFrame_length, Nat.zero_add, hn]) (fun t j hj _ hsent => ?_) (List.append_nil _).symm
  · rwa [← Nat.succ_eq_add_one, ← hn, List.take_length] at hrun
  · obtain ⟨k, hk, hstream⟩ := exists_sinkTakes t (txFrame s s.txlen.toNat)[j]
    exact ⟨k, hk, by rw [hstream, hsent, List.append_assoc, List.take_append_getElem hj]⟩

/-- Settles O24: the check for an empty frame, then the run of the SEND that has begun. -/
theorem sendTransmitsTheFrame : Obligations.SendTransmitsTheFrame := by
  refine ⟨encodedAs_of_encode 0x60 .standard .raDec 0 0 rfl, fun s => ⟨fun h0 => if_pos h0, fun h0 => ?_⟩⟩
  refine ⟨sendBegun s, exec_send_of_ne h0, rfl, fun he hfit => ?_⟩
  obtain ⟨k, hstream, hrun⟩ := runSteps_sendBegun he hfit h0
  exact ⟨_, hrun, rfl, hstream⟩

/-! ### RECV -/

/-- The state in which a RECV begun in `s` has taken all its bytes `bs`, before the framing contract is checked. -/
def allTaken (bs rest : List Byte) (f : Option InFlight) (s : State) : State :=
  { s with
    mem := s.mem.writeList (rxAddr 0) bs, rx := rest, inflight := f, before := s.linkRegs
    freeCount := s.freeCount + (s.explen.toNat + 1) }

section recv

variable {bs rest : List Byte} {s : State}

/-- The run of RECV from acceptance over all its bytes. -/
theorem runSteps_recv_allTaken (he : s.events = []) (hrx : s.rx = bs ++ rest) (hlen : bs.length = s.explen.toNat + 1) :
    ∃ f, runSteps (s.explen.toNat + 1) (startLink (.recv 0 s.timeout) s) =
      .next (endRecv s.latched (s.explen.toNat + 1) (allTaken bs rest f s)) := by
  obtain ⟨f, hrun⟩ := runSteps_allTaken .recv he hrx hlen
  rw [tookBytes, hlen] at hrun
  exact ⟨f, hrun⟩

variable {b : Byte} (f : Option InFlight)

/-- The byte that the framing contract tests is the last one taken (`42_response_framer.md` R211). -/
theorem allTaken_rxByte (hwf : s.mem.wf = true) (hlen : bs.length = s.explen.toNat + 1) (hlast : bs.getLast? = some b) :
    (allTaken bs rest f s).rxByte s.explen.toNat = b := by
  have h := tookBytes_term (rest := rest) (f := f) hwf hlen
  rwa [hlast] at h

/-- RECV that took all its bytes, the last one the terminator, completes with its frame. -/
theorem endRecv_allTaken_term (hwf : s.mem.wf = true) (hlen : bs.length = s.explen.toNat + 1)
    (hlast : bs.getLast? = some Config.term) :
    endRecv s.latched (s.explen.toNat + 1) (allTaken bs rest f s) =
      { withDiagnostics s.explen (s.explen.toNat + 1) Config.term (allTaken bs rest f s) with
        rxlen := s.explen, rxvalid := true, inflight := none, done := true } := by
  have hbyte := allTaken_rxByte (rest := rest) f hwf hlen hlast
  have hok : frameOutcome s.latched.e (s.explen.toNat + 1) (allTaken bs rest f s) = none :=
    (frameOutcome_none_iff _ _ _).mpr ⟨le_refl _, hbyte⟩
  have hend := ReadKind.recv.ends_of_none hok
  rwa [if_neg (Nat.succ_ne_zero _), Nat.add_sub_cancel, hbyte] at hend

/-- RECV that took all its bytes, the last one not the terminator, raises BAD_TERM. -/
theorem endRecv_allTaken_badTerm (hwf : s.mem.wf = true) (hlen : bs.length = s.explen.toNat + 1)
    (hlast : bs.getLast? = some b) (hb : b ≠ Config.term) :
    endRecv s.latched (s.explen.toNat + 1) (allTaken bs rest f s) =
      { withDiagnostics s.explen (s.explen.toNat + 1) b (allTaken bs rest f s) with
        rxlen := 0, rxvalid := false, inflight := none, done := true, error := some (.protocol .badTerm) } := by
  have hbyte := allTaken_rxByte (rest := rest) f hwf hlen hlast
  have hbad : frameOutcome s.latched.e (s.explen.toNat + 1) (allTaken bs rest f s) = some .badTerm :=
    (frameOutcome_badTerm_iff _ _ _).mpr ⟨le_refl _, fun h => hb (hbyte.symm.trans h)⟩
  have hend := endRecv_of_some hbad
  rwa [if_neg (Nat.succ_ne_zero _), Nat.add_sub_cancel, hbyte] at hend

/-- The end of RECV's attempt leaves in RXBUF what it took. -/
theorem endRecv_allTaken_mem (l : Latch) (k : ℕ) :
    (endRecv l k (allTaken bs rest f s)).mem = s.mem.writeList (rxAddr 0) bs := by
  obtain ⟨x, y, n, v, g, d, e, h⟩ := ReadKind.recv.ends_frame l k (allTaken bs rest f s)
  exact congrArg State.mem h

end recv

/-- Settles O25: the run takes the N+1 bytes, and the last one says how the attempt ends. -/
theorem recvFramesTheReply : Obligations.RecvFramesTheReply := by
  intro s bs rest he hwf hrx hlen
  obtain ⟨f, hrun⟩ := runSteps_recv_allTaken he hrx hlen
  obtain ⟨hstored, hkept⟩ := stored_writeList (rxAddr 0) bs hwf
  refine ⟨_, _, rfl, rfl, hrun, ?_, ?_, fun hlast => ?_, fun b hlast hb => ?_⟩
  · rwa [endRecv_allTaken_mem]
  · rwa [endRecv_allTaken_mem]
  · rw [endRecv_allTaken_term f hwf hlen hlast]
    rfl
  · rw [endRecv_allTaken_badTerm f hwf hlen hlast hb]
    rfl

/-! ### Decoders with a frame -/

/-- A decoder that has its frame goes on to its payload checks (`42_response_framer.md` R220). -/
theorem exec_of_hasFrame {i : Instr} {s : State} {n : Byte} {checked : Except OpError State}
    (hi : exec i s = finish s (if !hasFrame s n then .error (.usage .noFrame) else checked)) (hf : hasFrame s n = true) :
    exec i s = finish s checked := by
  rw [hi, if_neg (by rw [hf]; decide)]

/-! ### DEC_POS -/

/-- The codes of a precision are the values of its hex texts (`00_scope.md` R6). -/
theorem sixteen_pow_hexDigits (p : Precision) : 16 ^ hexDigits p = 2 ^ codeBits p := by cases p <;> rfl

/-- A hex text of RXBUF reads as a code of its precision. -/
theorem hexReads_rxBytes_lt {p : Precision} {s : State} {i c : ℕ} (h : HexReads (s.rxBytes i (hexDigits p)) c) :
    c < 2 ^ codeBits p := by
  have hlt := hexVal_lt ((hexVal_iff _ c).mpr h)
  rwa [rxBytes_length, sixteen_pow_hexDigits] at hlt

/-- `HexVal` fails exactly on what is no hex text. -/
theorem hexVal_eq_none_iff (bs : List Byte) : hexVal bs = none ↔ ¬ ∃ c, HexReads bs c := by
  simp only [Option.eq_none_iff_forall_ne_some, ne_eq, hexVal_iff, not_exists]

/-- The frame that DEC_POS asks for, by its length in bytes. -/
theorem rxlen_eq_decPos_iff (p : Precision) (s : State) :
    s.rxlen = BitVec.ofNat 8 (2 * hexDigits p + 1) ↔ s.rxlen.toNat = 2 * hexDigits p + 1 := by
  have hsmall : 2 * hexDigits p + 1 < 2 ^ 8 := by cases p <;> decide
  rw [← BitVec.toNat_inj, BitVec.toNat_ofNat, Nat.mod_eq_of_lt hsmall]

/-- DEC_POS of a framed reply without the comma, or with a byte that is no hex digit, raises BAD_PAYLOAD. -/
theorem raises_decPos_badPayload {p : Precision} {s : State} (hf : hasFrame s (BitVec.ofNat 8 (2 * hexDigits p + 1)) = true)
    (h : s.rxByte (hexDigits p) ≠ Config.comma ∨ hexVal (s.rxBytes 0 (hexDigits p)) = none ∨
      hexVal (s.rxBytes (hexDigits p + 1) (hexDigits p)) = none) :
    Raises (.decPos p) s (.protocol .badPayload) := by
  apply raises_of_finish
  rw [exec_of_hasFrame (i := .decPos p) rfl hf]
  by_cases hcomma : s.rxByte (hexDigits p) ≠ Config.comma
  · rw [if_pos hcomma]
  · rw [if_neg hcomma]
    rcases h.resolve_left hcomma with h1 | h2
    · rw [h1]
    · rw [h2]
      cases hexVal (s.rxBytes 0 (hexDigits p)) <;> rfl

/-- Settles O53: the frame, the comma and the two texts are checked, and a text that reads as a code has its exact angle. -/
theorem decPosDecodes : Obligations.DecPosDecodes := by
  intro p s d
  refine ⟨encodedAs_of_encode 0x70 p .raDec 0 0 rfl, fun h => ?_, fun hv hlen => ⟨fun c1 c2 hcomma h1 h2 => ?_, fun h => ?_⟩⟩
  · exact raises_noFrame rfl (h.imp_right (mt (rxlen_eq_decPos_iff p s).mp))
  · have hc1 := hexReads_rxBytes_lt h1
    have hc2 := hexReads_rxBytes_lt h2
    exact ⟨_, _, dequantize_spec (codeBits_le p) hc1, dequantize_spec (codeBits_le p) hc2, hc1, hc2,
      exec_decPos_of_hexVal hv hlen hcomma ((hexVal_iff _ _).mpr h1) ((hexVal_iff _ _).mpr h2)⟩
  · rw [← hexVal_eq_none_iff, ← hexVal_eq_none_iff] at h
    exact raises_decPos_badPayload (hasFrame_of hv ((rxlen_eq_decPos_iff p s).mpr hlen)) h

/-! ### The one-byte replies -/

/-- The meaning in `s` answers 0 for the byte `zero`, 1 for the byte `one`, and raises BAD_PAYLOAD for any other. -/
def DecodesFlag (i : Instr) (s : State) (zero one : Byte) : Prop :=
  exec i s = finish s
    (if s.rxByte 0 = zero then .ok { s with res0 := 0 }
      else if s.rxByte 0 = one then .ok { s with res0 := 1 } else .error (.protocol .badPayload))

section oneByte

variable {i : Instr} {s : State} {zero one : Byte}

theorem DecodesFlag.answers_zero (h : DecodesFlag i s zero one) (hb : s.rxByte 0 = zero) : Answers i s 0 := by
  rw [DecodesFlag, if_pos hb] at h
  exact answers_of_finish h

theorem DecodesFlag.answers_one (h : DecodesFlag i s zero one) (hne : one ≠ zero) (hb : s.rxByte 0 = one) :
    Answers i s 1 := by
  rw [DecodesFlag, if_neg (by rwa [hb]), if_pos hb] at h
  exact answers_of_finish h

theorem DecodesFlag.raises (h : DecodesFlag i s zero one) (h0 : s.rxByte 0 ≠ zero) (h1 : s.rxByte 0 ≠ one) :
    Raises i s (.protocol .badPayload) := by
  rw [DecodesFlag, if_neg h0, if_neg h1] at h
  exact raises_of_finish h

/-- DEC_ALIGN takes a raw 0/1 byte (`42_response_framer.md` R227). -/
theorem decAlign_decodesFlag (hf : hasFrame s 1 = true) : DecodesFlag .decAlign s 0x00 0x01 := exec_of_hasFrame rfl hf

/-- DEC_GOTO takes an ASCII '0'/'1' character (`42_response_framer.md` R228). -/
theorem decGoto_decodesFlag (hf : hasFrame s 1 = true) : DecodesFlag .decGoto s 0x30 0x31 := exec_of_hasFrame rfl hf

/-- DEC_ECHO of the byte that was sent (`42_response_framer.md` R226). -/
theorem answers_decEcho (hf : hasFrame s 1 = true) (hb : s.rxByte 0 = s.echoref) :
    Answers .decEcho s (BitVec.ofNat 64 s.echoref.toNat) := by
  apply answers_of_finish
  rw [exec_of_hasFrame (i := .decEcho) rfl hf, if_neg (not_not.mpr hb), hb, BitVec.ofNat_toNat]

/-- DEC_ECHO of another byte (`42_response_framer.md` R226). -/
theorem raises_decEcho (hf : hasFrame s 1 = true) (hb : s.rxByte 0 ≠ s.echoref) :
    Raises .decEcho s (.protocol .echoMismatch) := by
  apply raises_of_finish
  rw [exec_of_hasFrame (i := .decEcho) rfl hf, if_pos hb]

end oneByte

/-- Settles O55: the three decoders check their frame, and then DEC_ECHO compares its byte, and the other two look for their
own two bytes. -/
theorem oneByteRepliesDecode : Obligations.OneByteRepliesDecode := by
  refine ⟨encodedAs_of_encode 0x74 .standard .raDec 0 0 rfl, encodedAs_of_encode 0x75 .standard .raDec 0 0 rfl,
    encodedAs_of_encode 0x76 .standard .raDec 0 0 rfl, fun s => ⟨fun h => ?_, fun hv hlen => ?_⟩⟩
  · simp only [List.forall_mem_cons]
    exact ⟨raises_noFrame rfl h, raises_noFrame rfl h, raises_noFrame rfl h, List.forall_mem_nil _⟩
  · have hf := hasFrame_of hv hlen
    have halign := decAlign_decodesFlag hf
    have hgoto := decGoto_decodesFlag hf
    refine ⟨answers_decEcho hf, raises_decEcho hf, fun hb => ⟨halign.answers_zero hb, ?_⟩,
      fun hb => ⟨halign.answers_one (by decide) hb, ?_⟩, fun hb => ⟨hgoto.answers_zero hb, ?_⟩,
      fun hb => ⟨hgoto.answers_one (by decide) hb, ?_⟩, fun hb => ?_⟩
    · exact hgoto.raises (by rw [hb]; decide) (by rw [hb]; decide)
    · exact hgoto.raises (by rw [hb]; decide) (by rw [hb]; decide)
    · exact halign.raises (by rw [hb]; decide) (by rw [hb]; decide)
    · exact halign.raises (by rw [hb]; decide) (by rw [hb]; decide)
    · simp only [List.mem_cons, List.not_mem_nil, or_false, not_or] at hb
      obtain ⟨h00, h01, h30, h31⟩ := hb
      exact ⟨halign.raises h00 h01, hgoto.raises h30 h31⟩

end Sys2Proof.Machine
end

section
/-! SUPPORT. The passthrough builders (`43_passthrough.md` R250 to R255): the body of a generic frame, the check for a motor
that both slew builders make first, and the frame of a rate. -/

namespace Sys2Proof.Machine

/-! ### PT_BUILD -/

/-- The padded body of a sub-command of `len` bytes: the operand's bytes below `len`, then zeros. -/
theorem subBody_getD (a : Word64) (len : ℕ) {i : ℕ} (hi : i < 4) :
    (subBody a len).getD i 0 = if i < len then BitVec.ofNat 8 (a.toNat / 2 ^ (8 * i)) else 0 := by
  rw [subBody, List.getD_eq_getElem?_getD, List.getElem?_take, ← byteOf_eq]
  split
  · interval_cases i <;> rfl
  · rfl

/-- Settles O48: the check of the length, then the frame, whose body is read byte by byte. -/
theorem ptBuildBuilds : Obligations.PtBuildBuilds := by
  intro dev r s L body
  have hexec : exec (.ptBuild dev r) s = finish s (if L < 1 ∨ 4 < L then _ else _) := rfl
  have hbody {i : ℕ} (hi : i < 4) : (subBody s.opa L).getD i 0 = body i := subBody_getD s.opa L hi
  have hframe : ptFrame L dev (subBody s.opa L) r =
      [0x50, BitVec.ofNat 8 L, dev, body 0, body 1, body 2, body 3, r] := by
    rw [ptFrame, hbody (by decide), hbody (by decide), hbody (by decide), hbody (by decide)]
  refine ⟨encodedAs_of_encode 0x50 .standard .raDec dev r rfl, fun hlo hhi hwf => builds_of_finish hwf ?_,
    fun hbad => raises_of_finish ?_⟩
  · rw [hexec, if_neg (by omega), ← hframe]
  · rw [hexec, if_pos hbad]

/-! ### The check for a motor -/

/-- The motors are the devices 16 and 17 (`43_passthrough.md` R252). -/
theorem isMotor_iff (dev : Byte) : isMotor dev = true ↔ dev = 16 ∨ dev = 17 := by
  rw [isMotor, Bool.or_eq_true, beq_iff_eq, beq_iff_eq]
  rfl

section motor

variable {i : Instr} {s : State} {dev : Byte} {r : Except OpError State}

/-- A builder that checks for a motor first raises BAD_DEVICE for any other device. -/
theorem raises_badDevice (h : exec i s = finish s (if !isMotor dev then .error (.usage .badDevice) else r))
    (h16 : dev ≠ 16) (h17 : dev ≠ 17) : Raises i s (.usage .badDevice) := by
  have hno : isMotor dev = false := by
    rw [← Bool.not_eq_true, isMotor_iff, not_or]
    exact ⟨h16, h17⟩
  rw [hno] at h
  exact raises_of_finish h

/-- For a motor it goes on to its next check. -/
theorem exec_of_motor (h : exec i s = finish s (if !isMotor dev then .error (.usage .badDevice) else r))
    (hdev : dev = 16 ∨ dev = 17) : exec i s = finish s r := by
  rw [(isMotor_iff dev).mpr hdev] at h
  exact h

end motor

/-! ### PT_SLEWFIX -/

/-- Settles O49: the check for a motor, the check of the rate, then the frame. -/
theorem ptSlewfixBuilds : Obligations.PtSlewfixBuilds := by
  intro dev s
  have hexec : exec (.ptSlewfix dev) s = finish s (if !isMotor dev then _ else _) := rfl
  refine ⟨encodedAs_of_encode 0x51 .standard .raDec dev 0 rfl, raises_badDevice hexec, fun hdev =>
    ⟨fun hbad => raises_of_finish ?_, fun hlo hhi hwf => builds_of_finish hwf ?_⟩⟩
  · rw [exec_of_motor hexec hdev, if_pos hbad]
  · rw [exec_of_motor hexec hdev, if_neg (by omega), Int.abs_eq_natAbs, BitVec.ofInt_natCast]
    rfl

/-! ### PT_SLEWVAR -/

/-- The code of a variable rate says whether the rate is below 0 (`43_passthrough.md` R254). -/
theorem slewvarCode_eq {x : Word64} {code : Byte} (hneg : f64Val x < 0 → code = 7) (hpos : 0 ≤ f64Val x → code = 6) :
    (if isNegative x then 7 else 6) = code := by
  split
  · next h => exact (hneg ((isNegative_iff x).mp h)).symm
  · next h => exact (hpos (not_lt.mp (mt (isNegative_iff x).mpr h))).symm

/-- PT_SLEWVAR of a motor and a rate that is not finite. -/
theorem raises_ptSlewvar_of_not_finite {dev : Byte} {s : State} (hdev : dev = 16 ∨ dev = 17) (hf : ¬ f64Finite s.opa) :
    Raises (.ptSlewvar dev) s (.usage .badRate) := by
  have hinf : isFinite s.opa = false := by rwa [f64Finite_iff, Bool.not_eq_true] at hf
  apply raises_of_finish
  rw [exec_of_motor (i := .ptSlewvar dev) rfl hdev, hinf]
  rfl

/-- PT_SLEWVAR of a motor and a finite rate goes on to the check of the rounded magnitude. -/
theorem exec_ptSlewvar_of_finite {dev : Byte} {s : State} (hdev : dev = 16 ∨ dev = 17) (hf : f64Finite s.opa) :
    exec (.ptSlewvar dev) s =
      finish s (if 65535 < roundRate s.params.arith (magUnits s.opa) then .error (.usage .badRate)
        else .ok (emit (ptFrame 3 dev
          ([if isNegative s.opa then 7 else 6] ++ bigEndian (roundRate s.params.arith (magUnits s.opa)) 2)
          s.params.slewRespLen) s.params.slewRespLen s)) := by
  rw [exec_of_motor (i := .ptSlewvar dev) rfl hdev, (f64Finite_iff s.opa).mp hf]
  rfl

/-- Settles O50: the check for a motor, the two checks of the rate, then the frame of the sign's code and the rounded
magnitude. -/
theorem ptSlewvarBuilds : Obligations.PtSlewvarBuilds := by
  intro dev s
  refine ⟨encodedAs_of_encode 0x52 .standard .raDec dev 0 rfl, raises_badDevice rfl, fun hdev =>
    ⟨raises_ptSlewvar_of_not_finite hdev, fun hf =>
      ⟨roundRate s.params.arith (magUnits s.opa), ?_, fun hbad => raises_of_finish ?_,
        fun hle hwf code hneg hpos => builds_of_finish hwf ?_⟩⟩⟩
  · rw [abs_f64Val]
    exact roundRate_spec s.params.arith (magUnits s.opa)
  · rw [exec_ptSlewvar_of_finite hdev hf, if_pos hbad]
  · rw [exec_ptSlewvar_of_finite hdev hf, if_neg hle.not_gt, slewvarCode_eq hneg hpos]
    rfl

/-! ### PT_GETDEVVER -/

/-- Settles O51: PT_GETDEVVER has no check, and its frame's body is one byte. -/
theorem ptGetdevverBuilds : Obligations.PtGetdevverBuilds :=
  ⟨rfl, fun dev _ => ⟨encodedAs_of_encode 0x53 .standard .raDec dev 0 rfl, fun hwf => builds_of_finish hwf rfl⟩⟩

end Sys2Proof.Machine
end

section
/-! SUPPORT. The errors of an OPW write itself (`60_exceptions.md` R282, R285): an ILLEGAL word of an idle NXPE. -/

namespace Sys2Proof.Machine

/-- While no operation is in flight, `raise` has no BUSY to clear: it writes ERR, DETAIL and DONE alone. -/
theorem raise_of_idle (e : OpError) {s : State} (hb : s.busy = false) :
    raise e s = { s with error := some e, done := true } := by
  rw [raise, ← (busy_eq_false_iff s).mp hb]

/-- A write of an ILLEGAL word to OPW of an idle NXPE is accepted, and raises the error at once. -/
theorem writeOpw_illegal {s : State} {w : Word32} {d : IllegalDetail} (hb : s.busy = false) (hd : decode w = .illegal d) :
    writeOpw w s = .next (raise (.illegal d) (accept w s)) := by
  rw [writeOpw, hb, if_neg Bool.false_ne_true, hd]
  rfl

/-- Settles O7: acceptance starts no operation, so the state in which the error is raised is still idle. -/
theorem illegalWordRaises : Obligations.IllegalWordRaises := by
  intro s w d rest he hb hd
  have hidle : (accept w (moved rest s)).busy = false := hb
  rw [step_writeOpw he, writeOpw_illegal (s := moved rest s) hb hd, raise_of_idle _ hidle]
  rfl

end Sys2Proof.Machine
end

section
/-! SUPPORT. What reset leaves in the two buffers (`70_reset_and_hazards.md` R320). -/

namespace Sys2Proof.Machine

/-- Reset lists no byte, so every byte of TXBUF reads as its reset contents. -/
@[simp] theorem txByte_resetMachine (s : State) (i : ℕ) : (resetMachine s).txByte i = Memory.unlisted := rfl

/-- Reset lists no byte, so every byte of RXBUF reads as its reset contents. -/
@[simp] theorem rxByte_resetMachine (s : State) (i : ℕ) : (resetMachine s).rxByte i = Memory.unlisted := rfl

/-- Settles O15: a reset step ends in `resetMachine`, which keeps the streams and what is not NXPE's, and whose registers,
buffers and operation in flight are those of the reset state. -/
theorem resetClearsEverything : Obligations.ResetClearsEverything := by
  intro s rest he
  refine ⟨resetMachine (moved rest s), step_reset he, ?registers, ?txbuf, ?rxbuf, busy_resetMachine _⟩
  case registers => rfl
  case txbuf => exact fun i _ => txByte_resetMachine (moved rest s) i
  case rxbuf => exact fun i _ => rxByte_resetMachine (moved rest s) i

end Sys2Proof.Machine
end
